-- ==== Sys2Proof/Config.lean ====
section
/-! DEFINITION. The parameters of the block (00_scope.md R8) and the free values (93_implementation_defined.md U3, U4). -/

namespace Sys2Proof.Config

/-- `N_LIT`, the number of literal codes (00_scope.md R8). -/
abbrev nLit : Nat := 256

/-- `N_RSV`, the number of reserved control slots, codes 256 and 257 (00_scope.md R8). -/
abbrev nRsv : Nat := 2

/-- `FIRST_FREE = N_LIT + N_RSV`, next-code after reset and seed of the running counters (00_scope.md R8). -/
abbrev firstFree : Nat := 258

/-- `INIT_WIDTH`, the code width after reset (00_scope.md R8). -/
abbrev initWidth : Nat := 9

/-- `MAX_WIDTH`, the largest code width (00_scope.md R8). -/
abbrev maxWidth : Nat := 16

/-- `CAP`, the dictionary capacity `2^MAX_WIDTH` (00_scope.md R8). -/
abbrev cap : Nat := 65536

/-- DESIGN CHOICE (log entry 12): the value a host read returns where the spec says "any value"
(93_implementation_defined.md U3, U4, U9). It has no body: nothing can be proved of it. -/
opaque freeRead : Nat → Nat

end Sys2Proof.Config
end

