-- ==== Sys2Proof/Word.lean ====
section
/-! DEFINITION. The words of the block: byte, code, counter and width (10_state.md R21 to R27, R48). -/

namespace Sys2Proof

/-- A symbol, one byte (00_scope.md section 7, R12). -/
abbrev Byte := BitVec 8

/-- A code held in a register or in `CBUF`, 16 bits (10_state.md R48). -/
abbrev Code := BitVec 16

/-- A running counter, 17 bits so that 65536 fits (10_state.md R21, R25, R27). -/
abbrev Count := BitVec 17

/-- A code width, 5 bits (10_state.md R22, R25, R27). -/
abbrev Width := BitVec 5

end Sys2Proof
end

