-- ==== Sys2Proof/Syntax.lean ====
section
/-! DEFINITION. The instructions of the block, one constructor per row of spec/opcode_table.json, and the
encoded objects of 30_encoding.md. -/

namespace Sys2Proof

/-- One constructor per row of the opcode table, in the table's order. -/
inductive Instr where
  /-- `NOP`, command word `0b00` (44_codec_commands.md R197). -/
  | nop
  /-- `COMPRESS`, command word `0b01` (44_codec_commands.md R195). -/
  | compress
  /-- `DECOMPRESS`, command word `0b10` (44_codec_commands.md R196). -/
  | decompress
  /-- `CMD_RESERVED`, command word `0b11` (30_encoding.md R105). -/
  | cmdReserved
  /-- `ENC_STEP`: take one input byte (41_encoder.md R141). -/
  | encStep
  /-- `ENC_EOI`: input exhausted (41_encoder.md R143). -/
  | encEoi
  /-- `ENC_FLUSH`: emit the last prefix (41_encoder.md R142). -/
  | encFlush
  /-- `PACK_PUT`: write one code (43_bit_packer.md R177). -/
  | packPut
  /-- `PACK_EOC`: codes exhausted (43_bit_packer.md R185). -/
  | packEoc
  /-- `PACK_PAD`: finish the last byte (43_bit_packer.md R178). -/
  | packPad
  /-- `UNPACK_GET`: read one code (43_bit_packer.md R180). -/
  | unpackGet
  /-- `UNPACK_STOP`: too few bits left (43_bit_packer.md R181). -/
  | unpackStop
  /-- `DEC_FIRST`: the first code (42_decoder.md R156). -/
  | decFirst
  /-- `DEC_NEXT`: every later code (42_decoder.md R157). -/
  | decNext
  /-- `DEC_END`: codes exhausted (42_decoder.md R158). -/
  | decEnd
  /-- `DE.RESET` (40_dictionary_engine.md R120). -/
  | deReset
  /-- `DE.LOOKUP(p, c)` (40_dictionary_engine.md R121). -/
  | deLookup (p : Option Code) (c : Byte)
  /-- `DE.INSERT(p, c)` (40_dictionary_engine.md R122). -/
  | deInsert (p : Code) (c : Byte)
  /-- `DE.RESOLVE(k)`, with the index `idx` of the error report (40_dictionary_engine.md R124). -/
  | deResolve (k : Code) (idx : Nat)
  /-- `DE.GROW(p, f)` (40_dictionary_engine.md R125). -/
  | deGrow (p : Code) (f : Byte)
  /-- `SCHED(cnt, width)` (43_bit_packer.md R176). -/
  | sched (cnt : Count) (width : Width)
  /-- `CW(9)`, a code word of 9 bits (30_encoding.md R91). -/
  | cw9 (k : BitVec 9)
  /-- `CW(10)` (30_encoding.md R91). -/
  | cw10 (k : BitVec 10)
  /-- `CW(11)` (30_encoding.md R91). -/
  | cw11 (k : BitVec 11)
  /-- `CW(12)` (30_encoding.md R91). -/
  | cw12 (k : BitVec 12)
  /-- `CW(13)` (30_encoding.md R91). -/
  | cw13 (k : BitVec 13)
  /-- `CW(14)` (30_encoding.md R91). -/
  | cw14 (k : BitVec 14)
  /-- `CW(15)` (30_encoding.md R91). -/
  | cw15 (k : BitVec 15)
  /-- `CW(16)` (30_encoding.md R91). -/
  | cw16 (k : BitVec 16)
  /-- Class `LIT`: the one-byte phrase of a byte (30_encoding.md R100). -/
  | lit (c : Byte)
  /-- Class `RSV`: code 256 or 257, told apart by the low bit (30_encoding.md R100). -/
  | rsv (r : BitVec 1)
  /-- Class `PHR`: a phrase code below `NEXT` (30_encoding.md R100). -/
  | phr (k : Code)
  /-- Class `KWK`: the code equal to `NEXT` (30_encoding.md R100). -/
  | kwk (k : Code)
  /-- Class `BAD`: a code above `NEXT` (30_encoding.md R100). -/
  | bad (k : Code)
  deriving DecidableEq, Repr

/-- The encoded objects (30_encoding.md R90, R104, R106, R100). A sub-operation has none (R109). -/
inductive Encoded where
  /-- The 2-bit value written to `CMD` (R104). -/
  | command (w : BitVec 2)
  /-- What selects a step: the `PHASE` value and the outcome of the row's one comparison (R106); a row whose
  condition is "always" is written with `true`. -/
  | selector (phase : BitVec 4) (cond : Bool)
  /-- The code word `CW(W)`: a width and its bits as one number (R91). -/
  | codeWord (width : Nat) (bits : Nat)
  /-- A code as the decoder takes it from `CBUF`, before it is classified (R100). -/
  | code (k : Code)
  deriving DecidableEq, Repr

/-- Why a word is rejected. -/
inductive DecodeError where
  /-- `PHASE` 0, 8 or 9: the core has no step there (44_codec_commands.md R198). -/
  | phaseWithoutStep (phase : BitVec 4)
  /-- `PHASE` 10 to 15: "never taken" (10_state.md R31). -/
  | phaseNeverTaken (phase : BitVec 4)
  /-- A width outside 9 to 16 (30_encoding.md R91). -/
  | widthOutOfRange (width : Nat)
  /-- Bits that do not fit the width (30_encoding.md R91). -/
  | bitsTooWide (width bits : Nat)
  /-- Fewer bits left than the width in force (43_bit_packer.md R181). -/
  | truncated (position width : Nat)
  deriving DecidableEq, Repr

/-- The outcome of decoding: an instruction, or a rejection by name. -/
inductive Decoded where
  | instr (i : Instr)
  | reject (e : DecodeError)
  deriving DecidableEq, Repr

end Sys2Proof
end

