-- ==== Sys2Proof/WellFormed.lean ====
section
/-! DEFINITION. Which instruction terms are well formed: the operand ranges the rules give. -/

namespace Sys2Proof

/-- A code that can name a phrase: not one of the reserved codes 256 and 257 (30_encoding.md R102). -/
def namesPhrase (k : Code) : Bool :=
  decide (k.toNat < Config.nLit) || decide (Config.firstFree ≤ k.toNat)

/-- The operand ranges: a prefix operand is a literal or a phrase code (40_dictionary_engine.md R121, R122, R125),
`SCHED` takes a counter in 258 to 65536 and a width in 9 to 16 (10_state.md R25, R27), and the code of a class lies in
the range its condition leaves once `NEXT >= 258` (30_encoding.md R100). -/
def Instr.wellFormed : Instr → Bool
  | .nop | .compress | .decompress | .cmdReserved => true
  | .encStep | .encEoi | .encFlush => true
  | .packPut | .packEoc | .packPad | .unpackGet | .unpackStop => true
  | .decFirst | .decNext | .decEnd => true
  | .deReset => true
  | .deLookup p _ => p.all namesPhrase
  | .deInsert p _ => namesPhrase p
  | .deResolve _ _ => true
  | .deGrow p _ => namesPhrase p
  | .sched cnt width =>
    decide (Config.firstFree ≤ cnt.toNat) && decide (cnt.toNat ≤ Config.cap) &&
      decide (Config.initWidth ≤ width.toNat) && decide (width.toNat ≤ Config.maxWidth)
  | .cw9 _ | .cw10 _ | .cw11 _ | .cw12 _ | .cw13 _ | .cw14 _ | .cw15 _ | .cw16 _ => true
  | .lit _ | .rsv _ => true
  | .phr k => decide (Config.firstFree ≤ k.toNat)
  | .kwk k => decide (Config.firstFree ≤ k.toNat)
  | .bad k => decide (Config.firstFree < k.toNat)

end Sys2Proof
end

