-- ==== Sys2Proof/Decode.lean ====
section
/-! DEFINITION. Bits and bytes (20_memory.md R60, R61), the width schedule (30_encoding.md R97), the decoder of
the encoded objects (30_encoding.md), and after it the encoder. -/

namespace Sys2Proof

/-! ### Bit order -/

/-- `bit(B, p)` of a byte sequence: bit `7 - (p mod 8)` of byte `p div 8` (20_memory.md R60). -/
def bitOf (bs : List Byte) (p : Nat) : Option Bool :=
  (bs[p / 8]?).map fun b => b.getLsbD (7 - p % 8)

/-- The number whose bits stand at positions `p, p+1, ..., p+w-1`, the first the most significant (20_memory.md R61,
30_encoding.md R94); `none` when one of the positions holds no value. -/
def readBits (bit : Nat → Option Bool) (p : Nat) : Nat → Option Nat
  | 0 => some 0
  | w + 1 =>
    match readBits bit p w, bit (p + w) with
    | some v, some b => some (2 * v + b.toNat)
    | _, _ => none

/-- The `w` bits of a code word, most significant first (30_encoding.md R93). -/
def wordBits (w v : Nat) : List Bool :=
  (List.range w).map fun j => v.testBit (w - 1 - j)

/-- A byte from at most eight bits, the first the most significant, missing bits zero (30_encoding.md R93, R96). -/
def byteOfBits (bits : List Bool) : Byte :=
  BitVec.ofNat 8 ((List.range 8).foldl (fun v j => 2 * v + (bits.getD j false).toNat) 0)

/-- Bytes cut from a bit string eight at a time, the last zero-padded (30_encoding.md R93, R96). -/
def packBits : List Bool → List Byte
  | b7 :: b6 :: b5 :: b4 :: b3 :: b2 :: b1 :: b0 :: rest => byteOfBits [b7, b6, b5, b4, b3, b2, b1, b0] :: packBits rest
  | [] => []
  | rest => [byteOfBits rest]

/-! ### The width schedule -/

/-- `cnt(i)` for code number `i >= 1` (30_encoding.md R97). -/
def codeCount (i : Nat) : Nat := min (257 + i) Config.cap

/-- The width as a function of the size alone (30_encoding.md R97; 40_dictionary_engine.md R127 (d)). -/
def widthOfCount (n : Nat) : Nat :=
  if n < 512 then Config.initWidth else min Config.maxWidth (Nat.log2 n + 1)

/-- `width(i)` for code number `i >= 1` (30_encoding.md R97). -/
def codeWidth (i : Nat) : Nat := widthOfCount (codeCount i)

/-- `B(n)`, the bits of the first `n` code words (30_encoding.md R107). -/
def bitTotal : Nat → Nat
  | 0 => 0
  | n + 1 => bitTotal n + codeWidth (n + 1)

/-! ### The decoder -/

/-- The command of a 2-bit word (30_encoding.md R104, R105). -/
def commandOf (w : BitVec 2) : Instr :=
  match w.toNat with
  | 0 => .nop
  | 1 => .compress
  | 2 => .decompress
  | _ => .cmdReserved

/-- The step a `PHASE` value and the outcome of its comparison select (44_codec_commands.md R198, 10_state.md R31). -/
def stepOf (phase : BitVec 4) (cond : Bool) : Decoded :=
  match phase.toNat with
  | 1 => .instr (if cond then .encStep else .encEoi)
  | 2 => .instr .encFlush
  | 3 => .instr (if cond then .packPut else .packEoc)
  | 4 => .instr .packPad
  | 5 => .instr (if cond then .unpackGet else .unpackStop)
  | 6 => .instr .decFirst
  | 7 => .instr (if cond then .decNext else .decEnd)
  | 0 | 8 | 9 => .reject (.phaseWithoutStep phase)
  | _ => .reject (.phaseNeverTaken phase)

/-- The code word of a width and its bits (30_encoding.md R91). -/
def codeWordOf (w bits : Nat) : Decoded :=
  if 2 ^ w ≤ bits then .reject (.bitsTooWide w bits)
  else
    match w with
    | 9 => .instr (.cw9 (BitVec.ofNat 9 bits))
    | 10 => .instr (.cw10 (BitVec.ofNat 10 bits))
    | 11 => .instr (.cw11 (BitVec.ofNat 11 bits))
    | 12 => .instr (.cw12 (BitVec.ofNat 12 bits))
    | 13 => .instr (.cw13 (BitVec.ofNat 13 bits))
    | 14 => .instr (.cw14 (BitVec.ofNat 14 bits))
    | 15 => .instr (.cw15 (BitVec.ofNat 15 bits))
    | 16 => .instr (.cw16 (BitVec.ofNat 16 bits))
    | _ => .reject (.widthOutOfRange w)

/-- The class of a code against `NEXT` (30_encoding.md R100). -/
def classOf (next : Count) (k : Code) : Instr :=
  if k.toNat < Config.nLit then .lit (k.setWidth 8)
  else if k.toNat < Config.firstFree then .rsv (k.setWidth 1)
  else if k.toNat < next.toNat then .phr k
  else if k.toNat = next.toNat then .kwk k
  else .bad k

/-- The decoder. `next` is the decode-side `NEXT`, which only the class of a code depends on (30_encoding.md R100). -/
def decode (next : Count) : Encoded → Decoded
  | .command w => .instr (commandOf w)
  | .selector phase cond => stepOf phase cond
  | .codeWord w bits => codeWordOf w bits
  | .code k => .instr (classOf next k)

/-- The code word at bit position `p` of a byte sequence, at the width in force there (30_encoding.md R94, R99). -/
def decodeBytes (bs : List Byte) (p w : Nat) : Decoded :=
  match readBits (bitOf bs) p w with
  | some v => codeWordOf w v
  | none => .reject (.truncated p w)

/-! ### The encoder -/

/-- The encoded object of an instruction; a sub-operation has none (30_encoding.md R109). -/
def encode : Instr → Option Encoded
  | .nop => some (.command 0b00#2)
  | .compress => some (.command 0b01#2)
  | .decompress => some (.command 0b10#2)
  | .cmdReserved => some (.command 0b11#2)
  | .encStep => some (.selector 1#4 true)
  | .encEoi => some (.selector 1#4 false)
  | .encFlush => some (.selector 2#4 true)
  | .packPut => some (.selector 3#4 true)
  | .packEoc => some (.selector 3#4 false)
  | .packPad => some (.selector 4#4 true)
  | .unpackGet => some (.selector 5#4 true)
  | .unpackStop => some (.selector 5#4 false)
  | .decFirst => some (.selector 6#4 true)
  | .decNext => some (.selector 7#4 true)
  | .decEnd => some (.selector 7#4 false)
  | .deReset => none
  | .deLookup _ _ => none
  | .deInsert _ _ => none
  | .deResolve _ _ => none
  | .deGrow _ _ => none
  | .sched _ _ => none
  | .cw9 k => some (.codeWord 9 k.toNat)
  | .cw10 k => some (.codeWord 10 k.toNat)
  | .cw11 k => some (.codeWord 11 k.toNat)
  | .cw12 k => some (.codeWord 12 k.toNat)
  | .cw13 k => some (.codeWord 13 k.toNat)
  | .cw14 k => some (.codeWord 14 k.toNat)
  | .cw15 k => some (.codeWord 15 k.toNat)
  | .cw16 k => some (.codeWord 16 k.toNat)
  | .lit c => some (.code (c.setWidth 16))
  | .rsv r => some (.code (256#16 + r.setWidth 16))
  | .phr k => some (.code k)
  | .kwk k => some (.code k)
  | .bad k => some (.code k)

/-- The condition of a class row on `NEXT` (30_encoding.md R100); no other row has one. -/
def Instr.agreesWithNext (next : Count) : Instr → Bool
  | .phr k => decide (k.toNat < next.toNat)
  | .kwk k => decide (k.toNat = next.toNat)
  | .bad k => decide (next.toNat < k.toNat)
  | _ => true

/-- The bits of a code word on the wire, most significant first; nothing else is sent as bits (30_encoding.md R93, R95). -/
def encodeBits : Encoded → List Bool
  | .codeWord w bits => wordBits w bits
  | .command _ => []
  | .selector _ _ => []
  | .code _ => []

/-- An encoded object as one number, for the opcode table's mask and match. -/
def Encoded.value : Encoded → Nat
  | .command w => w.toNat
  | .selector phase _ => phase.toNat
  | .codeWord _ bits => bits
  | .code k => k.toNat

/-- The mask and match of an instruction's row of spec/opcode_table.json; `none` for a row that has none. -/
def Instr.tableRow : Instr → Option (Nat × Nat)
  | .nop => some (0x3, 0x0)
  | .compress => some (0x3, 0x1)
  | .decompress => some (0x3, 0x2)
  | .cmdReserved => some (0x3, 0x3)
  | .encStep => some (0xF, 0x1)
  | .encEoi => some (0xF, 0x1)
  | .encFlush => some (0xF, 0x2)
  | .packPut => some (0xF, 0x3)
  | .packEoc => some (0xF, 0x3)
  | .packPad => some (0xF, 0x4)
  | .unpackGet => some (0xF, 0x5)
  | .unpackStop => some (0xF, 0x5)
  | .decFirst => some (0xF, 0x6)
  | .decNext => some (0xF, 0x7)
  | .decEnd => some (0xF, 0x7)
  | .deReset | .deLookup _ _ | .deInsert _ _ | .deResolve _ _ | .deGrow _ _ | .sched _ _ => none
  | .cw9 _ | .cw10 _ | .cw11 _ | .cw12 _ | .cw13 _ | .cw14 _ | .cw15 _ | .cw16 _ => none
  | .lit _ => some (0xFF00, 0x0000)
  | .rsv _ => some (0xFFFE, 0x0100)
  | .phr _ | .kwk _ | .bad _ => none

/-! ### Words of the opcode table -/

/-- DESIGN CHOICE (log entry 4): the encoded object that `nbits` bits of value `w` are. The table's four formats share
values, so the size chooses: 2 bits a command word, 4 bits a `PHASE` value, a whole byte the command word where the value
is one and else the `PHASE` value, 9 to 15 bits a code word, 16 bits a code. A `PHASE` value that two rows share stands for
the row whose comparison fails, which is the one that holds with nothing loaded. -/
def tableWord (nbits w : Nat) : Option Encoded :=
  if 2 ^ nbits ≤ w then none
  else if nbits = 2 then some (.command (BitVec.ofNat 2 w))
  else if nbits = 4 then some (.selector (BitVec.ofNat 4 w) false)
  else if nbits = 8 then
    if w < 4 then some (.command (BitVec.ofNat 2 w))
    else if w < 16 then some (.selector (BitVec.ofNat 4 w) false)
    else none
  else if 9 ≤ nbits ∧ nbits ≤ 15 then some (.codeWord nbits w)
  else if nbits = 16 then some (.code (BitVec.ofNat 16 w))
  else none

/-- The instruction of a word numbered as the opcode table numbers it; a code is classified against `NEXT` as reset leaves
it (log entry 4). -/
def decodeTableWord (nbits w : Nat) : Option Instr :=
  match tableWord nbits w with
  | none => none
  | some e =>
    match decode (BitVec.ofNat 17 Config.firstFree) e with
    | .instr i => some i
    | .reject _ => none

end Sys2Proof
end

