-- ==== Sys2Proof/Machine/State.lean ====
section
/-! DEFINITION. The state of one LZWCORE (10_state.md R20), the reasons a step can stop, and the state after reset. -/

namespace Sys2Proof.Machine

/-- `PHASE` (10_state.md R31). -/
inductive Phase where
  | idle | encRun | encFlush | packRun | packPad | unpackRun | decFirst | decRun | done | err
  deriving DecidableEq, Repr

/-- A dictionary entry `{pfx[15:0], ch[7:0]}` (10_state.md R49). -/
structure Entry where
  pfx : Code
  ch : Byte
  deriving DecidableEq, Repr

/-- A memory space: (index, element) pairs, indices strictly rising; an unlisted index holds no value (10_state.md R45,
R58; log entry 11). -/
abbrev Memory (α : Type) := List (Nat × α)

/-- The host-visible registers, numbers 0 to 7 (10_state.md R36). -/
inductive HostReg where
  | cmd | status | ilen | olen | errcode | errval | erridx | cfg
  deriving DecidableEq, Repr

/-- The host's moves (44_codec_commands.md R209). `poll` and `pass` are DESIGN CHOICE (log entry 1). -/
inductive HostMove where
  /-- Write the byte `IBUF[i]`. -/
  | writeIbuf (i : Nat) (b : Byte)
  /-- Write a host register: `CMD` takes a command, `ILEN` a value, the others ignore the write. -/
  | writeReg (r : HostReg) (v : Nat)
  /-- Read a host register. -/
  | readReg (r : HostReg)
  /-- Read the byte `OBUF[i]`. -/
  | readObuf (i : Nat)
  /-- Read `STATUS` until `BUSY = 0` (70_reset_and_hazards.md R248): the core steps until then. -/
  | poll
  /-- Make no move at this turn: it is the core's. -/
  | pass
  deriving DecidableEq, Repr

/-- What a sub-operation run on its own returned (log entry 9). -/
inductive SubResult where
  | nothing
  /-- `DE.LOOKUP`'s code, or none (40_dictionary_engine.md R121). -/
  | code (k : Option Code)
  /-- `DE.RESOLVE`'s entry and its first byte (40_dictionary_engine.md R124). -/
  | entry (bytes : List Byte) (first : Byte)
  /-- `SCHED`'s pair (43_bit_packer.md R176). -/
  | pair (cnt : Count) (width : Width)
  deriving DecidableEq, Repr

/-- The state: the registers and memories of 10_state.md R20 under their own names, then the model's own four fields. -/
structure State where
  /-- `PHASE` (R31). -/
  phase : Phase
  /-- `NEXT` (R21). -/
  next : Count
  /-- `WIDTH` (R22). -/
  width : Width
  /-- `DICT`, entries 258 to 65535 (R49). -/
  dict : Memory Entry
  /-- `WV` (R23). -/
  wv : Bool
  /-- `WCODE`, or no value (R23, R57). -/
  wcode : Option Code
  /-- `PV` (R24). -/
  pv : Bool
  /-- `PCODE`, or no value (R24, R57). -/
  pcode : Option Code
  /-- `PCNT` (R25). -/
  pcnt : Count
  /-- `PWIDTH` (R25). -/
  pwidth : Width
  /-- `ACC` (R26). -/
  acc : BitVec 7
  /-- `ACCN` (R26). -/
  accn : BitVec 3
  /-- `UCNT` (R27). -/
  ucnt : Count
  /-- `UWIDTH` (R27). -/
  uwidth : Width
  /-- `UPOS` (R28). -/
  upos : Nat
  /-- `IPOS` (R32). -/
  ipos : Nat
  /-- `CPOS` (R32). -/
  cpos : Nat
  /-- `CLEN` (R32). -/
  clen : Nat
  /-- `ILEN` (R39). -/
  ilen : Nat
  /-- `OLEN` (R40). -/
  olen : Nat
  /-- `ERRCODE` (R41). -/
  errcode : BitVec 2
  /-- `ERRVAL` (R42). -/
  errval : BitVec 16
  /-- `ERRIDX` (R42). -/
  erridx : Nat
  /-- `IBUF` (R46). -/
  ibuf : List Host.Cell
  /-- `OBUF` (R47). -/
  obuf : List Host.Cell
  /-- `CBUF` (R48). -/
  cbuf : Memory Code
  /-- DESIGN CHOICE (log entry 1): the moves the host is going to make, the first first. -/
  host : List HostMove
  /-- DESIGN CHOICE (log entry 2): what the host's last read returned. -/
  readData : Option Nat
  /-- DESIGN CHOICE (log entry 9): what a sub-operation run on its own returned last. -/
  ret : SubResult
  /-- DESIGN CHOICE (log entry 12): how many free values were drawn. -/
  fresh : Nat
  deriving DecidableEq, Repr

/-- An element of the state that can hold no value (10_state.md R58). -/
inductive Element where
  | ibuf (i : Nat)
  | cbuf (i : Nat)
  | dict (k : Nat)
  | wcode
  | pcode
  deriving DecidableEq, Repr

/-- What stops the machine. -/
inductive Fault where
  /-- A rule would read an element that holds no value (10_state.md R58, U9). Raised by `ENC_STEP`, `ENC_FLUSH`,
  `PACK_PUT`, `UNPACK_GET`, `DEC_FIRST`, `DEC_NEXT`, the code classes, `DE.RESOLVE`. Safe: the model stops. -/
  | noValue (e : Element)
  deriving DecidableEq, Repr

/-- What has no meaning. -/
inductive Refusal where
  /-- Raised by the dispatcher for an instruction that has no meaning yet. Safe. -/
  | notModelled (mnemonic : String)
  /-- Raised by a step, a code word or a code class executed in a state in which 44_codec_commands.md R198 does not select
  it (log entry 6). Safe: the spec gives it no effect there, and a step of the machine never does it. -/
  | notSelected
  /-- Raised by `PACK_PUT` for a code that does not fit `PWIDTH` (43_bit_packer.md R184, U7). Safe. -/
  | codeTooWide (k : Code) (width : Width)
  deriving DecidableEq, Repr

/-- The outcome of one instruction. -/
abbrev Result := Host.Outcome State Fault Refusal

/-- What `DE.RESOLVE` answers (40_dictionary_engine.md R124). -/
inductive Resolved where
  /-- The entry and its first byte. -/
  | found (entry : List Byte) (first : Byte)
  /-- The code names no phrase: `DictionaryDesync` with this sub-code. -/
  | desync (sub : BitVec 2)
  /-- An element the rule reads holds no value. -/
  | noValue (e : Element)
  deriving DecidableEq, Repr

/-- What the next turn of the machine does. -/
inductive Turn where
  /-- An instruction runs, in this state. -/
  | run (i : Instr) (s : State)
  /-- A host move that is no instruction was made. -/
  | moved (s : State)
  /-- Nobody has anything to do (44_codec_commands.md R211). -/
  | rest (s : State)
  deriving DecidableEq, Repr

/-- Power-on reset (10_state.md R57, 70_reset_and_hazards.md R245). The last four fields are the model's own (log entries
1, 2, 9, 12). -/
def State.reset : State where
  phase := .idle
  next := 258
  width := 9
  dict := []
  wv := false
  wcode := none
  pv := false
  pcode := none
  pcnt := 258
  pwidth := 9
  acc := 0
  accn := 0
  ucnt := 258
  uwidth := 9
  upos := 0
  ipos := 0
  cpos := 0
  clen := 0
  ilen := 0
  olen := 0
  errcode := 0
  errval := 0
  erridx := 0
  ibuf := []
  obuf := []
  cbuf := []
  host := []
  readData := none
  ret := .nothing
  fresh := 0

end Sys2Proof.Machine
end

