-- ==== Sys2Proof/Machine/Flags.lean ====
section
/-! DEFINITION. The status flags and the read-only words of the host registers (10_state.md R33, R34, R38, R43). -/

namespace Sys2Proof.Machine

/-- The number of a phase (10_state.md R31). -/
def phaseNumber : Phase → Nat
  | .idle => 0
  | .encRun => 1
  | .encFlush => 2
  | .packRun => 3
  | .packPad => 4
  | .unpackRun => 5
  | .decFirst => 6
  | .decRun => 7
  | .done => 8
  | .err => 9

/-- `BUSY = (1 <= PHASE <= 7)` (10_state.md R33). -/
def busy (s : State) : Bool :=
  decide (1 ≤ phaseNumber s.phase) && decide (phaseNumber s.phase ≤ 7)

/-- `DONE = (PHASE = 8)` (10_state.md R33). -/
def doneFlag (s : State) : Bool := decide (phaseNumber s.phase = 8)

/-- `ERR = (PHASE = 9)` (10_state.md R33). -/
def errFlag (s : State) : Bool := decide (phaseNumber s.phase = 9)

/-- `FROZEN`, the condition `NEXT = CAP` (10_state.md R34). -/
def frozen (s : State) : Bool := decide (s.next.toNat = Config.cap)

/-- `STATUS`: bit 0 `BUSY`, bit 1 `DONE`, bit 2 `ERR`, bits 7 to 3 zero (10_state.md R38). -/
def statusWord (s : State) : BitVec 8 :=
  0#5 ++ BitVec.ofBool (errFlag s) ++ BitVec.ofBool (doneFlag s) ++ BitVec.ofBool (busy s)

/-- `CFG`: `CFG[9:5] = MAX_WIDTH`, `CFG[4:0] = INIT_WIDTH`, hardwired (10_state.md R43). -/
def cfgWord : BitVec 10 := BitVec.ofNat 5 Config.maxWidth ++ BitVec.ofNat 5 Config.initWidth

end Sys2Proof.Machine
end

