-- ==== Sys2Proof/Machine/Ops.lean ====
section
/-! DEFINITION. The named operations over memories and registers: element reads and writes, appends, the shared width
bookkeeping, the Dictionary Engine's writes, the error entry, the command start, and one code through the packer and the
unpacker. -/

namespace Sys2Proof.Machine

/-! ### Memory spaces -/

/-- `MemRead(S, a)`: the element at an index, or no value (00_scope.md R14, 10_state.md R58). -/
def Memory.read {α : Type} : Memory α → Nat → Option α
  | [], _ => none
  | (b, x) :: m, a => if a = b then some x else Memory.read m a

/-- `MemWrite(S, a, v)` in the canonical form (00_scope.md R14). -/
def Memory.write {α : Type} : Memory α → Nat → α → Memory α
  | [], a, v => [(a, v)]
  | (b, x) :: m, a, v =>
    if a < b then (a, v) :: (b, x) :: m
    else if a = b then (a, v) :: m
    else (b, x) :: Memory.write m a v

/-- The canonical form: indices strictly rising. -/
abbrev Memory.wf {α : Type} (m : Memory α) : Prop := (m.map Prod.fst).Pairwise (· < ·)

/-- `Append(OBUF, b)` (00_scope.md R14). -/
def appendByte (b : Byte) (s : State) : State :=
  { s with obuf := Memory.write s.obuf s.olen b, olen := s.olen + 1 }

/-- `AppendAll(OBUF, bs)`, the first byte first (00_scope.md R14). -/
def appendBytes : List Byte → State → State
  | [], s => s
  | b :: bs, s => appendBytes bs (appendByte b s)

/-- `Append(CBUF, k)` (00_scope.md R14). -/
def appendCode (k : Code) (s : State) : State :=
  { s with cbuf := Memory.write s.cbuf s.clen k, clen := s.clen + 1 }

/-! ### The width bookkeeping -/

/-- `SCHED(cnt, width)` (43_bit_packer.md R176): below `CAP` the counter goes up by one, and the width by one when the
raised counter equals `2^width` and the width is below `MAX_WIDTH`. -/
def schedule (cnt : Count) (width : Width) : Count × Width :=
  if cnt.toNat < Config.cap then
    if (cnt + 1).toNat = 2 ^ width.toNat ∧ width.toNat < Config.maxWidth then (cnt + 1, width + 1)
    else (cnt + 1, width)
  else (cnt, width)

/-! ### The Dictionary Engine's writes -/

/-- `DE.RESET` (40_dictionary_engine.md R120). -/
def engineReset (s : State) : State :=
  { s with
    next := BitVec.ofNat 17 Config.firstFree
    width := BitVec.ofNat 5 Config.initWidth
    dict := [] }

/-- `DE.INSERT(p, c)` (40_dictionary_engine.md R122), its counter and width by `SCHED` (70_reset_and_hazards.md R249). -/
def engineInsert (p : Code) (c : Byte) (s : State) : State :=
  if s.next.toNat < Config.cap then
    { s with
      dict := Memory.write s.dict s.next.toNat ⟨p, c⟩
      next := (schedule s.next s.width).1
      width := (schedule s.next s.width).2 }
  else s

/-! ### Taking the error, and recovering from it -/

/-- The error entry `DictionaryDesync(sub, val, idx)`, in place of the step that raised it: five writes and nothing else
(60_exceptions.md R222). -/
def raiseDesync (sub : BitVec 2) (val : Code) (idx : Nat) (s : State) : State :=
  { s with
    errcode := sub
    errval := val
    erridx := idx
    olen := 0
    phase := .err }

/-- The command start (44_codec_commands.md R195, R196), which is also the recovery from an error (60_exceptions.md R224):
everything but `ILEN` and `IBUF` is created fresh (70_reset_and_hazards.md R246). -/
def commandStart (phase : Phase) (s : State) : State :=
  { engineReset s with
    wv := false, wcode := none, pv := false, pcode := none
    pcnt := BitVec.ofNat 17 Config.firstFree, pwidth := BitVec.ofNat 5 Config.initWidth, acc := 0, accn := 0
    ucnt := BitVec.ofNat 17 Config.firstFree, uwidth := BitVec.ofNat 5 Config.initWidth, upos := 0
    ipos := 0, cpos := 0
    clen := 0, cbuf := [], olen := 0, obuf := []
    errcode := 0, errval := 0, erridx := 0
    phase := phase }

/-- A command written to `CMD`: taken while `BUSY = 0`, without any effect while `BUSY = 1` (44_codec_commands.md R210). -/
def writeCommand (phase : Phase) (s : State) : State :=
  if busy s then s else commandStart phase s

/-! ### One code through the packer and the unpacker -/

/-- The whole bytes at the front of the low `n` bits of `v`, the loop of 43_bit_packer.md R177. -/
def wholeBytes (v : Nat) : Nat → List Byte
  | n + 8 => BitVec.ofNat 8 (v / 2 ^ n) :: wholeBytes v n
  | _ => []

/-- `PACK_PUT` once the code `k` is read: the bits of `k` at `PWIDTH` after the pending bits, whole bytes appended, the rest
pending, then `SCHED` (43_bit_packer.md R177; 30_encoding.md R93). -/
def putCode (k : Nat) (s : State) : State :=
  let v := s.acc.toNat * 2 ^ s.pwidth.toNat + k
  let n := s.accn.toNat + s.pwidth.toNat
  let t := appendBytes (wholeBytes v n) s
  { t with
    acc := BitVec.ofNat 7 (v % 2 ^ (n % 8))
    accn := BitVec.ofNat 3 (n % 8)
    pcnt := (schedule s.pcnt s.pwidth).1
    pwidth := (schedule s.pcnt s.pwidth).2
    cpos := s.cpos + 1 }

/-- `UNPACK_GET` once the bits are read: `zext_16` of the value appended, the position advanced by the width it was read
with, then `SCHED` (43_bit_packer.md R180; 30_encoding.md R94). -/
def takeCode (k : Nat) (s : State) : State :=
  let t := appendCode (BitVec.ofNat 16 k) s
  { t with
    upos := s.upos + s.uwidth.toNat
    ucnt := (schedule s.ucnt s.uwidth).1
    uwidth := (schedule s.ucnt s.uwidth).2 }

end Sys2Proof.Machine
end

