-- ==== Sys2Proof/Machine/HostMoves.lean ====
section
/-! DEFINITION. The host's moves other than commands (44_codec_commands.md R209, R210). -/

namespace Sys2Proof.Machine

/-- Write the byte `IBUF[i]`: no effect while `BUSY = 1` (44_codec_commands.md R209, R210). -/
def hostWriteIbuf (i : Nat) (b : Byte) (s : State) : State :=
  if busy s then s else { s with ibuf := Memory.write s.ibuf i b }

/-- Write a host register that is not `CMD`: `ILEN` takes the value while `BUSY = 0`; the read-only registers ignore the
write (44_codec_commands.md R209, R210; 10_state.md R43; log entry 17). -/
def hostWriteReg (r : HostReg) (v : Nat) (s : State) : State :=
  match r with
  | .ilen => if busy s then s else { s with ilen := v }
  | .cmd | .status | .olen | .errcode | .errval | .erridx | .cfg => s

/-- A read that returns `v`. -/
def readReturns (v : Nat) (s : State) : State := { s with readData := some v }

/-- A read that returns any value (93_implementation_defined.md U3, U4; log entry 12). -/
def readReturnsAny (s : State) : State :=
  { s with readData := some (Config.freeRead s.fresh), fresh := s.fresh + 1 }

/-- A read of a `bits`-bit element that returns any value of that size (log entry 12). -/
def readReturnsAnyBits (bits : Nat) (s : State) : State :=
  { s with readData := some (Config.freeRead s.fresh % 2 ^ bits), fresh := s.fresh + 1 }

/-- Read a host register: `CMD` reads 0 (10_state.md R37), `STATUS`, `CFG` and `ILEN` always read their value, the results
only while `BUSY = 0` (44_codec_commands.md R209). -/
def hostReadReg (r : HostReg) (s : State) : State :=
  match r with
  | .cmd => readReturns 0 s
  | .status => readReturns (statusWord s).toNat s
  | .ilen => readReturns s.ilen s
  | .cfg => readReturns cfgWord.toNat s
  | .olen => if busy s then readReturnsAny s else readReturns s.olen s
  | .errcode => if busy s then readReturnsAnyBits 2 s else readReturns s.errcode.toNat s
  | .errval => if busy s then readReturnsAnyBits 16 s else readReturns s.errval.toNat s
  | .erridx => if busy s then readReturnsAny s else readReturns s.erridx s

/-- Read `OBUF[i]`: the byte when `DONE = 1` and `i < OLEN`, else any byte (10_state.md R47; 93_implementation_defined.md
U3, U4, U9). -/
def hostReadObuf (i : Nat) (s : State) : State :=
  if doneFlag s ∧ i < s.olen then
    match Memory.read s.obuf i with
    | some b => readReturns b.toNat s
    | none => readReturnsAnyBits 8 s
  else readReturnsAnyBits 8 s

/-- The host's script for one command on the input `bs` (70_reset_and_hazards.md R248; 95_test_vectors.md P1): write the
bytes, write `ILEN`, write `CMD`, read `STATUS` until `BUSY = 0`. -/
def commandScript (cmd : Nat) (bs : List Byte) : List HostMove :=
  bs.zipIdx.map (fun x => HostMove.writeIbuf x.2 x.1) ++ [.writeReg .ilen bs.length, .writeReg .cmd cmd, .poll]

end Sys2Proof.Machine
end

