-- ==== Sys2Proof/Machine/Operands.lean ====
section
/-! DEFINITION. The operands of the steps: the input byte, the bits of a code word, a code of `CBUF`, the
previous entry, and what the Dictionary Engine reads (phrase, lookup, resolve). -/

namespace Sys2Proof.Machine

/-- The input byte `MemRead(IBUF, IPOS)` (41_encoder.md R141). -/
def inputByte (s : State) : Option Byte := Memory.read s.ibuf s.ipos

/-- `bit(IBUF, p)` (20_memory.md R60). -/
def inputBit (s : State) (p : Nat) : Option Bool :=
  (Memory.read s.ibuf (p / 8)).map fun b => b.getLsbD (7 - p % 8)

/-- The value of the `UWIDTH` bits of `IBUF` from `UPOS` (43_bit_packer.md R180, 30_encoding.md R94). -/
def inputCode (s : State) : Option Nat := readBits (inputBit s) s.upos s.uwidth.toNat

/-- The code `MemRead(CBUF, i)` (43_bit_packer.md R177, 42_decoder.md R156, R157). -/
def codeAt (s : State) (i : Nat) : Option Code := Memory.read s.cbuf i

/-- The decoder's previous entry as an operand: `PCODE` with `PV = 1` (42_decoder.md R157). -/
def previousEntry (s : State) : Option Code := if s.pv then s.pcode else none

/-- `DICT[k]`, read only for `258 <= k < NEXT` (10_state.md R58). -/
def dictEntry (s : State) (k : Nat) : Option Entry :=
  if Config.firstFree ≤ k ∧ k < s.next.toNat then Memory.read s.dict k else none

/-- `phrase(k)` by the recursion of 10_state.md R50, `fuel` bounding its depth (log entry 18). -/
def phraseWithin (s : State) : Nat → Nat → Option (List Byte)
  | 0, _ => none
  | fuel + 1, k =>
    if k < Config.nLit then some [BitVec.ofNat 8 k]
    else
      match dictEntry s k with
      | some e => (phraseWithin s fuel e.pfx.toNat).map (· ++ [e.ch])
      | none => none

/-- `phrase(k)`, no value where it is undefined (10_state.md R50). -/
def phrase (s : State) (k : Code) : Option (List Byte) := phraseWithin s (k.toNat + 1) k.toNat

/-- `first(k) = phrase(k)[0]` (10_state.md R50). -/
def firstByte (s : State) (k : Code) : Option Byte := (phrase s k).bind (·[0]?)

/-- `plen(k) = |phrase(k)|` (10_state.md R50). -/
def phraseLength (s : State) (k : Code) : Option Nat := (phrase s k).map List.length

/-- `DE.LOOKUP(p, c)` (40_dictionary_engine.md R121). -/
def engineLookup (p : Option Code) (c : Byte) (s : State) : Option Code :=
  match p with
  | none => some (c.setWidth 16)
  | some p =>
    (s.dict.find? fun e =>
      decide (Config.firstFree ≤ e.1) && decide (e.1 < s.next.toNat) && decide (e.2 = ⟨p, c⟩)).map
      fun e => BitVec.ofNat 16 e.1

/-- `DE.RESOLVE(k)` (40_dictionary_engine.md R124): `BAD` and `RSV` name no phrase, `KWK` is the previous entry and its first
byte once more, `LIT` and `PHR` are in the dictionary. -/
def engineResolve (k : Code) (s : State) : Resolved :=
  if s.next.toNat < k.toNat then .desync 1
  else if k.toNat = 256 ∨ k.toNat = 257 then .desync 2
  else if k.toNat = s.next.toNat then
    match previousEntry s with
    | none => .noValue .pcode
    | some p =>
      match phrase s p, firstByte s p with
      | some entry, some f => .found (entry ++ [f]) f
      | _, _ => .noValue (.dict p.toNat)
  else
    match phrase s k, firstByte s k with
    | some entry, some f => .found entry f
    | _, _ => .noValue (.dict k.toNat)

end Sys2Proof.Machine
end

