-- ==== Sys2Proof/Machine/Sequencer.lean ====
section
/-! DEFINITION. The sequencer: which step the core takes next (44_codec_commands.md R198), whose turn it is (R209; log entry
1), and where a word of the opcode table stands so that the next step runs it (log entries 3, 4). -/

namespace Sys2Proof.Machine

/-- The step `PHASE` and one comparison select; none in `IDLE`, `DONE` and `ERR` (44_codec_commands.md R198, 10_state.md
R31). -/
def selectStep (s : State) : Option Instr :=
  match s.phase with
  | .idle => none
  | .encRun => some (if s.ipos < s.ilen then .encStep else .encEoi)
  | .encFlush => some .encFlush
  | .packRun => some (if s.cpos < s.clen then .packPut else .packEoc)
  | .packPad => some .packPad
  | .unpackRun => some (if s.upos + s.uwidth.toNat ≤ 8 * s.ilen then .unpackGet else .unpackStop)
  | .decFirst => some .decFirst
  | .decRun => some (if s.cpos < s.clen then .decNext else .decEnd)
  | .done => none
  | .err => none

/-- The outcome of a step where R198 selects it; elsewhere it has no meaning (log entry 6). -/
def whenSelected (i : Instr) (s : State) (r : Result) : Result :=
  if selectStep s = some i then r else .refused .notSelected

/-- The core's turn: the selected step, or nothing to do (44_codec_commands.md R198, R211). -/
def coreTurn (s : State) : Turn :=
  match selectStep s with
  | some i => .run i s
  | none => .rest s

/-- The next turn: the host's next move, or the core's step where the host makes none (log entry 1). A write of `CMD` is a
command, of which the register takes two bits (10_state.md R37). -/
def fetch (s : State) : Turn :=
  match s.host with
  | [] => coreTurn s
  | .pass :: rest => coreTurn { s with host := rest }
  | .poll :: rest => if busy s then coreTurn s else .moved (hostReadReg .status { s with host := rest })
  | .writeReg .cmd v :: rest => .run (commandOf (BitVec.ofNat 2 v)) { s with host := rest }
  | .writeReg r v :: rest => .moved (hostWriteReg r v { s with host := rest })
  | .writeIbuf i b :: rest => .moved (hostWriteIbuf i b { s with host := rest })
  | .readReg r :: rest => .moved (hostReadReg r { s with host := rest })
  | .readObuf i :: rest => .moved (hostReadObuf i { s with host := rest })

/-- The phase of a `PHASE` value that selects a step (10_state.md R31). -/
def phaseOf (phase : BitVec 4) : Phase :=
  match phase.toNat with
  | 1 => .encRun
  | 2 => .encFlush
  | 3 => .packRun
  | 4 => .packPad
  | 5 => .unpackRun
  | 6 => .decFirst
  | 7 => .decRun
  | _ => .idle

/-- `s` with an encoded object where the next turn takes it (log entries 3, 4): a command as the host's next move; a `PHASE`
value in `PHASE`, with the cursor at its end so that the row's comparison fails; a code word as the two bytes after the
input, under the unpacker; a code in `CBUF` at `CPOS`, under the decoder, with the engine reset where its class depends on
`NEXT`. -/
def placeEncoded (e : Encoded) (s : State) : State :=
  match e with
  | .command w => { s with host := .writeReg .cmd w.toNat :: s.host }
  | .selector phase _ =>
    { s with
      host := []
      phase := phaseOf phase
      ipos := max s.ipos s.ilen
      cpos := max s.cpos s.clen
      upos := max s.upos (8 * s.ilen)
      uwidth := if s.uwidth = 0 then BitVec.ofNat 5 Config.initWidth else s.uwidth }
  | .codeWord w bits =>
    { s with
      host := []
      phase := .unpackRun
      ibuf := Memory.write (Memory.write s.ibuf s.ilen (BitVec.ofNat 8 (bits * 2 ^ (16 - w) / 256))) (s.ilen + 1)
        (BitVec.ofNat 8 (bits * 2 ^ (16 - w)))
      ilen := s.ilen + 2
      upos := 8 * s.ilen
      uwidth := BitVec.ofNat 5 w }
  | .code k =>
    let t := if k.toNat < Config.firstFree then s else engineReset s
    { t with
      host := []
      phase := if s.cpos = 0 then .decFirst else .decRun
      cbuf := Memory.write s.cbuf s.cpos k
      clen := max s.clen (s.cpos + 1) }

/-- `s` with a word of the opcode table where the next turn takes it (log entries 3, 4). -/
def placeWord (s : State) (nbits w : Nat) : State :=
  match tableWord nbits w with
  | some e => placeEncoded e s
  | none => s

end Sys2Proof.Machine
end

