-- ==== Sys2Proof/Machine/Decoder.lean ====
section
/-! DEFINITION. The LZW Decoder's steps (42_decoder.md R156 to R158). -/

namespace Sys2Proof.Machine

/-- `DEC_FIRST` once the first code is read: a literal starts the output, anything else is sub-code 3 (42_decoder.md R156,
60_exceptions.md R216). -/
def decodeFirst (k : Code) (s : State) : State :=
  if 256 ≤ k.toNat then raiseDesync 3 k 0 s
  else { appendByte (k.setWidth 8) s with pcode := some k, pv := true, cpos := 1, phase := .decRun }

/-- `DEC_FIRST`, its pseudocode (42_decoder.md R156). -/
def takeFirstCode (s : State) : Result :=
  if s.clen = 0 then .next { s with phase := .done }
  else
    match codeAt s 0 with
    | none => .fault (.noValue (.cbuf 0))
    | some k => .next (decodeFirst k s)

/-- `DEC_FIRST` (42_decoder.md R156). -/
def execDecFirst (s : State) : Result := whenSelected .decFirst s (takeFirstCode s)

/-- `DEC_NEXT` once the code is read: resolve, append, grow, then `prev := entry` (42_decoder.md R157). A code that names no
phrase takes the error entry instead, with the code's index (60_exceptions.md R222). -/
def decodeNext (k : Code) (s : State) : Result :=
  match engineResolve k s with
  | .desync sub => .next (raiseDesync sub k s.cpos s)
  | .noValue e => .fault (.noValue e)
  | .found entry f =>
    match previousEntry s with
    | none => .fault (.noValue .pcode)
    | some p => .next { engineInsert p f (appendBytes entry s) with pcode := some k, cpos := s.cpos + 1 }

/-- `DEC_NEXT`, its pseudocode (42_decoder.md R157). -/
def takeNextCode (s : State) : Result :=
  match codeAt s s.cpos with
  | none => .fault (.noValue (.cbuf s.cpos))
  | some k => decodeNext k s

/-- `DEC_NEXT` (42_decoder.md R157). -/
def execDecNext (s : State) : Result := whenSelected .decNext s (takeNextCode s)

/-- `DEC_END`: `PHASE <- DONE`, nothing else (42_decoder.md R158). -/
def execDecEnd (s : State) : Result := whenSelected .decEnd s (.next { s with phase := .done })

end Sys2Proof.Machine
end

