-- ==== Sys2Proof/Machine/CodeClass.lean ====
section
/-! DEFINITION. The classes of a code on decode, "the whole dispatch of the decoder" (30_encoding.md R100); log entry 8. -/

namespace Sys2Proof.Machine

/-- The decoder takes the code `k` of class `i`: as the first code under `DEC_FIRST` (42_decoder.md R156), as a later one
under `DEC_NEXT` (R157). It has no meaning where no code is taken or where `k` is not of that class. -/
def takeClass (i : Instr) (k : Code) (s : State) : Result :=
  if classOf s.next k = i then
    if selectStep s = some .decFirst ∧ 0 < s.clen then .next (decodeFirst k s)
    else if selectStep s = some .decNext then decodeNext k s
    else .refused .notSelected
  else .refused .notSelected

/-- Class `LIT`: the one-byte phrase (30_encoding.md R100). -/
def execLit (c : Byte) (s : State) : Result := takeClass (.lit c) (c.setWidth 16) s

/-- Class `RSV`: code 256 or 257, the error with sub-code 2, or 3 as the first code (30_encoding.md R100, R102). -/
def execRsv (r : BitVec 1) (s : State) : Result := takeClass (.rsv r) (256#16 + r.setWidth 16) s

/-- Class `PHR`: a phrase already in the dictionary (30_encoding.md R100). -/
def execPhr (k : Code) (s : State) : Result := takeClass (.phr k) k s

/-- Class `KWK`: the phrase the encoder inserted right after the previous code (30_encoding.md R100). -/
def execKwk (k : Code) (s : State) : Result := takeClass (.kwk k) k s

/-- Class `BAD`: no phrase can exist, the error with sub-code 1, or 3 as the first code (30_encoding.md R100). -/
def execBad (k : Code) (s : State) : Result := takeClass (.bad k) k s

end Sys2Proof.Machine
end

