-- ==== Sys2Proof/Machine/CodeWord.lean ====
section
/-! DEFINITION. The code words `CW(9)` to `CW(16)` (30_encoding.md R91) as what the unpacker takes from `IBUF` (R94) and the
packer writes to `OBUF` (R93); log entry 7. -/

namespace Sys2Proof.Machine

/-- A code word of width `w` holding `k`: taken by the unpacker where `UNPACK_GET` is selected and `UWIDTH = w`
(43_bit_packer.md R180), written by the packer where `PACK_PUT` is selected and `PWIDTH = w` (R177). -/
def passCodeWord (w k : Nat) (s : State) : Result :=
  if selectStep s = some .unpackGet ∧ s.uwidth.toNat = w then .next (takeCode k s)
  else if selectStep s = some .packPut ∧ s.pwidth.toNat = w then .next (putCode k s)
  else .refused .notSelected

/-- `CW(9)` (30_encoding.md R91, R93, R94). -/
def execCw9 (k : BitVec 9) (s : State) : Result := passCodeWord 9 k.toNat s

/-- `CW(10)` (30_encoding.md R91, R93, R94). -/
def execCw10 (k : BitVec 10) (s : State) : Result := passCodeWord 10 k.toNat s

/-- `CW(11)` (30_encoding.md R91, R93, R94). -/
def execCw11 (k : BitVec 11) (s : State) : Result := passCodeWord 11 k.toNat s

/-- `CW(12)` (30_encoding.md R91, R93, R94). -/
def execCw12 (k : BitVec 12) (s : State) : Result := passCodeWord 12 k.toNat s

/-- `CW(13)` (30_encoding.md R91, R93, R94). -/
def execCw13 (k : BitVec 13) (s : State) : Result := passCodeWord 13 k.toNat s

/-- `CW(14)` (30_encoding.md R91, R93, R94). -/
def execCw14 (k : BitVec 14) (s : State) : Result := passCodeWord 14 k.toNat s

/-- `CW(15)` (30_encoding.md R91, R93, R94). -/
def execCw15 (k : BitVec 15) (s : State) : Result := passCodeWord 15 k.toNat s

/-- `CW(16)` (30_encoding.md R91, R93, R94). -/
def execCw16 (k : BitVec 16) (s : State) : Result := passCodeWord 16 k.toNat s

end Sys2Proof.Machine
end

