-- ==== Sys2Proof/Machine/Command.lean ====
section
/-! DEFINITION. The command words (44_codec_commands.md R195 to R197; 30_encoding.md R105). -/

namespace Sys2Proof.Machine

/-- `NOP`: no state changes, whatever `PHASE` is (44_codec_commands.md R197). -/
def execNop (s : State) : Result := .next s

/-- `COMPRESS`: the command start into `ENC_RUN` (44_codec_commands.md R195); no effect while `BUSY = 1` (R210). -/
def execCompress (s : State) : Result := .next (writeCommand .encRun s)

/-- `DECOMPRESS`: the command start into `UNPACK_RUN` (44_codec_commands.md R196); no effect while `BUSY = 1` (R210). -/
def execDecompress (s : State) : Result := .next (writeCommand .unpackRun s)

/-- `CMD_RESERVED`: "The hardware treats the write as `NOP` (no state change)" (30_encoding.md R105; log entry 5). -/
def execCmdReserved (s : State) : Result := .next s

end Sys2Proof.Machine
end

