-- ==== Sys2Proof/Machine/Encoder.lean ====
section
/-! DEFINITION. The LZW Encoder's steps (41_encoder.md R141 to R143). -/

namespace Sys2Proof.Machine

/-- `ENC_STEP`, its pseudocode (41_encoder.md R141): with an empty prefix the byte, which is always found, becomes the
prefix; on a hit the prefix grows; on a miss emit, then insert, then reset the prefix to the byte (70_reset_and_hazards.md
R251). With `WV = 1` and no value in `WCODE`, which 10_state.md R23 excludes, the read faults (R58; log entry 10). -/
def encodeByte (s : State) : Result :=
  match inputByte s with
  | none => .fault (.noValue (.ibuf s.ipos))
  | some c =>
    if s.wv then
      match s.wcode with
      | none => .fault (.noValue .wcode)
      | some w =>
        match engineLookup (some w) c s with
        | some k => .next { s with wcode := some k, ipos := s.ipos + 1 }
        | none => .next { engineInsert w c (appendCode w s) with wcode := some (c.setWidth 16), ipos := s.ipos + 1 }
    else .next { s with wcode := engineLookup none c s, wv := true, ipos := s.ipos + 1 }

/-- `ENC_STEP` (41_encoder.md R141). -/
def execEncStep (s : State) : Result := whenSelected .encStep s (encodeByte s)

/-- `ENC_EOI`: `PHASE <- ENC_FLUSH`, nothing else (41_encoder.md R143). -/
def execEncEoi (s : State) : Result := whenSelected .encEoi s (.next { s with phase := .encFlush })

/-- `ENC_FLUSH`, its pseudocode (41_encoder.md R142). -/
def flushPrefix (s : State) : Result :=
  if s.wv then
    match s.wcode with
    | none => .fault (.noValue .wcode)
    | some w => .next { appendCode w s with wv := false, wcode := none, cpos := 0, phase := .packRun }
  else .next { s with cpos := 0, phase := .packRun }

/-- `ENC_FLUSH` (41_encoder.md R142). -/
def execEncFlush (s : State) : Result := whenSelected .encFlush s (flushPrefix s)

end Sys2Proof.Machine
end

