-- ==== Sys2Proof/Machine/Engine.lean ====
section
/-! DEFINITION. The sub-operations run on their own (40_dictionary_engine.md; 43_bit_packer.md R176). What one returns stands
in the model's own field `ret` (log entry 9). -/

namespace Sys2Proof.Machine

/-- `DE.RESET` (40_dictionary_engine.md R120). -/
def execDeReset (s : State) : Result := .next (engineReset s)

/-- `DE.LOOKUP(p, c)`: writes nothing, returns a code or none (40_dictionary_engine.md R121). -/
def execDeLookup (p : Option Code) (c : Byte) (s : State) : Result :=
  .next { s with ret := .code (engineLookup p c s) }

/-- `DE.INSERT(p, c)` (40_dictionary_engine.md R122). -/
def execDeInsert (p : Code) (c : Byte) (s : State) : Result := .next (engineInsert p c s)

/-- `DE.RESOLVE(k)`: returns the entry and its first byte, or raises with the index given (40_dictionary_engine.md R124). -/
def execDeResolve (k : Code) (idx : Nat) (s : State) : Result :=
  match engineResolve k s with
  | .found entry f => .next { s with ret := .entry entry f }
  | .desync sub => .next (raiseDesync sub k idx s)
  | .noValue e => .fault (.noValue e)

/-- `DE.GROW(p, f)`: `DE.INSERT`, nothing added and nothing left out (40_dictionary_engine.md R125). -/
def execDeGrow (p : Code) (f : Byte) (s : State) : Result := .next (engineInsert p f s)

/-- `SCHED(cnt, width)`: returns the advanced pair (43_bit_packer.md R176). -/
def execSched (cnt : Count) (width : Width) (s : State) : Result :=
  .next { s with ret := .pair (schedule cnt width).1 (schedule cnt width).2 }

end Sys2Proof.Machine
end

