-- ==== Sys2Proof/Machine/Packer.lean ====
section
/-! DEFINITION. The Bit Packer's and Unpacker's steps (43_bit_packer.md R177, R178, R180, R181, R185). -/

namespace Sys2Proof.Machine

/-- `PACK_PUT`, its pseudocode (43_bit_packer.md R177), a code that does not fit the width refused (R184). -/
def packCode (s : State) : Result :=
  match codeAt s s.cpos with
  | none => .fault (.noValue (.cbuf s.cpos))
  | some k =>
    if 2 ^ s.pwidth.toNat ≤ k.toNat then .refused (.codeTooWide k s.pwidth) else .next (putCode k.toNat s)

/-- `PACK_PUT` (43_bit_packer.md R177). -/
def execPackPut (s : State) : Result := whenSelected .packPut s (packCode s)

/-- `PACK_EOC`: `PHASE <- PACK_PAD`, nothing else (43_bit_packer.md R185). -/
def execPackEoc (s : State) : Result := whenSelected .packEoc s (.next { s with phase := .packPad })

/-- `PACK_PAD`, its pseudocode (43_bit_packer.md R178): pending bits in the high end, zero bits below. -/
def padLastByte (s : State) : State :=
  if 0 < s.accn.toNat then
    { appendByte (BitVec.ofNat 8 (s.acc.toNat * 2 ^ (8 - s.accn.toNat))) s with acc := 0, accn := 0, phase := .done }
  else { s with phase := .done }

/-- `PACK_PAD` (43_bit_packer.md R178). -/
def execPackPad (s : State) : Result := whenSelected .packPad s (.next (padLastByte s))

/-- `UNPACK_GET`, its pseudocode (43_bit_packer.md R180). -/
def unpackCode (s : State) : Result :=
  match inputCode s with
  | none => .fault (.noValue (.ibuf (s.upos / 8)))
  | some k => .next (takeCode k s)

/-- `UNPACK_GET` (43_bit_packer.md R180). -/
def execUnpackGet (s : State) : Result := whenSelected .unpackGet s (unpackCode s)

/-- `UNPACK_STOP`: `PHASE <- DEC_FIRST`, the bits left dropped unread (43_bit_packer.md R181). -/
def execUnpackStop (s : State) : Result := whenSelected .unpackStop s (.next { s with phase := .decFirst })

end Sys2Proof.Machine
end

