-- ==== Sys2Proof/Machine/Dispatch.lean ====
section
/-! DEFINITION. One arm per row of the opcode table. -/

namespace Sys2Proof.Machine

def exec (i : Instr) (s : State) : Host.Outcome State Fault Refusal :=
  match i with
  | .nop => Sys2Proof.Machine.execNop s
  | .compress => Sys2Proof.Machine.execCompress s
  | .decompress => Sys2Proof.Machine.execDecompress s
  | .cmdReserved => Sys2Proof.Machine.execCmdReserved s
  | .encStep => Sys2Proof.Machine.execEncStep s
  | .encEoi => Sys2Proof.Machine.execEncEoi s
  | .encFlush => Sys2Proof.Machine.execEncFlush s
  | .packPut => Sys2Proof.Machine.execPackPut s
  | .packEoc => Sys2Proof.Machine.execPackEoc s
  | .packPad => Sys2Proof.Machine.execPackPad s
  | .unpackGet => Sys2Proof.Machine.execUnpackGet s
  | .unpackStop => Sys2Proof.Machine.execUnpackStop s
  | .decFirst => Sys2Proof.Machine.execDecFirst s
  | .decNext => Sys2Proof.Machine.execDecNext s
  | .decEnd => Sys2Proof.Machine.execDecEnd s
  | .deReset => Sys2Proof.Machine.execDeReset s
  | .deLookup p c => Sys2Proof.Machine.execDeLookup p c s
  | .deInsert p c => Sys2Proof.Machine.execDeInsert p c s
  | .deResolve k idx => Sys2Proof.Machine.execDeResolve k idx s
  | .deGrow p f => Sys2Proof.Machine.execDeGrow p f s
  | .sched cnt width => Sys2Proof.Machine.execSched cnt width s
  | .cw9 k => Sys2Proof.Machine.execCw9 k s
  | .cw10 k => Sys2Proof.Machine.execCw10 k s
  | .cw11 k => Sys2Proof.Machine.execCw11 k s
  | .cw12 k => Sys2Proof.Machine.execCw12 k s
  | .cw13 k => Sys2Proof.Machine.execCw13 k s
  | .cw14 k => Sys2Proof.Machine.execCw14 k s
  | .cw15 k => Sys2Proof.Machine.execCw15 k s
  | .cw16 k => Sys2Proof.Machine.execCw16 k s
  | .lit c => Sys2Proof.Machine.execLit c s
  | .rsv r => Sys2Proof.Machine.execRsv r s
  | .phr k => Sys2Proof.Machine.execPhr k s
  | .kwk k => Sys2Proof.Machine.execKwk k s
  | .bad k => Sys2Proof.Machine.execBad k s

end Sys2Proof.Machine
end

