-- ==== Sys2Proof/Machine/Step.lean ====
section
/-! DEFINITION. One step of the machine: one instruction or one host move (44_codec_commands.md R198, R209). -/

namespace Sys2Proof.Machine

/-- One turn (log entry 1). Where nobody has anything to do the state persists (44_codec_commands.md R211; log entry 2). -/
def step (s : State) : Host.Outcome State Fault Refusal :=
  match fetch s with
  | .run i t => exec i t
  | .moved t => .next t
  | .rest t => .next t

/-- `s` with a word of the opcode table where the next step takes it (log entries 3, 4). -/
def State.withFetchWord (s : State) (nbits w : Nat) : State := placeWord s nbits w

end Sys2Proof.Machine
end

