-- ==== Sys2Proof/Machine/Functional.lean ====
section
/-! DEFINITION. The functional view (44_codec_commands.md R199), in the source's own terms: dictionaries of byte sequences,
whole-sequence packing and unpacking (41_encoder.md R140, 42_decoder.md R155, 43_bit_packer.md R175, R179). It shares
nothing with the step view but the width schedule of 30_encoding.md R97; log entry 24. -/

namespace Sys2Proof.Functional

/-- The phrases inserted so far, the first with code 258: the source's dictionary (10_state.md R52, R53). -/
abbrev Phrases := List (List Byte)

/-- `code_of(s)`: a byte is its own code, a phrase has the code of its place (10_state.md R52). -/
def codeOf (d : Phrases) : List Byte → Option Code
  | [b] => some (b.setWidth 16)
  | s => (d.idxOf? s).map fun j => BitVec.ofNat 16 (Config.firstFree + j)

/-- The source's `insert`: a no-op once the size is the cap (40_dictionary_engine.md R122). -/
def insertPhrase (d : Phrases) (s : List Byte) : Phrases :=
  if Config.firstFree + d.length < Config.cap then d ++ [s] else d

/-- The encoder's loop: `w` is the working prefix (41_encoder.md R140). -/
def encodeFrom (d : Phrases) (w : List Byte) : List Byte → List Code
  | [] => (codeOf d w).toList
  | c :: rest =>
    if (codeOf d (w ++ [c])).isSome then encodeFrom d (w ++ [c]) rest
    else (codeOf d w).toList ++ encodeFrom (insertPhrase d (w ++ [c])) [c] rest

/-- `encode : bytes -> codes` (41_encoder.md R140). -/
def encode (bs : List Byte) : List Code := encodeFrom [] [] bs

/-- The bits of the codes from code number `i` on, each at its width (43_bit_packer.md R175). -/
def codeBitsFrom : Nat → List Code → List Bool
  | _, [] => []
  | i, k :: ks => wordBits (codeWidth i) k.toNat ++ codeBitsFrom (i + 1) ks

/-- The requirement of 43_bit_packer.md R184 on every code of a sequence, from code number `i` on. -/
def fitsFrom : Nat → List Code → Bool
  | _, [] => true
  | i, k :: ks => decide (k.toNat < 2 ^ codeWidth i) && fitsFrom (i + 1) ks

/-- `pack : codes -> bytes` (43_bit_packer.md R175); a sequence with a code that does not fit its width is refused, never
truncated (R184, 93_implementation_defined.md U7). -/
def pack (ks : List Code) : Option (List Byte) :=
  if fitsFrom 1 ks then some (packBits (codeBitsFrom 1 ks)) else none

/-- The bits of a byte sequence, position 0 first (20_memory.md R60). -/
def bitsOf (bs : List Byte) : List Bool := bs.flatMap fun b => wordBits 8 b.toNat

/-- The number a bit string writes, most significant bit first (20_memory.md R61). -/
def numberOf (bits : List Bool) : Nat := bits.foldl (fun v b => 2 * v + b.toNat) 0

/-- The codes cut from a bit string from code number `i` on, until fewer bits than the width are left (43_bit_packer.md
R179); at most `fuel` of them. -/
def cutFrom : Nat → Nat → List Bool → List Code
  | 0, _, _ => []
  | fuel + 1, i, bits =>
    if bits.length < codeWidth i then []
    else BitVec.ofNat 16 (numberOf (bits.take (codeWidth i))) :: cutFrom fuel (i + 1) (bits.drop (codeWidth i))

/-- `unpack : bytes -> codes` (43_bit_packer.md R179). -/
def unpack (bs : List Byte) : List Code := cutFrom (8 * bs.length) 1 (bitsOf bs)

/-- The outcome of a decode: bytes, or the error with its sub-code, code and index (60_exceptions.md R216). -/
inductive Decoding where
  | bytes (bs : List Byte)
  | desync (sub : BitVec 2) (val : Code) (idx : Nat)
  deriving DecidableEq, Repr

/-- The phrase of a code that names one (10_state.md R53). -/
def phraseOf (d : Phrases) (k : Code) : Option (List Byte) :=
  if k.toNat < Config.nLit then some [k.setWidth 8]
  else if k.toNat < Config.firstFree then none
  else d[k.toNat - Config.firstFree]?

/-- The decoder's loop: `prev` is the previous entry, `out` the output so far, `idx` the index of the next code (42_decoder.md
R155; the special case and the errors by 40_dictionary_engine.md R124). -/
def decodeFrom (d : Phrases) (prev out : List Byte) : Nat → List Code → Decoding
  | _, [] => .bytes out
  | idx, k :: ks =>
    if Config.firstFree + d.length < k.toNat then .desync 1 k idx
    else if k.toNat = 256 ∨ k.toNat = 257 then .desync 2 k idx
    else
      let entry := if k.toNat = Config.firstFree + d.length then prev ++ prev.take 1 else (phraseOf d k).getD []
      decodeFrom (insertPhrase d (prev ++ entry.take 1)) entry (out ++ entry) (idx + 1) ks

/-- `decode : codes -> bytes or DictionaryDesyncError` (42_decoder.md R155, R156). -/
def decode : List Code → Decoding
  | [] => .bytes []
  | k :: ks =>
    if 256 ≤ k.toNat then .desync 3 k 0 else decodeFrom [] [k.setWidth 8] [k.setWidth 8] 1 ks

/-- `compress(b) = pack(encode(b))` (44_codec_commands.md R199). -/
def compress (bs : List Byte) : Option (List Byte) := pack (encode bs)

/-- `decompress(bs) = decode(unpack(bs))` (44_codec_commands.md R199). -/
def decompress (bs : List Byte) : Decoding := decode (unpack bs)

end Sys2Proof.Functional
end

