-- ==== Sys2Proof/Safety.lean ====
section
/-! DEFINITION. What claims say of a state: the invariant the rules of 10_state.md, 40_dictionary_engine.md and
43_bit_packer.md give (R51, R127, R187, R159), and what a run needs of its input (10_state.md R46, R58). -/

namespace Sys2Proof.Machine

/-- The four memories are in canonical form. -/
def memoriesCanonical (s : State) : Prop :=
  Memory.wf s.ibuf ∧ Memory.wf s.obuf ∧ Memory.wf s.cbuf ∧ Memory.wf s.dict

/-- A counter and its width: the counter in range, the width the function of it alone (40_dictionary_engine.md R127 (a), (b),
(d); 10_state.md R25, R27). -/
def countOk (cnt : Count) (width : Width) : Prop :=
  Config.firstFree ≤ cnt.toNat ∧ cnt.toNat ≤ Config.cap ∧ width.toNat = widthOfCount cnt.toNat

/-- The three counters are in order (70_reset_and_hazards.md R249). -/
def countersOk (s : State) : Prop :=
  countOk s.next s.width ∧ countOk s.pcnt s.pwidth ∧ countOk s.ucnt s.uwidth

/-- The code names a phrase: a literal code, or a phrase code below `NEXT` (10_state.md R50). -/
def present (s : State) (k : Code) : Prop :=
  k.toNat < Config.nLit ∨ (Config.firstFree ≤ k.toNat ∧ k.toNat < s.next.toNat)

/-- `DICT` lists exactly the entries 258 to `NEXT - 1`, each prefix a smaller code that is not reserved (10_state.md R49,
R51 (a)). -/
def dictOk (s : State) : Prop :=
  (∀ k, (Memory.read s.dict k).isSome = true ↔ Config.firstFree ≤ k ∧ k < s.next.toNat) ∧
  ∀ k e, Memory.read s.dict k = some e →
    e.pfx.toNat < k ∧ (e.pfx.toNat < Config.nLit ∨ Config.firstFree ≤ e.pfx.toNat)

/-- `WCODE` holds a value exactly while `WV = 1`, `PCODE` while `PV = 1`, and each names a phrase (10_state.md R23, R24,
R58). -/
def prefixesOk (s : State) : Prop :=
  s.wv = s.wcode.isSome ∧ s.pv = s.pcode.isSome ∧
  (∀ k, s.wcode = some k → present s k) ∧ ∀ k, s.pcode = some k → present s k

/-- A memory holds exactly the elements 0 to `n - 1`. -/
def holdsExactly {α : Type} (m : Memory α) (n : Nat) : Prop :=
  ∀ i, (Memory.read m i).isSome = true ↔ i < n

/-- The valid parts of `CBUF` and, but after an error, of `OBUF` (20_memory.md R70; 93_implementation_defined.md U3). -/
def buffersOk (s : State) : Prop :=
  holdsExactly s.cbuf s.clen ∧ (s.phase ≠ .err → holdsExactly s.obuf s.olen)

/-- Bits of `ACC` above the pending ones are zero (10_state.md R26). -/
def pendingOk (s : State) : Prop := s.acc.toNat < 2 ^ s.accn.toNat

/-- `ERRCODE` is non-zero exactly when `ERR = 1`, and without an error all three registers are 0 (10_state.md R41, R42). -/
def errorsOk (s : State) : Prop :=
  (s.errcode ≠ 0 ↔ s.phase = .err) ∧ (s.phase ≠ .err → s.errval = 0 ∧ s.erridx = 0)

/-- The phases of `COMPRESS` (60_exceptions.md R226). -/
def compressing : Phase → Bool
  | .encRun | .encFlush | .packRun | .packPad => true
  | .idle | .unpackRun | .decFirst | .decRun | .done | .err => false

/-- The phases of `DECOMPRESS` (60_exceptions.md R226). -/
def decompressing : Phase → Bool
  | .unpackRun | .decFirst | .decRun => true
  | .idle | .encRun | .encFlush | .packRun | .packPad | .done | .err => false

/-- Every emitted code is a literal or a phrase code, below the count of its number, so that it fits its width
(41_encoder.md R146 (b), 30_encoding.md R92). -/
def codesFit (s : State) : Prop :=
  ∀ j k, Memory.read s.cbuf j = some k →
    (k.toNat < Config.nLit ∨ Config.firstFree ≤ k.toNat) ∧ k.toNat < codeCount (j + 1)

/-- The (prefix, byte) pairs of `DICT` are pairwise different (10_state.md R51 (c)). -/
def entriesDistinct (s : State) : Prop :=
  ∀ k l e, Memory.read s.dict k = some e → Memory.read s.dict l = some e → k = l

/-- The registers the packer starts from (10_state.md R25, R26). -/
def packerFresh (s : State) : Prop :=
  s.pcnt.toNat = Config.firstFree ∧ s.acc = 0 ∧ s.accn = 0 ∧ s.olen = 0

/-- What holds in each phase: the cursors (10_state.md R32), `NEXT` against the number of codes (41_encoder.md R146 (a),
42_decoder.md R159), the packer's and the unpacker's position against the bit total (43_bit_packer.md R187). -/
def phaseOk (s : State) : Prop :=
  match s.phase with
  | .idle => s.olen = 0
  | .encRun =>
    s.ipos ≤ s.ilen ∧ (s.wv = true ↔ 0 < s.ipos) ∧ s.clen + s.wv.toNat ≤ s.ipos ∧
      s.next.toNat = codeCount (s.clen + 1) ∧ packerFresh s ∧ codesFit s ∧ entriesDistinct s
  | .encFlush =>
    s.ipos = s.ilen ∧ (s.wv = true ↔ 0 < s.ipos) ∧ s.clen + s.wv.toNat ≤ s.ipos ∧
      s.next.toNat = codeCount (s.clen + 1) ∧ packerFresh s ∧ codesFit s ∧ entriesDistinct s
  | .packRun =>
    s.cpos ≤ s.clen ∧ s.clen ≤ s.ilen ∧ s.pcnt.toNat = codeCount (s.cpos + 1) ∧
      8 * s.olen + s.accn.toNat = bitTotal s.cpos ∧ codesFit s ∧ entriesDistinct s
  | .packPad =>
    s.cpos = s.clen ∧ s.clen ≤ s.ilen ∧ 8 * s.olen + s.accn.toNat = bitTotal s.cpos ∧ codesFit s ∧ entriesDistinct s
  | .unpackRun =>
    s.cpos = 0 ∧ s.pv = false ∧ s.olen = 0 ∧ s.next.toNat = Config.firstFree ∧
      s.upos = bitTotal s.clen ∧ s.upos ≤ 8 * s.ilen ∧ s.ucnt.toNat = codeCount (s.clen + 1)
  | .decFirst =>
    s.cpos = 0 ∧ s.pv = false ∧ s.olen = 0 ∧ s.next.toNat = Config.firstFree ∧ bitTotal s.clen ≤ 8 * s.ilen
  | .decRun =>
    1 ≤ s.cpos ∧ s.cpos ≤ s.clen ∧ s.pv = true ∧ s.next.toNat = codeCount s.cpos ∧ bitTotal s.clen ≤ 8 * s.ilen
  | .done => True
  | .err => s.olen = 0

/-- The invariant of the machine. -/
structure Inv (s : State) : Prop where
  memories : memoriesCanonical s
  counters : countersOk s
  dict : dictOk s
  prefixes : prefixesOk s
  buffers : buffersOk s
  pending : pendingOk s
  errors : errorsOk s
  phase : phaseOk s

/-- Every byte of the input has been written (10_state.md R46, R58). -/
def inputLoaded (s : State) : Prop := ∀ i, i < s.ilen → (Memory.read s.ibuf i).isSome = true

/-- The input of a command is the byte sequence `bs`. -/
def inputIs (s : State) (bs : List Byte) : Prop :=
  s.ilen = bs.length ∧ ∀ i, i < bs.length → Memory.read s.ibuf i = bs[i]?

/-- The result of a command that ended in `DONE` is the byte sequence `bs` (44_codec_commands.md R211). -/
def resultIs (s : State) (bs : List Byte) : Prop :=
  s.phase = .done ∧ s.olen = bs.length ∧ ∀ i, i < bs.length → Memory.read s.obuf i = bs[i]?

/-- How many core steps a busy block still takes at most, for the termination rule (44_codec_commands.md R207). -/
def stepsLeft (s : State) : Nat :=
  match s.phase with
  | .encRun => 2 * (s.ilen - s.ipos) + s.clen + s.wv.toNat + 4
  | .encFlush => s.clen + s.wv.toNat + 3
  | .packRun => s.clen - s.cpos + 2
  | .packPad => 1
  | .unpackRun => 2 * (8 * s.ilen - s.upos) + s.clen + 3
  | .decFirst => s.clen + 2
  | .decRun => s.clen - s.cpos + 1
  | .idle | .done | .err => 0

/-- The outcome of the one comparison of the row of `PHASE`; a phase of one row has none (10_state.md R31,
44_codec_commands.md R198). -/
def rowComparison (s : State) : Bool :=
  match s.phase with
  | .encRun => decide (s.ipos < s.ilen)
  | .packRun | .decRun => decide (s.cpos < s.clen)
  | .unpackRun => decide (s.upos + s.uwidth.toNat ≤ 8 * s.ilen)
  | .idle | .encFlush | .packPad | .decFirst | .done | .err => true

/-! ### How claims say what moved -/

/-- The memory `m'` reads as `m` with the elements `xs` from index `n` on: every other index reads as before
(00_scope.md R14, `Append` and `AppendAll`). -/
def appended {α : Type} (m m' : Memory α) (n : Nat) (xs : List α) : Prop :=
  ∀ i, Memory.read m' i = if n ≤ i ∧ i < n + xs.length then xs[i - n]? else Memory.read m i

/-- The threshold arithmetic, on numbers: from `(cnt, width)` to `(cnt', width')` (43_bit_packer.md R176). -/
def advanced (cnt : Count) (width : Width) (cnt' : Count) (width' : Width) : Prop :=
  (cnt.toNat < 65536 → cnt'.toNat = cnt.toNat + 1 ∧
    width'.toNat = if cnt.toNat + 1 = 2 ^ width.toNat ∧ width.toNat < 16 then width.toNat + 1 else width.toNat) ∧
  (65536 ≤ cnt.toNat → cnt' = cnt ∧ width' = width)

/-- From `s` to `t` the entry `(p, c)` was inserted, or nothing was because the dictionary is full
(40_dictionary_engine.md R122). -/
def inserted (p : Code) (c : Byte) (s t : State) : Prop :=
  (∀ k, Memory.read t.dict k = if k = s.next.toNat ∧ s.next.toNat < 65536 then some ⟨p, c⟩ else Memory.read s.dict k) ∧
  advanced s.next s.width t.next t.width

/-- The entry of the error into `s` (60_exceptions.md R222): five writes. -/
def withDesync (sub : BitVec 2) (val : Code) (idx : Nat) (s : State) : State :=
  { s with errcode := sub, errval := val, erridx := idx, olen := 0, phase := .err }

end Sys2Proof.Machine
end

