-- ==== Sys2Proof/Certificates/Slice0/Obligations.lean ====
section
/-! DEFINITION. The statements for the provers. No statement speaks of what `OBUF` holds after an error
(93_implementation_defined.md U3): where an instruction takes the error entry, its `obuf` is left open. -/

section

open Sys2Proof Sys2Proof.Machine

/-! ### Encodings -/

/-- Words written out from 30_encoding.md R91, R100, R104, R106 decode to what they stand for, the code words at their bit
position in a byte sequence (R94, the bytes of 95_test_vectors.md V3); the rest is rejected by name. That a `PHASE` value
from 10 on is rejected as one never taken is log entry 13. -/
def Obligations.SampleWordsDecode : Prop :=
  Sys2Proof.decode 258 (.command 0b00) = .instr .nop ∧
  Sys2Proof.decode 258 (.command 0b01) = .instr .compress ∧
  Sys2Proof.decode 258 (.command 0b10) = .instr .decompress ∧
  Sys2Proof.decode 258 (.command 0b11) = .instr .cmdReserved ∧
  Sys2Proof.decode 258 (.selector 1 true) = .instr .encStep ∧
  Sys2Proof.decode 258 (.selector 1 false) = .instr .encEoi ∧
  Sys2Proof.decode 258 (.selector 5 false) = .instr .unpackStop ∧
  Sys2Proof.decode 258 (.selector 8 true) = .reject (.phaseWithoutStep 8) ∧
  Sys2Proof.decode 258 (.selector 12 true) = .reject (.phaseNeverTaken 12) ∧
  decodeBytes [0x20, 0xC0, 0x80] 0 9 = .instr (.cw9 65) ∧
  decodeBytes [0x20, 0xC0, 0x80] 9 9 = .instr (.cw9 258) ∧
  decodeBytes [0x20, 0xC0, 0x80] 18 9 = .reject (.truncated 18 9) ∧
  Sys2Proof.decode 258 (.codeWord 10 1024) = .reject (.bitsTooWide 10 1024) ∧
  Sys2Proof.decode 258 (.codeWord 17 0) = .reject (.widthOutOfRange 17) ∧
  Sys2Proof.decode 258 (.code 0x0041) = .instr (.lit 0x41) ∧
  Sys2Proof.decode 258 (.code 0x0101) = .instr (.rsv 1) ∧
  Sys2Proof.decode 260 (.code 0x0103) = .instr (.phr 259) ∧
  Sys2Proof.decode 260 (.code 0x0104) = .instr (.kwk 260) ∧
  Sys2Proof.decode 260 (.code 0x0105) = .instr (.bad 261)

/-- Decode and encode agree: every well-formed instruction that has an encoded object and meets its row's condition on
`NEXT` is read back from that object, at every operand. -/
def Obligations.DecodeOfEncode : Prop :=
  ∀ (next : Count) (i : Instr) (e : Encoded),
    i.wellFormed = true → i.agreesWithNext next = true → Sys2Proof.encode i = some e →
      Sys2Proof.decode next e = .instr i

/-- A code word of any width, put as bits behind any bits and before any bits and cut into bytes most significant bit first,
is read back at its bit position: no alignment (30_encoding.md R93, R94; 20_memory.md R60, R61, R64). -/
def Obligations.CodeWordReadBackAtAnyBit : Prop :=
  ∀ (i : Instr) (w v : Nat) (pre post : List Bool), Sys2Proof.encode i = some (.codeWord w v) →
    decodeBytes (packBits (pre ++ encodeBits (.codeWord w v) ++ post)) pre.length w = .instr i

/-- The class of a code against `NEXT`; no code is `KWK` or `BAD` once `NEXT = 65536` (30_encoding.md R100). -/
def Obligations.CodeClassByNext : Prop :=
  ∀ (next : Count) (k : Code), 258 ≤ next.toNat →
    (k.toNat ≤ 255 → ∃ c, Sys2Proof.decode next (.code k) = .instr (.lit c) ∧ c.toNat = k.toNat) ∧
    (k = 256 → Sys2Proof.decode next (.code k) = .instr (.rsv 0)) ∧
    (k = 257 → Sys2Proof.decode next (.code k) = .instr (.rsv 1)) ∧
    (258 ≤ k.toNat → k.toNat < next.toNat → Sys2Proof.decode next (.code k) = .instr (.phr k)) ∧
    (k.toNat = next.toNat → next.toNat ≤ 65535 ∧ Sys2Proof.decode next (.code k) = .instr (.kwk k)) ∧
    (next.toNat < k.toNat → next.toNat ≤ 65535 ∧ Sys2Proof.decode next (.code k) = .instr (.bad k))

/-- The table of 30_encoding.md R98: width, count and bits before the first code of each width; and R107: the compressed
buffer of `n` codes has `ceil(B(n) / 8)` bytes. -/
def Obligations.WidthScheduleAndBitTotals : Prop :=
  (∀ i, 1 ≤ i →
    (i ≤ 254 → codeWidth i = 9) ∧
    (255 ≤ i → i ≤ 766 → codeWidth i = 10) ∧
    (767 ≤ i → i ≤ 1790 → codeWidth i = 11) ∧
    (1791 ≤ i → i ≤ 3838 → codeWidth i = 12) ∧
    (3839 ≤ i → i ≤ 7934 → codeWidth i = 13) ∧
    (7935 ≤ i → i ≤ 16126 → codeWidth i = 14) ∧
    (16127 ≤ i → i ≤ 32510 → codeWidth i = 15) ∧
    (32511 ≤ i → codeWidth i = 16) ∧
    (i ≤ 65279 → codeCount i = 257 + i) ∧
    (65279 ≤ i → codeCount i = 65536)) ∧
  bitTotal 0 = 0 ∧ bitTotal 254 = 2286 ∧ bitTotal 766 = 7406 ∧ bitTotal 1790 = 18670 ∧ bitTotal 3838 = 43246 ∧
  bitTotal 7934 = 96494 ∧ bitTotal 16126 = 211182 ∧ bitTotal 32510 = 456942 ∧
  (∀ (ks : List Code) (out : List Byte), Functional.pack ks = some out → out.length = (bitTotal ks.length + 7) / 8) ∧
  ∀ n,
    (n ≤ 254 → bitTotal n = 9 * n) ∧
    (254 ≤ n → n ≤ 766 → bitTotal n = 2286 + 10 * (n - 254)) ∧
    (766 ≤ n → n ≤ 1790 → bitTotal n = 7406 + 11 * (n - 766)) ∧
    (1790 ≤ n → n ≤ 3838 → bitTotal n = 18670 + 12 * (n - 1790)) ∧
    (3838 ≤ n → n ≤ 7934 → bitTotal n = 43246 + 13 * (n - 3838)) ∧
    (7934 ≤ n → n ≤ 16126 → bitTotal n = 96494 + 14 * (n - 7934)) ∧
    (16126 ≤ n → n ≤ 32510 → bitTotal n = 211182 + 15 * (n - 16126)) ∧
    (32510 ≤ n → bitTotal n = 456942 + 16 * (n - 32510))

/-- `SCHED(cnt, width)` answers the advanced pair and changes nothing; from `(258, 9)` the pair before code number `i` is
`(cnt(i), width(i))` (43_bit_packer.md R176, 30_encoding.md R97). `SCHED` run on its own, its answer in the model's own
field `ret`, is the model's choice (log entry 9; 30_encoding.md R109). -/
def Obligations.ScheduleAdvances : Prop :=
  (∀ (s : State) (cnt : Count) (width : Width), ∃ cnt' width',
    exec (.sched cnt width) s = .next { s with ret := .pair cnt' width' } ∧ advanced cnt width cnt' width') ∧
  ∀ i, 1 ≤ i →
    (((fun p : Count × Width => schedule p.1 p.2)^[i - 1]) (258, 9)).1.toNat = min (257 + i) 65536 ∧
    (((fun p : Count × Width => schedule p.1 p.2)^[i - 1]) (258, 9)).2.toNat =
      if min (257 + i) 65536 < 512 then 9 else min 16 (Nat.log2 (min (257 + i) 65536) + 1)

/-! ### Reset and commands -/

/-- 10_state.md R57: every element after power-on reset and after each command start, `CFG` and the hardwired literals among
them. The command starts answer a next state wherever `BUSY = 0`. -/
def Obligations.ResetAndStartValues : Prop :=
  (let r := State.reset
   r.phase = .idle ∧ r.next = 258 ∧ r.width = 9 ∧ (∀ k, Memory.read r.dict k = none) ∧ r.wv = false ∧ r.wcode = none ∧
   r.pv = false ∧ r.pcode = none ∧ r.pcnt = 258 ∧ r.pwidth = 9 ∧ r.acc = 0 ∧ r.accn = 0 ∧ r.ucnt = 258 ∧ r.uwidth = 9 ∧
   r.upos = 0 ∧ r.ipos = 0 ∧ r.cpos = 0 ∧ r.clen = 0 ∧ (∀ i, Memory.read r.cbuf i = none) ∧ r.olen = 0 ∧
   (∀ i, Memory.read r.obuf i = none) ∧ r.ilen = 0 ∧ (∀ i, Memory.read r.ibuf i = none) ∧ r.errcode = 0 ∧ r.errval = 0 ∧
   r.erridx = 0) ∧
  cfgWord = 0x209 ∧ (∀ (s : State) (c : Byte), phrase s (c.setWidth 16) = some [c]) ∧
  ∀ s : State, busy s = false →
    let u : State := { s with
      next := 258, width := 9, dict := [], wv := false, wcode := none, pv := false, pcode := none
      pcnt := 258, pwidth := 9, acc := 0, accn := 0, ucnt := 258, uwidth := 9, upos := 0, ipos := 0, cpos := 0
      clen := 0, cbuf := [], olen := 0, obuf := [], errcode := 0, errval := 0, erridx := 0 }
    exec .compress s = .next { u with phase := .encRun } ∧ exec .decompress s = .next { u with phase := .unpackRun }

/-- `NOP`: no state changes, as an instruction and as the step of a host that writes `0b00` (44_codec_commands.md R197).
The step of the second clause, a move of the host's list with the value cut to two bits, is the model's choice (log entry
1). -/
def Obligations.NopChangesNothing : Prop :=
  (∀ s, exec .nop s = .next s) ∧
  ∀ (s : State) (rest : List HostMove) (v : Nat), s.host = .writeReg .cmd v :: rest → v % 4 = 0 →
    step s = .next { s with host := rest }

/-- A write of `0b11` changes nothing, "The hardware treats the write as NOP" (30_encoding.md R105). That the model takes
the write at all, where the spec advises to give the host no such move, is log entry 5. -/
def Obligations.ReservedCommandChangesNothing : Prop :=
  ∀ s, exec .cmdReserved s = .next s

/-- Host writes while `BUSY = 1` have no effect: `CMD` with any value, `ILEN`, `IBUF` (44_codec_commands.md R210). That the
model has these moves at all, where R210 advises a model to have none, is its choice (log entry 17, and log entry 5 for
`0b11`); the host's list is log entry 1. -/
def Obligations.HostWritesWhileBusyIgnored : Prop :=
  ∀ s : State, busy s = true →
    exec .nop s = .next s ∧ exec .compress s = .next s ∧ exec .decompress s = .next s ∧ exec .cmdReserved s = .next s ∧
    (∀ rest v, s.host = .writeReg .cmd v :: rest → step s = .next { s with host := rest }) ∧
    (∀ rest v, s.host = .writeReg .ilen v :: rest → step s = .next { s with host := rest }) ∧
    ∀ rest i b, s.host = .writeIbuf i b :: rest → step s = .next { s with host := rest }

/-- Nothing of an earlier command survives a command start but `ILEN` and `IBUF` (10_state.md R59, 70_reset_and_hazards.md
R246; the last four hypotheses are the model's own fields). -/
def Obligations.StartForgetsEarlierCommand : Prop :=
  ∀ s s' : State, busy s = false → busy s' = false → s.ilen = s'.ilen → s.ibuf = s'.ibuf →
    s.host = s'.host → s.readData = s'.readData → s.ret = s'.ret → s.fresh = s'.fresh →
    exec .compress s = exec .compress s' ∧ exec .decompress s = exec .decompress s'

/-! ### The step runs what was decoded -/

/-- A command word the host writes is decoded and run (log entry 1 for the host's list). -/
def Obligations.StepRunsTheWrittenCommand : Prop :=
  ∀ (s : State) (rest : List HostMove) (v : Nat) (next : Count) (i : Instr),
    s.host = .writeReg .cmd v :: rest → Sys2Proof.decode next (.command (BitVec.ofNat 2 v)) = .instr i →
      step s = exec i { s with host := rest }

/-- Where the host makes no move, the step that `PHASE` and its comparison select is what `PHASE` with the outcome of that
comparison decodes to (10_state.md R31), and is run; a host that passes its turn or polls while `BUSY = 1` leaves the turn
to the core (log entry 1). -/
def Obligations.StepRunsTheSelectedStep : Prop :=
  ∀ (s : State) (i : Instr), selectStep s = some i →
    (∀ next, Sys2Proof.decode next (.selector (BitVec.ofNat 4 (phaseNumber s.phase)) (rowComparison s)) = .instr i) ∧
    (s.host = [] → step s = exec i s) ∧
    (∀ rest, s.host = .poll :: rest → step s = exec i s) ∧
    ∀ rest, s.host = .pass :: rest → step s = exec i { s with host := rest }

/-- The code word under the unpacker, and the one the packer writes, decode to an instruction, and the step is that
instruction (log entry 7). -/
def Obligations.StepRunsTheDecodedCodeWord : Prop :=
  ∀ (s : State) (w v : Nat) (next : Count) (i : Instr), s.host = [] →
    Sys2Proof.decode next (.codeWord w v) = .instr i →
      (s.phase = .unpackRun → s.upos + w ≤ 8 * s.ilen → s.uwidth.toNat = w → inputCode s = some v →
        step s = exec i s) ∧
      (s.phase = .packRun → s.cpos < s.clen → s.pwidth.toNat = w → (codeAt s s.cpos).map BitVec.toNat = some v →
        step s = exec i s)

/-- The code the decoder takes is classified against `NEXT`, and the step is the class's instruction (log entry 8). -/
def Obligations.StepRunsTheDecodedClass : Prop :=
  ∀ (s : State) (k : Code) (i : Instr), s.host = [] → Sys2Proof.decode s.next (.code k) = .instr i →
    (s.phase = .decFirst → 0 < s.clen → codeAt s 0 = some k → step s = exec i s) ∧
    (s.phase = .decRun → s.cpos < s.clen → codeAt s s.cpos = some k → step s = exec i s)

/-! ### The sequencer -/

/-- The whole table of 44_codec_commands.md R198: the selected step, and `PHASE` after it. -/
def Obligations.SequencerTable : Prop :=
  (∀ s : State, busy s = true ↔ ∃ i, selectStep s = some i) ∧
  (∀ s : State, s.phase = .idle ∨ s.phase = .done ∨ s.phase = .err ↔ selectStep s = none) ∧
  ∀ s : State,
    (s.phase = .encRun → s.ipos < s.ilen → selectStep s = some .encStep ∧
      ∀ t, exec .encStep s = .next t → t.phase = .encRun) ∧
    (s.phase = .encRun → s.ipos = s.ilen → selectStep s = some .encEoi ∧
      ∀ t, exec .encEoi s = .next t → t.phase = .encFlush) ∧
    (s.phase = .encFlush → selectStep s = some .encFlush ∧
      ∀ t, exec .encFlush s = .next t → t.phase = .packRun) ∧
    (s.phase = .packRun → s.cpos < s.clen → selectStep s = some .packPut ∧
      ∀ t, exec .packPut s = .next t → t.phase = .packRun) ∧
    (s.phase = .packRun → s.cpos = s.clen → selectStep s = some .packEoc ∧
      ∀ t, exec .packEoc s = .next t → t.phase = .packPad) ∧
    (s.phase = .packPad → selectStep s = some .packPad ∧
      ∀ t, exec .packPad s = .next t → t.phase = .done) ∧
    (s.phase = .unpackRun → s.upos + s.uwidth.toNat ≤ 8 * s.ilen → selectStep s = some .unpackGet ∧
      ∀ t, exec .unpackGet s = .next t → t.phase = .unpackRun) ∧
    (s.phase = .unpackRun → 8 * s.ilen < s.upos + s.uwidth.toNat → selectStep s = some .unpackStop ∧
      ∀ t, exec .unpackStop s = .next t → t.phase = .decFirst) ∧
    (s.phase = .decFirst → selectStep s = some .decFirst ∧
      (s.clen = 0 → ∀ t, exec .decFirst s = .next t → t.phase = .done) ∧
      ∀ k, 0 < s.clen → codeAt s 0 = some k → ∀ t, exec .decFirst s = .next t →
        t.phase = if k.toNat < 256 then .decRun else .err) ∧
    (s.phase = .decRun → s.cpos < s.clen → selectStep s = some .decNext ∧
      ∀ k, codeAt s s.cpos = some k → 258 ≤ s.next.toNat → ∀ t, exec .decNext s = .next t →
        t.phase = if k = 256 ∨ k = 257 ∨ s.next.toNat < k.toNat then .err else .decRun) ∧
    (s.phase = .decRun → s.cpos = s.clen → selectStep s = some .decEnd ∧
      ∀ t, exec .decEnd s = .next t → t.phase = .done)

/-- The end of a run persists: with nobody to move the state stays as it is (log entry 2: such a step answers the same
state), and a step out of `DONE` or `ERR` is the host's write of `COMPRESS` or `DECOMPRESS`; any other step leaves the
result alone (44_codec_commands.md R211). -/
def Obligations.EndOfRunPersists : Prop :=
  (∀ s : State, busy s = false → s.host = [] → step s = .next s) ∧
  ∀ s t : State, s.phase = .done ∨ s.phase = .err → step s = .next t →
    (∃ v rest, s.host = .writeReg .cmd v :: rest ∧ (v % 4 = 1 ∨ v % 4 = 2)) ∨
    (t.phase = s.phase ∧ t.olen = s.olen ∧ (s.phase = .done → t.obuf = s.obuf) ∧ t.errcode = s.errcode ∧
      t.errval = s.errval ∧ t.erridx = s.erridx)

/-! ### The host -/

/-- Host writes while `BUSY = 0`: the byte changes and no other, `ILEN` changes (44_codec_commands.md R209); and in every
state a read-only register, `STATUS`, `OLEN`, `ERRCODE`, `ERRVAL`, `ERRIDX` or `CFG`, ignores the write (10_state.md R36,
93_implementation_defined.md U11; log entry 17). -/
def Obligations.HostWritesWhileIdle : Prop :=
  (∀ (s : State) (rest : List HostMove), busy s = false →
    (∀ i b, s.host = .writeIbuf i b :: rest → ∃ t, step s = .next t ∧ t = { s with host := rest, ibuf := t.ibuf } ∧
      ∀ a, Memory.read t.ibuf a = if a = i then some b else Memory.read s.ibuf a) ∧
    ∀ v, s.host = .writeReg .ilen v :: rest → step s = .next { s with host := rest, ilen := v }) ∧
  ∀ (s : State) (rest : List HostMove) (r : HostReg) (v : Nat),
    s.host = .writeReg r v :: rest → r ≠ .cmd → r ≠ .ilen → step s = .next { s with host := rest }

/-- `STATUS`: bit 0 `BUSY`, bit 1 `DONE`, bit 2 `ERR`, the others zero, no side effect on a read; 0 exactly in `IDLE`
(10_state.md R38, R33). `CFG` reads 0x209 and ignores writes (R43). What the read returned stands in the model's own field
`readData` (log entry 2), and a write of `STATUS`, which is ignored (93_implementation_defined.md U11), is a move of the
model by its choice (log entry 17). -/
def Obligations.StatusAndCfgRead : Prop :=
  (∀ (s : State) (rest : List HostMove),
    (∀ v, s.host = .writeReg .status v :: rest → step s = .next { s with host := rest }) ∧
    (s.host = .readReg .status :: rest → ∃ n,
      step s = .next { s with host := rest, readData := some n } ∧
      n.testBit 0 = decide (1 ≤ phaseNumber s.phase ∧ phaseNumber s.phase ≤ 7) ∧
      n.testBit 1 = decide (s.phase = .done) ∧ n.testBit 2 = decide (s.phase = .err) ∧
      (n = 0x00 ∨ n = 0x01 ∨ n = 0x02 ∨ n = 0x04) ∧ (n = 0x00 ↔ s.phase = .idle))) ∧
  (cfgWord.extractLsb' 0 5 = 9 ∧ cfgWord.extractLsb' 5 5 = 16 ∧ cfgWord = 0x209 ∧ Config.cap = 2 ^ Config.maxWidth ∧
    Config.firstFree = 258) ∧
  ∀ (s : State) (rest : List HostMove),
    (s.host = .readReg .cfg :: rest → step s = .next { s with host := rest, readData := some 0x209 }) ∧
    ∀ v, s.host = .writeReg .cfg v :: rest → step s = .next { s with host := rest }

/-- The other reads. `CMD` reads 0, `ILEN` always its value, the results while `BUSY = 0`, a byte of `OBUF` below `OLEN` when
`DONE = 1`, and the poll that ends (10_state.md R37, R39 to R42, R47; 44_codec_commands.md R209). The reads whose value the
spec leaves open change nothing but what the host was given, which nothing constrains (93_implementation_defined.md U3, U4;
log entry 12). -/
def Obligations.HostReads : Prop :=
  (∀ (s : State) (rest : List HostMove),
    (s.host = .readReg .cmd :: rest → step s = .next { s with host := rest, readData := some 0 }) ∧
    (s.host = .readReg .ilen :: rest → step s = .next { s with host := rest, readData := some s.ilen }) ∧
    (busy s = false →
      (s.host = .readReg .olen :: rest → step s = .next { s with host := rest, readData := some s.olen }) ∧
      (s.host = .readReg .errcode :: rest →
        step s = .next { s with host := rest, readData := some s.errcode.toNat }) ∧
      (s.host = .readReg .errval :: rest → step s = .next { s with host := rest, readData := some s.errval.toNat }) ∧
      (s.host = .readReg .erridx :: rest → step s = .next { s with host := rest, readData := some s.erridx }) ∧
      (s.host = .poll :: rest →
        step s = .next { s with host := rest, readData := some (statusWord s).toNat })) ∧
    ∀ i b, s.host = .readObuf i :: rest → s.phase = .done → i < s.olen → Memory.read s.obuf i = some b →
      step s = .next { s with host := rest, readData := some b.toNat }) ∧
  ∀ (s : State) (rest : List HostMove),
    (busy s = true → ∀ r, s.host = .readReg r :: rest → r = .olen ∨ r = .errcode ∨ r = .errval ∨ r = .erridx →
      ∃ v, step s = .next { s with host := rest, readData := some v, fresh := s.fresh + 1 }) ∧
    ∀ i, s.host = .readObuf i :: rest → s.phase ≠ .done ∨ s.olen ≤ i →
      ∃ v, step s = .next { s with host := rest, readData := some v, fresh := s.fresh + 1 }

/-- The host's sequence for one command (70_reset_and_hazards.md R248) loads the input and starts the command: after the
writes the input is `bs`, the command has started, and the host polls. -/
def Obligations.ScriptLoadsInputAndStarts : Prop :=
  ∀ (s : State) (bs : List Byte) (rest : List HostMove) (cmd : Nat), busy s = false → cmd = 1 ∨ cmd = 2 →
    s.host = commandScript cmd bs ++ rest →
    ∃ t u, Sys2Proof.core.run (bs.length + 2) s = .next t ∧ inputIs t bs ∧ t.host = .poll :: rest ∧
      u = { s with ibuf := t.ibuf, ilen := bs.length, host := .poll :: rest } ∧
      exec (if cmd = 1 then .compress else .decompress) u = .next t ∧ busy t = true

/-! ### The encoder -/

/-- `ENC_STEP` (41_encoder.md R141): the first byte, a hit, a miss. The hit holds where the entries are pairwise different,
which every `COMPRESS` keeps (10_state.md R51 (c)). -/
def Obligations.EncodeStepTakesOneByte : Prop :=
  ∀ (s : State) (c : Byte), s.phase = .encRun → s.ipos < s.ilen → Memory.read s.ibuf s.ipos = some c →
    (s.wv = false →
      exec .encStep s = .next { s with wv := true, wcode := some (c.setWidth 16), ipos := s.ipos + 1 }) ∧
    ∀ w, s.wv = true → s.wcode = some w → Memory.wf s.dict → s.next.toNat ≤ 65536 →
      (∀ k : Code, entriesDistinct s → dictEntry s k.toNat = some ⟨w, c⟩ →
        exec .encStep s = .next { s with wcode := some k, ipos := s.ipos + 1 }) ∧
      ((∀ k, dictEntry s k ≠ some ⟨w, c⟩) → ∃ t, exec .encStep s = .next t ∧
        t = { s with
          cbuf := t.cbuf, clen := s.clen + 1, dict := t.dict, next := t.next, width := t.width
          wcode := some (c.setWidth 16), ipos := s.ipos + 1 } ∧
        appended s.cbuf t.cbuf s.clen [w] ∧ inserted w c s t)

/-- `ENC_EOI` (41_encoder.md R143), and `ENC_FLUSH` (R142): the last prefix is emitted, no insert is made. -/
def Obligations.EncoderEndsAndFlushes : Prop :=
  (∀ s : State, s.phase = .encRun → s.ipos = s.ilen → exec .encEoi s = .next { s with phase := .encFlush }) ∧
  ∀ s : State, s.phase = .encFlush →
    (s.wv = false → exec .encFlush s = .next { s with cpos := 0, phase := .packRun }) ∧
    ∀ w, s.wv = true → s.wcode = some w → ∃ t, exec .encFlush s = .next t ∧
      t = { s with
        cbuf := t.cbuf, clen := s.clen + 1, wv := false, wcode := none, cpos := 0, phase := .packRun } ∧
      appended s.cbuf t.cbuf s.clen [w]

/-! ### The packer and the unpacker -/

/-- `PACK_PUT` (43_bit_packer.md R177), its loop written out: of the `n` bits `ACC`, then the code, one or two whole bytes
go to `OBUF`, most significant first, and the rest stays pending. -/
def Obligations.PackPutWritesOneCode : Prop :=
  ∀ (s : State) (k : Code), s.phase = .packRun → s.cpos < s.clen → Memory.read s.cbuf s.cpos = some k →
    9 ≤ s.pwidth.toNat → s.pwidth.toNat ≤ 16 → k.toNat < 2 ^ s.pwidth.toNat →
    let v := s.acc.toNat * 2 ^ s.pwidth.toNat + k.toNat
    let n := s.accn.toNat + s.pwidth.toNat
    ∃ t, exec .packPut s = .next t ∧
      t = { s with
        obuf := t.obuf, olen := t.olen, acc := t.acc, accn := t.accn, pcnt := t.pcnt, pwidth := t.pwidth
        cpos := s.cpos + 1 } ∧
      (n < 16 → t.olen = s.olen + 1 ∧ t.accn.toNat = n - 8 ∧ t.acc.toNat = v % 2 ^ (n - 8) ∧
        appended s.obuf t.obuf s.olen [BitVec.ofNat 8 (v / 2 ^ (n - 8))]) ∧
      (16 ≤ n → t.olen = s.olen + 2 ∧ t.accn.toNat = n - 16 ∧ t.acc.toNat = v % 2 ^ (n - 16) ∧
        appended s.obuf t.obuf s.olen [BitVec.ofNat 8 (v / 2 ^ (n - 8)), BitVec.ofNat 8 (v / 2 ^ (n - 16))]) ∧
      advanced s.pcnt s.pwidth t.pcnt t.pwidth

/-- `PACK_PUT` refuses a code that does not fit the width, and within `COMPRESS` every code fits (43_bit_packer.md R184). -/
def Obligations.PackRefusesOnlyWideCodes : Prop :=
  (∀ (s : State) (k : Code), s.phase = .packRun → s.cpos < s.clen → Memory.read s.cbuf s.cpos = some k →
    2 ^ s.pwidth.toNat ≤ k.toNat → exec .packPut s = .refused (.codeTooWide k s.pwidth)) ∧
  ∀ (s : State) (k : Code), Inv s → s.phase = .packRun → s.cpos < s.clen → Memory.read s.cbuf s.cpos = some k →
    k.toNat < 2 ^ s.pwidth.toNat

/-- `PACK_EOC` and `PACK_PAD` (43_bit_packer.md R185, R178): a pad byte only where bits are pending, zero bits below
them. -/
def Obligations.PackEndsWithZeroPad : Prop :=
  (∀ s : State, s.phase = .packRun → s.cpos = s.clen → exec .packEoc s = .next { s with phase := .packPad }) ∧
  ∀ s : State, s.phase = .packPad →
    (s.accn = 0 → exec .packPad s = .next { s with phase := .done }) ∧
    (s.accn ≠ 0 → ∃ t, exec .packPad s = .next t ∧
      t = { s with obuf := t.obuf, olen := s.olen + 1, acc := 0, accn := 0, phase := .done } ∧
      appended s.obuf t.obuf s.olen [BitVec.ofNat 8 (s.acc.toNat * 2 ^ (8 - s.accn.toNat))])

/-- `UNPACK_GET` (43_bit_packer.md R180): the value is the sum of the bits at their weights, zero-extended; `UNPACK_STOP`
(R181). -/
def Obligations.UnpackReadsCodesAndStops : Prop :=
  (∀ (s : State) (bit : Nat → Bool), s.phase = .unpackRun → s.upos + s.uwidth.toNat ≤ 8 * s.ilen →
    s.uwidth.toNat ≤ 16 →
    (∀ j, j < s.uwidth.toNat → ∃ b, Memory.read s.ibuf ((s.upos + j) / 8) = some b ∧
      bit j = b.getLsbD (7 - (s.upos + j) % 8)) →
    ∃ t, exec .unpackGet s = .next t ∧
      t = { s with
        cbuf := t.cbuf, clen := s.clen + 1, upos := s.upos + s.uwidth.toNat, ucnt := t.ucnt, uwidth := t.uwidth } ∧
      (∃ k, appended s.cbuf t.cbuf s.clen [k] ∧
        k.toNat = ∑ j ∈ Finset.range s.uwidth.toNat, (bit j).toNat * 2 ^ (s.uwidth.toNat - 1 - j)) ∧
      advanced s.ucnt s.uwidth t.ucnt t.uwidth) ∧
  ∀ s : State, s.phase = .unpackRun → 8 * s.ilen < s.upos + s.uwidth.toNat →
    exec .unpackStop s = .next { s with phase := .decFirst }

/-- The eight code words under the unpacker: `CW9` to `CW16` run as `UNPACK_GET` of that value (30_encoding.md R91, R94;
log entry 7). -/
def Obligations.CodeWordsUnderTheUnpacker : Prop :=
  ∀ (i : Instr) (w v : Nat) (s : State), Sys2Proof.encode i = some (.codeWord w v) → s.phase = .unpackRun →
    s.uwidth.toNat = w → s.upos + w ≤ 8 * s.ilen →
    ∃ t, exec i s = .next t ∧
      t = { s with cbuf := t.cbuf, clen := s.clen + 1, upos := s.upos + w, ucnt := t.ucnt, uwidth := t.uwidth } ∧
      (∃ k, appended s.cbuf t.cbuf s.clen [k] ∧ k.toNat = v) ∧ advanced s.ucnt s.uwidth t.ucnt t.uwidth

/-- The eight code words under the packer: `OBUF`'s bits and the pending bits together grow by exactly the `w` bits of the
word (30_encoding.md R91, R93; log entry 7). -/
def Obligations.CodeWordsUnderThePacker : Prop :=
  ∀ (i : Instr) (w v : Nat) (s : State), Sys2Proof.encode i = some (.codeWord w v) → s.phase = .packRun →
    s.cpos < s.clen → s.pwidth.toNat = w →
    ∃ t out, exec i s = .next t ∧
      t = { s with
        obuf := t.obuf, olen := t.olen, acc := t.acc, accn := t.accn, pcnt := t.pcnt, pwidth := t.pwidth
        cpos := s.cpos + 1 } ∧
      appended s.obuf t.obuf s.olen out ∧ t.olen = s.olen + out.length ∧
      wordBits s.accn.toNat s.acc.toNat ++ encodeBits (.codeWord w v) =
        Functional.bitsOf out ++ wordBits t.accn.toNat t.acc.toNat ∧
      advanced s.pcnt s.pwidth t.pcnt t.pwidth

/-! ### The decoder -/

/-- `DEC_FIRST` without an error (42_decoder.md R156): no codes, or a literal; and `DEC_END` (R158). -/
def Obligations.DecodeFirstAndEnd : Prop :=
  (∀ s : State, s.phase = .decFirst →
    (s.clen = 0 → exec .decFirst s = .next { s with phase := .done }) ∧
    ∀ k, 0 < s.clen → Memory.read s.cbuf 0 = some k → k.toNat < 256 → ∃ t, exec .decFirst s = .next t ∧
      t = { s with
        obuf := t.obuf, olen := s.olen + 1, pcode := some k, pv := true, cpos := 1, phase := .decRun } ∧
      appended s.obuf t.obuf s.olen [k.setWidth 8]) ∧
  ∀ s : State, s.phase = .decRun → s.cpos = s.clen → exec .decEnd s = .next { s with phase := .done }

/-- `DEC_NEXT` without an error (42_decoder.md R157): the entry is appended, the previous phrase and the entry's first byte
are inserted, the entry becomes the previous one. -/
def Obligations.DecodeNextCode : Prop :=
  ∀ (s : State) (k p : Code) (entry : List Byte) (f : Byte), s.phase = .decRun → s.cpos < s.clen →
    Memory.read s.cbuf s.cpos = some k → s.pv = true → s.pcode = some p → k ≠ 256 → k ≠ 257 →
    (k.toNat < s.next.toNat ∧ phrase s k = some entry ∨
      k.toNat = s.next.toNat ∧ ∃ e, phrase s p = some e ∧ e[0]? = some f ∧ entry = e ++ [f]) →
    entry[0]? = some f →
    ∃ t, exec .decNext s = .next t ∧
      t = { s with
        obuf := t.obuf, olen := s.olen + entry.length, dict := t.dict, next := t.next, width := t.width
        pcode := some k, cpos := s.cpos + 1 } ∧
      appended s.obuf t.obuf s.olen entry ∧ inserted p f s t

/-- The `code = NEXT` case: the entry is the phrase of the code the same step inserts (42_decoder.md R157 (a), 40_dictionary_engine.md
R124, 70_reset_and_hazards.md R250). -/
def Obligations.EqualToSizeIsTheNewPhrase : Prop :=
  ∀ (s : State) (k p : Code), Inv s → s.phase = .decRun → s.cpos < s.clen → codeAt s s.cpos = some k →
    k.toNat = s.next.toNat → s.pcode = some p →
    ∃ t e f, exec .decNext s = .next t ∧ phrase s p = some e ∧ e[0]? = some f ∧
      t.next.toNat = s.next.toNat + 1 ∧ t.pcode = some k ∧ phrase t k = some (e ++ [f]) ∧
      t.olen = s.olen + e.length + 1 ∧ appended s.obuf t.obuf s.olen (e ++ [f])

/-- The error, its three causes, and its entry: five writes and nothing else, in place of the step that raised it
(60_exceptions.md R216, R222). -/
def Obligations.DesyncEntry : Prop :=
  (∀ (s : State) (k : Code), s.phase = .decRun → s.cpos < s.clen → Memory.read s.cbuf s.cpos = some k →
    258 ≤ s.next.toNat →
    (s.next.toNat < k.toNat → ∃ t, exec .decNext s = .next t ∧
      t = { withDesync 1 k s.cpos s with obuf := t.obuf }) ∧
    (k = 256 ∨ k = 257 → ∃ t, exec .decNext s = .next t ∧ t = { withDesync 2 k s.cpos s with obuf := t.obuf })) ∧
  ∀ (s : State) (k : Code), s.phase = .decFirst → 0 < s.clen → Memory.read s.cbuf 0 = some k → 256 ≤ k.toNat →
    ∃ t, exec .decFirst s = .next t ∧ t = { withDesync 3 k 0 s with obuf := t.obuf }

/-- The error arises only in `DECOMPRESS`, by a decoder step; `COMPRESS` never fails, and its steps go from phase to phase
of `COMPRESS` (60_exceptions.md R215, 44_codec_commands.md R195). -/
def Obligations.OnlyDecompressRaises : Prop :=
  ∀ s t : State, step s = .next t →
    (t.phase = .err → s.phase ≠ .err → s.phase = .decFirst ∨ s.phase = .decRun) ∧
    (compressing s.phase = true → compressing t.phase = true ∨ t.phase = .done) ∧
    (decompressing s.phase = true → decompressing t.phase = true ∨ t.phase = .done ∨ t.phase = .err)

/-- A code above the reachable size is rejected: at code number `i >= 2` anything above `min(256 + i, 65536)`, as the first
code anything from 256 on (44_codec_commands.md R206). -/
def Obligations.CorruptStreamIsRejected : Prop :=
  ∀ (s : State) (k : Code), Inv s →
    (s.phase = .decRun → s.cpos < s.clen → codeAt s s.cpos = some k → min (256 + (s.cpos + 1)) 65536 < k.toNat →
      ∃ t, exec .decNext s = .next t ∧ t.phase = .err ∧ t.errcode = 1 ∧ t.errval = k ∧ t.erridx = s.cpos ∧
        t.olen = 0) ∧
    (s.phase = .decFirst → 0 < s.clen → codeAt s 0 = some k → 256 ≤ k.toNat →
      ∃ t, exec .decFirst s = .next t ∧ t.phase = .err ∧ t.errcode = 3 ∧ t.errval = k ∧ t.erridx = 0 ∧ t.olen = 0)

/-- The classes that name a phrase: `LIT` as the first code and as a later one, `PHR` and `KWK` as a later one
(30_encoding.md R100; log entry 8). -/
def Obligations.LegalClassesAreDecoded : Prop :=
  (∀ (s : State) (c : Byte), s.phase = .decFirst → 0 < s.clen → ∃ t, exec (.lit c) s = .next t ∧
    t = { s with
      obuf := t.obuf, olen := s.olen + 1, pcode := some (c.setWidth 16), pv := true, cpos := 1, phase := .decRun } ∧
    appended s.obuf t.obuf s.olen [c]) ∧
  ∀ (s : State) (p : Code), s.phase = .decRun → s.cpos < s.clen → s.pv = true → s.pcode = some p →
    258 ≤ s.next.toNat →
    (∀ c, ∃ t, exec (.lit c) s = .next t ∧
      t = { s with
        obuf := t.obuf, olen := s.olen + 1, dict := t.dict, next := t.next, width := t.width
        pcode := some (c.setWidth 16), cpos := s.cpos + 1 } ∧
      appended s.obuf t.obuf s.olen [c] ∧ inserted p c s t) ∧
    (∀ k entry f, 258 ≤ k.toNat → k.toNat < s.next.toNat → phrase s k = some entry → entry[0]? = some f →
      ∃ t, exec (.phr k) s = .next t ∧
        t = { s with
          obuf := t.obuf, olen := s.olen + entry.length, dict := t.dict, next := t.next, width := t.width
          pcode := some k, cpos := s.cpos + 1 } ∧
        appended s.obuf t.obuf s.olen entry ∧ inserted p f s t) ∧
    ∀ k entry f, k.toNat = s.next.toNat → phrase s p = some entry → entry[0]? = some f →
      ∃ t, exec (.kwk k) s = .next t ∧
        t = { s with
          obuf := t.obuf, olen := s.olen + (entry.length + 1), dict := t.dict, next := t.next, width := t.width
          pcode := some k, cpos := s.cpos + 1 } ∧
        appended s.obuf t.obuf s.olen (entry ++ [f]) ∧ inserted p f s t

/-- The classes that name no phrase take the error entry: `RSV` with sub-code 2 and `BAD` with sub-code 1 as a later code;
as the first code everything but a literal with sub-code 3 (30_encoding.md R100, R102, R103; log entry 8). -/
def Obligations.IllegalClassesRaise : Prop :=
  (∀ s : State, s.phase = .decRun → s.cpos < s.clen → 258 ≤ s.next.toNat →
    (∀ r : BitVec 1, ∃ t, exec (.rsv r) s = .next t ∧
      t = { withDesync 2 (256#16 + r.setWidth 16) s.cpos s with obuf := t.obuf }) ∧
    ∀ k : Code, s.next.toNat < k.toNat → ∃ t, exec (.bad k) s = .next t ∧
      t = { withDesync 1 k s.cpos s with obuf := t.obuf }) ∧
  ∀ (s : State) (i : Instr) (k : Code), s.phase = .decFirst → 0 < s.clen → 256 ≤ k.toNat →
    Sys2Proof.decode s.next (.code k) = .instr i →
    ∃ t, exec i s = .next t ∧ t = { withDesync 3 k 0 s with obuf := t.obuf }

/-! ### The Dictionary Engine -/

/-- `DE.RESET` (40_dictionary_engine.md R120): the phrase entries lose their value, and `FROZEN` is 0. -/
def Obligations.EngineResets : Prop :=
  ∀ s : State, ∃ t, exec .deReset s = .next t ∧ t = { s with next := 258, width := 9, dict := t.dict } ∧
    (∀ k, Memory.read t.dict k = none) ∧ frozen t = false ∧ phrase t 65 = some [0x41] ∧ phrase t 258 = none

/-- `DE.LOOKUP(p, c)` (40_dictionary_engine.md R121): a single byte is its own code; a pair is found where it stands, or
not; nothing is written but the answer (log entry 9). The found code is unique where the entries are (10_state.md R51 (c)). -/
def Obligations.EngineLooksUp : Prop :=
  ∀ (s : State) (c : Byte),
    exec (.deLookup none c) s = .next { s with ret := .code (some (c.setWidth 16)) } ∧
    ∀ p, Memory.wf s.dict → s.next.toNat ≤ 65536 →
      (∀ k : Code, entriesDistinct s → 258 ≤ k.toNat → k.toNat < s.next.toNat →
        Memory.read s.dict k.toNat = some ⟨p, c⟩ → exec (.deLookup (some p) c) s = .next { s with ret := .code (some k) }) ∧
      ((∀ k, 258 ≤ k → k < s.next.toNat → Memory.read s.dict k ≠ some ⟨p, c⟩) →
        exec (.deLookup (some p) c) s = .next { s with ret := .code none })

/-- `DE.INSERT(p, c)` and `DE.GROW(p, f)` are one operation (40_dictionary_engine.md R122, R123, R125): the entry at `NEXT`,
`NEXT` one up, the width one up exactly at the threshold; at the cap nothing at all. That they run on their own is the
model's choice (log entry 9), and so is that they take any prefix operand, reserved or not below `NEXT` too (log entry
20). -/
def Obligations.EngineInserts : Prop :=
  ∀ (s : State) (p : Code) (c : Byte),
    exec (.deGrow p c) s = exec (.deInsert p c) s ∧
    ∃ t, exec (.deInsert p c) s = .next t ∧ t = { s with dict := t.dict, next := t.next, width := t.width } ∧
      inserted p c s t

/-- `DE.RESOLVE(k)` (40_dictionary_engine.md R124): the four cases. The answer stands in `ret` (log entry 9). -/
def Obligations.EngineResolves : Prop :=
  ∀ (s : State) (k : Code) (idx : Nat), 258 ≤ s.next.toNat →
    (s.next.toNat < k.toNat → ∃ t, exec (.deResolve k idx) s = .next t ∧
      t = { withDesync 1 k idx s with obuf := t.obuf }) ∧
    (k = 256 ∨ k = 257 → ∃ t, exec (.deResolve k idx) s = .next t ∧
      t = { withDesync 2 k idx s with obuf := t.obuf }) ∧
    (∀ p e f, k.toNat = s.next.toNat → s.pv = true → s.pcode = some p → phrase s p = some e → e[0]? = some f →
      exec (.deResolve k idx) s = .next { s with ret := .entry (e ++ [f]) f }) ∧
    ∀ e f, k.toNat < s.next.toNat → k ≠ 256 → k ≠ 257 → phrase s k = some e → e[0]? = some f →
      exec (.deResolve k idx) s = .next { s with ret := .entry e f }

/-- `phrase`, `first` and `plen` are the recursion of 10_state.md R50 on every table in order, and undefined on the reserved
codes and from `NEXT` on; a phrase code `k` has at most `k - 256` bytes (R51 (d)). -/
def Obligations.PhraseRecursion : Prop :=
  ∀ (s : State), dictOk s → ∀ k : Code,
    (k.toNat < 256 → phrase s k = some [k.setWidth 8] ∧ firstByte s k = some (k.setWidth 8) ∧
      phraseLength s k = some 1) ∧
    (258 ≤ k.toNat → k.toNat < s.next.toNat → ∃ e ph, Memory.read s.dict k.toNat = some e ∧
      phrase s e.pfx = some ph ∧ phrase s k = some (ph ++ [e.ch]) ∧ firstByte s k = firstByte s e.pfx ∧
      (firstByte s k).isSome = true ∧ phraseLength s k = some (ph.length + 1)) ∧
    (k = 256 ∨ k = 257 ∨ s.next.toNat ≤ k.toNat ∧ 256 ≤ k.toNat → phrase s k = none) ∧
    ∀ n, 258 ≤ k.toNat → phraseLength s k = some n → 2 ≤ n ∧ n ≤ k.toNat - 256

/-! ### The machine as a whole -/

/-- The invariant holds after reset. -/
def Obligations.ResetMeetsTheInvariant : Prop := Inv State.reset

/-- Every step keeps the invariant: the memories in canonical form, the three counters and widths in range and in lockstep
(40_dictionary_engine.md R127), `DICT` well founded and exactly as long as `NEXT` says (10_state.md R51), the buffers exactly
as long as their lengths say, the error registers non-zero exactly in `ERR` (R41, R42), the cursors and counts of each phase
(41_encoder.md R146, 42_decoder.md R159, 43_bit_packer.md R187). -/
def Obligations.StepKeepsTheInvariant : Prop :=
  ∀ s t : State, Inv s → step s = .next t → Inv t

/-- Every step keeps the four memories in canonical form, from every state. -/
def Obligations.MemoriesStayCanonical : Prop :=
  ∀ s t : State, memoriesCanonical s → step s = .next t → memoriesCanonical t

/-- No instruction writes `IBUF` or `ILEN`, and none of the model's own fields but an answer (10_state.md R39, R46). -/
def Obligations.NoInstructionWritesTheInput : Prop :=
  ∀ (i : Instr) (s t : State), exec i s = .next t →
    t.ibuf = s.ibuf ∧ t.ilen = s.ilen ∧ t.host = s.host ∧ t.readData = s.readData ∧ t.fresh = s.fresh

/-- Which step writes which register and memory: the table of 10_state.md R29, and the cursors, results and buffers beside
it (R31, R32, R39 to R42, 20_memory.md R67). -/
def Obligations.EachStepWritesOnlyItsRegisters : Prop :=
  ∀ (s t : State) (i : Instr), selectStep s = some i → exec i s = .next t →
    (i ≠ .encStep → i ≠ .decNext → t.next = s.next ∧ t.width = s.width ∧ t.dict = s.dict) ∧
    (i ≠ .encStep → i ≠ .encFlush → t.wv = s.wv ∧ t.wcode = s.wcode) ∧
    (i ≠ .decFirst → i ≠ .decNext → t.pv = s.pv ∧ t.pcode = s.pcode) ∧
    (i ≠ .packPut → t.pcnt = s.pcnt ∧ t.pwidth = s.pwidth) ∧
    (i ≠ .packPut → i ≠ .packPad → t.acc = s.acc ∧ t.accn = s.accn) ∧
    (i ≠ .unpackGet → t.ucnt = s.ucnt ∧ t.uwidth = s.uwidth ∧ t.upos = s.upos) ∧
    (i ≠ .encStep → t.ipos = s.ipos) ∧
    (i ≠ .encFlush → i ≠ .packPut → i ≠ .decFirst → i ≠ .decNext → t.cpos = s.cpos) ∧
    (i ≠ .encStep → i ≠ .encFlush → i ≠ .unpackGet → t.clen = s.clen ∧ t.cbuf = s.cbuf) ∧
    (i ≠ .packPut → i ≠ .packPad → i ≠ .decFirst → i ≠ .decNext → t.olen = s.olen ∧ t.obuf = s.obuf) ∧
    (i ≠ .decFirst → i ≠ .decNext → t.errcode = s.errcode ∧ t.errval = s.errval ∧ t.erridx = s.erridx) ∧
    t.ret = s.ret

/-- No width decreases while a command runs, and none exceeds 16 (44_codec_commands.md R201). -/
def Obligations.WidthsNeverDecrease : Prop :=
  ∀ s t : State, Inv s → busy s = true → step s = .next t →
    s.uwidth.toNat ≤ t.uwidth.toNat ∧ t.uwidth.toNat ≤ 16 ∧
    s.pwidth.toNat ≤ t.pwidth.toNat ∧ t.pwidth.toNat ≤ 16 ∧
    s.width.toNat ≤ t.width.toNat ∧ t.width.toNat ≤ 16

/-- While a command runs the dictionary only grows: no entry is changed or removed, `NEXT` never decreases, and a full
dictionary stays as it is (10_state.md R51 (b), R34; 40_dictionary_engine.md R126, R127 (e)). -/
def Obligations.DictionaryOnlyGrows : Prop :=
  ∀ s t : State, Inv s → busy s = true → step s = .next t →
    s.next.toNat ≤ t.next.toNat ∧ t.next.toNat ≤ s.next.toNat + 1 ∧
    (∀ k e, Memory.read s.dict k = some e → Memory.read t.dict k = some e) ∧
    (frozen s = true → t.dict = s.dict ∧ t.next = s.next ∧ t.width = s.width ∧ s.width = 16)

/-- `NEXT` and `WIDTH` in every state that meets the invariant: the laws (a) to (d) and (f) of 40_dictionary_engine.md R127. -/
def Obligations.NextAndWidthAgree : Prop :=
  ∀ s : State, Inv s →
    258 ≤ s.next.toNat ∧ s.next.toNat ≤ 65536 ∧ 9 ≤ s.width.toNat ∧ s.width.toNat ≤ 16 ∧
    (s.next.toNat < 2 ^ s.width.toNat ∨ s.next.toNat = 65536 ∧ s.width.toNat = 16) ∧
    s.width.toNat = (if s.next.toNat < 512 then 9 else min 16 (Nat.log2 s.next.toNat + 1)) ∧
    ∀ k, (Memory.read s.dict k).isSome = true → k < 2 ^ s.width.toNat

/-- A busy block with its input loaded never stops: its next step answers a state that is closer to the end
(70_reset_and_hazards.md R257, 60_exceptions.md R219). -/
def Obligations.BusyBlockMakesProgress : Prop :=
  ∀ s : State, Inv s → inputLoaded s → busy s = true → s.host = [] →
    ∃ t, step s = .next t ∧ stepsLeft t < stepsLeft s

/-- Every command ends: from every state in order, a busy block left alone reaches `DONE` or `ERR`, with no fault and no
refusal on the way (44_codec_commands.md R207). -/
def Obligations.EveryCommandEnds : Prop :=
  ∀ s : State, Inv s → inputLoaded s → busy s = true → s.host = [] →
    ∃ n t, n ≤ stepsLeft s ∧ Sys2Proof.core.run n s = .next t ∧ (t.phase = .done ∨ t.phase = .err)

/-- The bounds of 20_memory.md R71 on codes and bytes. -/
def Obligations.BufferBounds : Prop :=
  ∀ s : State, Inv s →
    (compressing s.phase = true → s.clen ≤ s.ilen ∧ s.olen ≤ 2 * s.ilen) ∧
    (decompressing s.phase = true → 9 * s.clen ≤ 8 * s.ilen) ∧
    (∀ t, s.phase = .packPad → exec .packPad s = .next t →
      t.olen = (bitTotal s.clen + 7) / 8 ∧ t.olen ≤ 2 * s.ilen) ∧
    ∀ t, s.phase = .decRun → s.cpos < s.clen → exec .decNext s = .next t → t.olen ≤ s.olen + (s.cpos + 1)

/-! ### The functional view -/

/-- `COMPRESS` computes `pack(encode(b))`, in exactly `ILEN + CLEN + 4` steps (44_codec_commands.md R199, R207). -/
def Obligations.CompressComputesPackOfEncode : Prop :=
  ∀ (s u : State) (bs : List Byte), busy s = false → inputIs s bs → s.host = [] → exec .compress s = .next u →
    (∃ t out, Functional.compress bs = some out ∧
      Sys2Proof.core.run (bs.length + (Functional.encode bs).length + 4) u = .next t ∧ resultIs t out ∧
      t.errcode = 0) ∧
    ∀ n, n < bs.length + (Functional.encode bs).length + 4 →
      ∃ t, Sys2Proof.core.run n u = .next t ∧ busy t = true

/-- `DECOMPRESS` computes `decode(unpack(bs))`, in exactly `2 * CLEN + 2` steps, or ends in the error that `decode` gives, in
`CLEN + 2 + e` steps (44_codec_commands.md R199, R207). -/
def Obligations.DecompressComputesDecodeOfUnpack : Prop :=
  ∀ (s u : State) (bs : List Byte), busy s = false → inputIs s bs → s.host = [] → exec .decompress s = .next u →
    (∀ out, Functional.decompress bs = .bytes out →
      ∃ t, Sys2Proof.core.run (2 * (Functional.unpack bs).length + 2) u = .next t ∧ resultIs t out ∧ t.errcode = 0) ∧
    ∀ sub val idx, Functional.decompress bs = .desync sub val idx →
      ∃ t, Sys2Proof.core.run ((Functional.unpack bs).length + 2 + idx) u = .next t ∧ t.phase = .err ∧ t.olen = 0 ∧
        t.errcode = sub ∧ t.errval = val ∧ t.erridx = idx

/-- Every code the encoder emits fits the width it is written with (30_encoding.md R92), is never 256 or 257, and is below the
count of its number (41_encoder.md R146 (b)); so the packer never refuses it, and it refuses every sequence that does not
fit. -/
def Obligations.EncodedCodesFit : Prop :=
  (∀ bs : List Byte, Functional.fitsFrom 1 (Functional.encode bs) = true ∧ (Functional.compress bs).isSome = true ∧
    (Functional.encode bs).length ≤ bs.length ∧
    ∀ j k, (Functional.encode bs)[j]? = some k →
      (k.toNat < 256 ∨ 258 ≤ k.toNat) ∧ k.toNat < codeCount (j + 1) ∧ codeCount (j + 1) ≤ 2 ^ codeWidth (j + 1)) ∧
  ∀ ks : List Code, Functional.fitsFrom 1 ks = false → Functional.pack ks = none

/-- `unpack(pack(cs)) = cs` for every code sequence whose codes fit; the converse does not hold (43_bit_packer.md R186). -/
def Obligations.UnpackUndoesPack : Prop :=
  (∀ ks : List Code, Functional.fitsFrom 1 ks = true →
    ∃ out, Functional.pack ks = some out ∧ Functional.unpack out = ks) ∧
  ∃ bs out, Functional.pack (Functional.unpack bs) = some out ∧ out ≠ bs

/-- The round-trip law, on code sequences and on byte buffers, for every input, across and after the freeze
(44_codec_commands.md R200). -/
def Obligations.RoundTrip : Prop :=
  ∀ bs : List Byte,
    Functional.decode (Functional.encode bs) = .bytes bs ∧
    ∃ out, Functional.compress bs = some out ∧ Functional.decompress out = .bytes bs

/-- Empty input gives an empty result in both directions (44_codec_commands.md R203). -/
def Obligations.EmptyInputGivesEmptyResult : Prop :=
  Functional.encode [] = [] ∧ Functional.pack [] = some [] ∧ Functional.unpack [] = [] ∧
  Functional.decode [] = .bytes [] ∧ (Functional.pack []).map Functional.decompress = some (.bytes []) ∧
  Functional.compress [] = some [] ∧ Functional.decompress [] = .bytes []

end
end

