-- ==== Sys2Proof/Laws/Memory.lean ====
section
/-! SUPPORT. The laws of a memory space: read after write, the canonical form, equality by reads. -/

namespace Sys2Proof.Machine.Memory

variable {α : Type}

@[simp] theorem read_nil (a : Nat) : read ([] : Memory α) a = none := rfl

theorem read_cons (b : Nat) (x : α) (m : Memory α) (a : Nat) :
    read ((b, x) :: m) a = if a = b then some x else read m a := rfl

@[simp] theorem read_write_same (m : Memory α) (a : Nat) (v : α) : read (write m a v) a = some v := by
  induction m with
  | nil => simp [write, read]
  | cons h m ih =>
    obtain ⟨b, x⟩ := h
    unfold write
    split
    · simp [read]
    · split
      · simp [read]
      · simp [read, *]

theorem read_write_other (m : Memory α) {a b : Nat} (v : α) (h : b ≠ a) : read (write m a v) b = read m b := by
  induction m with
  | nil => simp [write, read, h]
  | cons p m ih =>
    obtain ⟨c, x⟩ := p
    unfold write
    split
    · simp [read_cons, h]
    · split
      · subst_vars; simp [read_cons, h]
      · simp [read_cons, ih]

theorem read_write (m : Memory α) (a b : Nat) (v : α) :
    read (write m a v) b = if b = a then some v else read m b := by
  split
  · subst_vars; simp
  · exact read_write_other m v ‹_›

theorem wf_nil : wf ([] : Memory α) := List.Pairwise.nil

theorem wf_cons {b : Nat} {x : α} {m : Memory α} : wf ((b, x) :: m) ↔ (∀ p ∈ m, b < p.1) ∧ wf m := by
  simp [wf, List.pairwise_cons]

/-- The indices a write lists. -/
theorem mem_write {m : Memory α} {a : Nat} {v : α} {p : Nat × α} (h : p ∈ write m a v) : p = (a, v) ∨ p ∈ m := by
  induction m with
  | nil => simpa [write] using h
  | cons q m ih =>
    obtain ⟨b, x⟩ := q
    unfold write at h
    split at h
    · simpa using h
    · split at h
      · rcases List.mem_cons.1 h with h | h <;> simp [h]
      · rcases List.mem_cons.1 h with h | h
        · simp [h]
        · rcases ih h with h | h <;> simp [h]

/-- Every write keeps the canonical form. -/
theorem wf_write {m : Memory α} (a : Nat) (v : α) (h : wf m) : wf (write m a v) := by
  induction m with
  | nil => simp [write, wf]
  | cons p m ih =>
    obtain ⟨b, x⟩ := p
    obtain ⟨hb, hm⟩ := wf_cons.1 h
    unfold write
    split
    case isTrue hlt =>
      refine wf_cons.2 ⟨fun p hp => ?_, h⟩
      rcases List.mem_cons.1 hp with rfl | hp
      · exact hlt
      · exact hlt.trans (hb p hp)
    case isFalse hlt =>
      split
      case isTrue heq => subst heq; exact wf_cons.2 ⟨hb, hm⟩
      case isFalse hne =>
        refine wf_cons.2 ⟨fun p hp => ?_, ih hm⟩
        rcases mem_write hp with rfl | hp
        · show b < a
          omega
        · exact hb p hp

theorem mem_of_read {m : Memory α} {a : Nat} {v : α} (h : read m a = some v) : (a, v) ∈ m := by
  induction m with
  | nil => simp at h
  | cons p m ih =>
    obtain ⟨b, x⟩ := p
    rw [read_cons] at h
    split at h
    · simp_all
    · exact List.mem_cons_of_mem _ (ih h)

theorem read_of_mem {m : Memory α} {a : Nat} {v : α} (hw : wf m) (h : (a, v) ∈ m) : read m a = some v := by
  induction m with
  | nil => simp at h
  | cons p m ih =>
    obtain ⟨b, x⟩ := p
    obtain ⟨hb, hm⟩ := wf_cons.1 hw
    rw [read_cons]
    rcases List.mem_cons.1 h with h | h
    · simp_all
    · have := hb _ h
      rw [if_neg (by simp at this; omega), ih hm h]

theorem mem_iff_read {m : Memory α} (hw : wf m) {a : Nat} {v : α} : (a, v) ∈ m ↔ read m a = some v :=
  ⟨read_of_mem hw, mem_of_read⟩

/-- Canonical memories that read alike are equal. -/
theorem ext_of_read {m n : Memory α} (hm : wf m) (hn : wf n) (h : ∀ a, read m a = read n a) : m = n := by
  have key : ∀ p, p ∈ m ↔ p ∈ n := fun p => by rw [← Prod.mk.eta (p := p), mem_iff_read hm, mem_iff_read hn, h]
  have sorted : ∀ {l : Memory α}, wf l → l.Pairwise (fun p q => p.1 < q.1) := fun hl => by
    simpa [wf, List.pairwise_map] using hl
  have nodup : ∀ {l : Memory α}, wf l → l.Nodup := fun hl =>
    (sorted hl).imp fun {p q} hpq he => by subst he; exact lt_irrefl _ hpq
  exact List.Perm.eq_of_pairwise (fun p q _ _ h₁ h₂ => absurd (h₁.trans h₂) (lt_irrefl _)) (sorted hm) (sorted hn)
    ((List.perm_ext_iff_of_nodup (nodup hm) (nodup hn)).2 key)

end Sys2Proof.Machine.Memory
end

