-- ==== Sys2Proof/Laws/State.lean ====
section
/-! SUPPORT. One lemma per field per named update: what each shared operation leaves, and what it sets. -/

namespace Sys2Proof.Machine

variable (s : State)

/-! ### Append(OBUF, b) -/

@[simp] theorem appendByte_phase (b : Byte) : (appendByte b s).phase = s.phase := rfl
@[simp] theorem appendByte_next (b : Byte) : (appendByte b s).next = s.next := rfl
@[simp] theorem appendByte_width (b : Byte) : (appendByte b s).width = s.width := rfl
@[simp] theorem appendByte_dict (b : Byte) : (appendByte b s).dict = s.dict := rfl
@[simp] theorem appendByte_wv (b : Byte) : (appendByte b s).wv = s.wv := rfl
@[simp] theorem appendByte_wcode (b : Byte) : (appendByte b s).wcode = s.wcode := rfl
@[simp] theorem appendByte_pv (b : Byte) : (appendByte b s).pv = s.pv := rfl
@[simp] theorem appendByte_pcode (b : Byte) : (appendByte b s).pcode = s.pcode := rfl
@[simp] theorem appendByte_pcnt (b : Byte) : (appendByte b s).pcnt = s.pcnt := rfl
@[simp] theorem appendByte_pwidth (b : Byte) : (appendByte b s).pwidth = s.pwidth := rfl
@[simp] theorem appendByte_acc (b : Byte) : (appendByte b s).acc = s.acc := rfl
@[simp] theorem appendByte_accn (b : Byte) : (appendByte b s).accn = s.accn := rfl
@[simp] theorem appendByte_ucnt (b : Byte) : (appendByte b s).ucnt = s.ucnt := rfl
@[simp] theorem appendByte_uwidth (b : Byte) : (appendByte b s).uwidth = s.uwidth := rfl
@[simp] theorem appendByte_upos (b : Byte) : (appendByte b s).upos = s.upos := rfl
@[simp] theorem appendByte_ipos (b : Byte) : (appendByte b s).ipos = s.ipos := rfl
@[simp] theorem appendByte_cpos (b : Byte) : (appendByte b s).cpos = s.cpos := rfl
@[simp] theorem appendByte_clen (b : Byte) : (appendByte b s).clen = s.clen := rfl
@[simp] theorem appendByte_ilen (b : Byte) : (appendByte b s).ilen = s.ilen := rfl
@[simp] theorem appendByte_olen (b : Byte) : (appendByte b s).olen = s.olen + 1 := rfl
@[simp] theorem appendByte_errcode (b : Byte) : (appendByte b s).errcode = s.errcode := rfl
@[simp] theorem appendByte_errval (b : Byte) : (appendByte b s).errval = s.errval := rfl
@[simp] theorem appendByte_erridx (b : Byte) : (appendByte b s).erridx = s.erridx := rfl
@[simp] theorem appendByte_ibuf (b : Byte) : (appendByte b s).ibuf = s.ibuf := rfl
@[simp] theorem appendByte_obuf (b : Byte) : (appendByte b s).obuf = Memory.write s.obuf s.olen b := rfl
@[simp] theorem appendByte_cbuf (b : Byte) : (appendByte b s).cbuf = s.cbuf := rfl
@[simp] theorem appendByte_host (b : Byte) : (appendByte b s).host = s.host := rfl
@[simp] theorem appendByte_readData (b : Byte) : (appendByte b s).readData = s.readData := rfl
@[simp] theorem appendByte_ret (b : Byte) : (appendByte b s).ret = s.ret := rfl
@[simp] theorem appendByte_fresh (b : Byte) : (appendByte b s).fresh = s.fresh := rfl

/-! ### Append(CBUF, k) -/

@[simp] theorem appendCode_phase (k : Code) : (appendCode k s).phase = s.phase := rfl
@[simp] theorem appendCode_next (k : Code) : (appendCode k s).next = s.next := rfl
@[simp] theorem appendCode_width (k : Code) : (appendCode k s).width = s.width := rfl
@[simp] theorem appendCode_dict (k : Code) : (appendCode k s).dict = s.dict := rfl
@[simp] theorem appendCode_wv (k : Code) : (appendCode k s).wv = s.wv := rfl
@[simp] theorem appendCode_wcode (k : Code) : (appendCode k s).wcode = s.wcode := rfl
@[simp] theorem appendCode_pv (k : Code) : (appendCode k s).pv = s.pv := rfl
@[simp] theorem appendCode_pcode (k : Code) : (appendCode k s).pcode = s.pcode := rfl
@[simp] theorem appendCode_pcnt (k : Code) : (appendCode k s).pcnt = s.pcnt := rfl
@[simp] theorem appendCode_pwidth (k : Code) : (appendCode k s).pwidth = s.pwidth := rfl
@[simp] theorem appendCode_acc (k : Code) : (appendCode k s).acc = s.acc := rfl
@[simp] theorem appendCode_accn (k : Code) : (appendCode k s).accn = s.accn := rfl
@[simp] theorem appendCode_ucnt (k : Code) : (appendCode k s).ucnt = s.ucnt := rfl
@[simp] theorem appendCode_uwidth (k : Code) : (appendCode k s).uwidth = s.uwidth := rfl
@[simp] theorem appendCode_upos (k : Code) : (appendCode k s).upos = s.upos := rfl
@[simp] theorem appendCode_ipos (k : Code) : (appendCode k s).ipos = s.ipos := rfl
@[simp] theorem appendCode_cpos (k : Code) : (appendCode k s).cpos = s.cpos := rfl
@[simp] theorem appendCode_clen (k : Code) : (appendCode k s).clen = s.clen + 1 := rfl
@[simp] theorem appendCode_ilen (k : Code) : (appendCode k s).ilen = s.ilen := rfl
@[simp] theorem appendCode_olen (k : Code) : (appendCode k s).olen = s.olen := rfl
@[simp] theorem appendCode_errcode (k : Code) : (appendCode k s).errcode = s.errcode := rfl
@[simp] theorem appendCode_errval (k : Code) : (appendCode k s).errval = s.errval := rfl
@[simp] theorem appendCode_erridx (k : Code) : (appendCode k s).erridx = s.erridx := rfl
@[simp] theorem appendCode_ibuf (k : Code) : (appendCode k s).ibuf = s.ibuf := rfl
@[simp] theorem appendCode_obuf (k : Code) : (appendCode k s).obuf = s.obuf := rfl
@[simp] theorem appendCode_cbuf (k : Code) : (appendCode k s).cbuf = Memory.write s.cbuf s.clen k := rfl
@[simp] theorem appendCode_host (k : Code) : (appendCode k s).host = s.host := rfl
@[simp] theorem appendCode_readData (k : Code) : (appendCode k s).readData = s.readData := rfl
@[simp] theorem appendCode_ret (k : Code) : (appendCode k s).ret = s.ret := rfl
@[simp] theorem appendCode_fresh (k : Code) : (appendCode k s).fresh = s.fresh := rfl

/-! ### DE.RESET -/

@[simp] theorem engineReset_phase : (engineReset s).phase = s.phase := rfl
@[simp] theorem engineReset_next : (engineReset s).next = 258#17 := rfl
@[simp] theorem engineReset_width : (engineReset s).width = 9#5 := rfl
@[simp] theorem engineReset_dict : (engineReset s).dict = [] := rfl
@[simp] theorem engineReset_wv : (engineReset s).wv = s.wv := rfl
@[simp] theorem engineReset_wcode : (engineReset s).wcode = s.wcode := rfl
@[simp] theorem engineReset_pv : (engineReset s).pv = s.pv := rfl
@[simp] theorem engineReset_pcode : (engineReset s).pcode = s.pcode := rfl
@[simp] theorem engineReset_pcnt : (engineReset s).pcnt = s.pcnt := rfl
@[simp] theorem engineReset_pwidth : (engineReset s).pwidth = s.pwidth := rfl
@[simp] theorem engineReset_acc : (engineReset s).acc = s.acc := rfl
@[simp] theorem engineReset_accn : (engineReset s).accn = s.accn := rfl
@[simp] theorem engineReset_ucnt : (engineReset s).ucnt = s.ucnt := rfl
@[simp] theorem engineReset_uwidth : (engineReset s).uwidth = s.uwidth := rfl
@[simp] theorem engineReset_upos : (engineReset s).upos = s.upos := rfl
@[simp] theorem engineReset_ipos : (engineReset s).ipos = s.ipos := rfl
@[simp] theorem engineReset_cpos : (engineReset s).cpos = s.cpos := rfl
@[simp] theorem engineReset_clen : (engineReset s).clen = s.clen := rfl
@[simp] theorem engineReset_ilen : (engineReset s).ilen = s.ilen := rfl
@[simp] theorem engineReset_olen : (engineReset s).olen = s.olen := rfl
@[simp] theorem engineReset_errcode : (engineReset s).errcode = s.errcode := rfl
@[simp] theorem engineReset_errval : (engineReset s).errval = s.errval := rfl
@[simp] theorem engineReset_erridx : (engineReset s).erridx = s.erridx := rfl
@[simp] theorem engineReset_ibuf : (engineReset s).ibuf = s.ibuf := rfl
@[simp] theorem engineReset_obuf : (engineReset s).obuf = s.obuf := rfl
@[simp] theorem engineReset_cbuf : (engineReset s).cbuf = s.cbuf := rfl
@[simp] theorem engineReset_host : (engineReset s).host = s.host := rfl
@[simp] theorem engineReset_readData : (engineReset s).readData = s.readData := rfl
@[simp] theorem engineReset_ret : (engineReset s).ret = s.ret := rfl
@[simp] theorem engineReset_fresh : (engineReset s).fresh = s.fresh := rfl

/-! ### The error entry -/

@[simp] theorem raiseDesync_phase (sub : BitVec 2) (k : Code) (idx : Nat) : (raiseDesync sub k idx s).phase = .err := rfl
@[simp] theorem raiseDesync_next (sub : BitVec 2) (k : Code) (idx : Nat) : (raiseDesync sub k idx s).next = s.next := rfl
@[simp] theorem raiseDesync_width (sub : BitVec 2) (k : Code) (idx : Nat) : (raiseDesync sub k idx s).width = s.width := rfl
@[simp] theorem raiseDesync_dict (sub : BitVec 2) (k : Code) (idx : Nat) : (raiseDesync sub k idx s).dict = s.dict := rfl
@[simp] theorem raiseDesync_wv (sub : BitVec 2) (k : Code) (idx : Nat) : (raiseDesync sub k idx s).wv = s.wv := rfl
@[simp] theorem raiseDesync_wcode (sub : BitVec 2) (k : Code) (idx : Nat) : (raiseDesync sub k idx s).wcode = s.wcode := rfl
@[simp] theorem raiseDesync_pv (sub : BitVec 2) (k : Code) (idx : Nat) : (raiseDesync sub k idx s).pv = s.pv := rfl
@[simp] theorem raiseDesync_pcode (sub : BitVec 2) (k : Code) (idx : Nat) : (raiseDesync sub k idx s).pcode = s.pcode := rfl
@[simp] theorem raiseDesync_pcnt (sub : BitVec 2) (k : Code) (idx : Nat) : (raiseDesync sub k idx s).pcnt = s.pcnt := rfl
@[simp] theorem raiseDesync_pwidth (sub : BitVec 2) (k : Code) (idx : Nat) : (raiseDesync sub k idx s).pwidth = s.pwidth := rfl
@[simp] theorem raiseDesync_acc (sub : BitVec 2) (k : Code) (idx : Nat) : (raiseDesync sub k idx s).acc = s.acc := rfl
@[simp] theorem raiseDesync_accn (sub : BitVec 2) (k : Code) (idx : Nat) : (raiseDesync sub k idx s).accn = s.accn := rfl
@[simp] theorem raiseDesync_ucnt (sub : BitVec 2) (k : Code) (idx : Nat) : (raiseDesync sub k idx s).ucnt = s.ucnt := rfl
@[simp] theorem raiseDesync_uwidth (sub : BitVec 2) (k : Code) (idx : Nat) : (raiseDesync sub k idx s).uwidth = s.uwidth := rfl
@[simp] theorem raiseDesync_upos (sub : BitVec 2) (k : Code) (idx : Nat) : (raiseDesync sub k idx s).upos = s.upos := rfl
@[simp] theorem raiseDesync_ipos (sub : BitVec 2) (k : Code) (idx : Nat) : (raiseDesync sub k idx s).ipos = s.ipos := rfl
@[simp] theorem raiseDesync_cpos (sub : BitVec 2) (k : Code) (idx : Nat) : (raiseDesync sub k idx s).cpos = s.cpos := rfl
@[simp] theorem raiseDesync_clen (sub : BitVec 2) (k : Code) (idx : Nat) : (raiseDesync sub k idx s).clen = s.clen := rfl
@[simp] theorem raiseDesync_ilen (sub : BitVec 2) (k : Code) (idx : Nat) : (raiseDesync sub k idx s).ilen = s.ilen := rfl
@[simp] theorem raiseDesync_olen (sub : BitVec 2) (k : Code) (idx : Nat) : (raiseDesync sub k idx s).olen = 0 := rfl
@[simp] theorem raiseDesync_errcode (sub : BitVec 2) (k : Code) (idx : Nat) : (raiseDesync sub k idx s).errcode = sub := rfl
@[simp] theorem raiseDesync_errval (sub : BitVec 2) (k : Code) (idx : Nat) : (raiseDesync sub k idx s).errval = k := rfl
@[simp] theorem raiseDesync_erridx (sub : BitVec 2) (k : Code) (idx : Nat) : (raiseDesync sub k idx s).erridx = idx := rfl
@[simp] theorem raiseDesync_ibuf (sub : BitVec 2) (k : Code) (idx : Nat) : (raiseDesync sub k idx s).ibuf = s.ibuf := rfl
@[simp] theorem raiseDesync_obuf (sub : BitVec 2) (k : Code) (idx : Nat) : (raiseDesync sub k idx s).obuf = s.obuf := rfl
@[simp] theorem raiseDesync_cbuf (sub : BitVec 2) (k : Code) (idx : Nat) : (raiseDesync sub k idx s).cbuf = s.cbuf := rfl
@[simp] theorem raiseDesync_host (sub : BitVec 2) (k : Code) (idx : Nat) : (raiseDesync sub k idx s).host = s.host := rfl
@[simp] theorem raiseDesync_readData (sub : BitVec 2) (k : Code) (idx : Nat) : (raiseDesync sub k idx s).readData = s.readData := rfl
@[simp] theorem raiseDesync_ret (sub : BitVec 2) (k : Code) (idx : Nat) : (raiseDesync sub k idx s).ret = s.ret := rfl
@[simp] theorem raiseDesync_fresh (sub : BitVec 2) (k : Code) (idx : Nat) : (raiseDesync sub k idx s).fresh = s.fresh := rfl

/-! ### The command start -/

@[simp] theorem commandStart_phase (p : Phase) : (commandStart p s).phase = p := rfl
@[simp] theorem commandStart_next (p : Phase) : (commandStart p s).next = 258#17 := rfl
@[simp] theorem commandStart_width (p : Phase) : (commandStart p s).width = 9#5 := rfl
@[simp] theorem commandStart_dict (p : Phase) : (commandStart p s).dict = [] := rfl
@[simp] theorem commandStart_wv (p : Phase) : (commandStart p s).wv = false := rfl
@[simp] theorem commandStart_wcode (p : Phase) : (commandStart p s).wcode = none := rfl
@[simp] theorem commandStart_pv (p : Phase) : (commandStart p s).pv = false := rfl
@[simp] theorem commandStart_pcode (p : Phase) : (commandStart p s).pcode = none := rfl
@[simp] theorem commandStart_pcnt (p : Phase) : (commandStart p s).pcnt = 258#17 := rfl
@[simp] theorem commandStart_pwidth (p : Phase) : (commandStart p s).pwidth = 9#5 := rfl
@[simp] theorem commandStart_acc (p : Phase) : (commandStart p s).acc = 0 := rfl
@[simp] theorem commandStart_accn (p : Phase) : (commandStart p s).accn = 0 := rfl
@[simp] theorem commandStart_ucnt (p : Phase) : (commandStart p s).ucnt = 258#17 := rfl
@[simp] theorem commandStart_uwidth (p : Phase) : (commandStart p s).uwidth = 9#5 := rfl
@[simp] theorem commandStart_upos (p : Phase) : (commandStart p s).upos = 0 := rfl
@[simp] theorem commandStart_ipos (p : Phase) : (commandStart p s).ipos = 0 := rfl
@[simp] theorem commandStart_cpos (p : Phase) : (commandStart p s).cpos = 0 := rfl
@[simp] theorem commandStart_clen (p : Phase) : (commandStart p s).clen = 0 := rfl
@[simp] theorem commandStart_ilen (p : Phase) : (commandStart p s).ilen = s.ilen := rfl
@[simp] theorem commandStart_olen (p : Phase) : (commandStart p s).olen = 0 := rfl
@[simp] theorem commandStart_errcode (p : Phase) : (commandStart p s).errcode = 0 := rfl
@[simp] theorem commandStart_errval (p : Phase) : (commandStart p s).errval = 0 := rfl
@[simp] theorem commandStart_erridx (p : Phase) : (commandStart p s).erridx = 0 := rfl
@[simp] theorem commandStart_ibuf (p : Phase) : (commandStart p s).ibuf = s.ibuf := rfl
@[simp] theorem commandStart_obuf (p : Phase) : (commandStart p s).obuf = [] := rfl
@[simp] theorem commandStart_cbuf (p : Phase) : (commandStart p s).cbuf = [] := rfl
@[simp] theorem commandStart_host (p : Phase) : (commandStart p s).host = s.host := rfl
@[simp] theorem commandStart_readData (p : Phase) : (commandStart p s).readData = s.readData := rfl
@[simp] theorem commandStart_ret (p : Phase) : (commandStart p s).ret = s.ret := rfl
@[simp] theorem commandStart_fresh (p : Phase) : (commandStart p s).fresh = s.fresh := rfl

/-! ### AppendAll(OBUF, bs) -/

/-- A field that `Append(OBUF, b)` leaves is left by `AppendAll(OBUF, bs)`. -/
theorem appendBytes_leaves {β : Type} (f : State → β) (hf : ∀ b s, f (appendByte b s) = f s) (bs : List Byte) (s : State) :
    f (appendBytes bs s) = f s := by
  induction bs generalizing s with
  | nil => rfl
  | cons b bs ih => exact (ih _).trans (hf b s)

@[simp] theorem appendBytes_phase (bs : List Byte) : (appendBytes bs s).phase = s.phase :=
  appendBytes_leaves State.phase (fun _ _ => rfl) bs s
@[simp] theorem appendBytes_next (bs : List Byte) : (appendBytes bs s).next = s.next :=
  appendBytes_leaves State.next (fun _ _ => rfl) bs s
@[simp] theorem appendBytes_width (bs : List Byte) : (appendBytes bs s).width = s.width :=
  appendBytes_leaves State.width (fun _ _ => rfl) bs s
@[simp] theorem appendBytes_dict (bs : List Byte) : (appendBytes bs s).dict = s.dict :=
  appendBytes_leaves State.dict (fun _ _ => rfl) bs s
@[simp] theorem appendBytes_wv (bs : List Byte) : (appendBytes bs s).wv = s.wv :=
  appendBytes_leaves State.wv (fun _ _ => rfl) bs s
@[simp] theorem appendBytes_wcode (bs : List Byte) : (appendBytes bs s).wcode = s.wcode :=
  appendBytes_leaves State.wcode (fun _ _ => rfl) bs s
@[simp] theorem appendBytes_pv (bs : List Byte) : (appendBytes bs s).pv = s.pv :=
  appendBytes_leaves State.pv (fun _ _ => rfl) bs s
@[simp] theorem appendBytes_pcode (bs : List Byte) : (appendBytes bs s).pcode = s.pcode :=
  appendBytes_leaves State.pcode (fun _ _ => rfl) bs s
@[simp] theorem appendBytes_pcnt (bs : List Byte) : (appendBytes bs s).pcnt = s.pcnt :=
  appendBytes_leaves State.pcnt (fun _ _ => rfl) bs s
@[simp] theorem appendBytes_pwidth (bs : List Byte) : (appendBytes bs s).pwidth = s.pwidth :=
  appendBytes_leaves State.pwidth (fun _ _ => rfl) bs s
@[simp] theorem appendBytes_acc (bs : List Byte) : (appendBytes bs s).acc = s.acc :=
  appendBytes_leaves State.acc (fun _ _ => rfl) bs s
@[simp] theorem appendBytes_accn (bs : List Byte) : (appendBytes bs s).accn = s.accn :=
  appendBytes_leaves State.accn (fun _ _ => rfl) bs s
@[simp] theorem appendBytes_ucnt (bs : List Byte) : (appendBytes bs s).ucnt = s.ucnt :=
  appendBytes_leaves State.ucnt (fun _ _ => rfl) bs s
@[simp] theorem appendBytes_uwidth (bs : List Byte) : (appendBytes bs s).uwidth = s.uwidth :=
  appendBytes_leaves State.uwidth (fun _ _ => rfl) bs s
@[simp] theorem appendBytes_upos (bs : List Byte) : (appendBytes bs s).upos = s.upos :=
  appendBytes_leaves State.upos (fun _ _ => rfl) bs s
@[simp] theorem appendBytes_ipos (bs : List Byte) : (appendBytes bs s).ipos = s.ipos :=
  appendBytes_leaves State.ipos (fun _ _ => rfl) bs s
@[simp] theorem appendBytes_cpos (bs : List Byte) : (appendBytes bs s).cpos = s.cpos :=
  appendBytes_leaves State.cpos (fun _ _ => rfl) bs s
@[simp] theorem appendBytes_clen (bs : List Byte) : (appendBytes bs s).clen = s.clen :=
  appendBytes_leaves State.clen (fun _ _ => rfl) bs s
@[simp] theorem appendBytes_ilen (bs : List Byte) : (appendBytes bs s).ilen = s.ilen :=
  appendBytes_leaves State.ilen (fun _ _ => rfl) bs s
@[simp] theorem appendBytes_errcode (bs : List Byte) : (appendBytes bs s).errcode = s.errcode :=
  appendBytes_leaves State.errcode (fun _ _ => rfl) bs s
@[simp] theorem appendBytes_errval (bs : List Byte) : (appendBytes bs s).errval = s.errval :=
  appendBytes_leaves State.errval (fun _ _ => rfl) bs s
@[simp] theorem appendBytes_erridx (bs : List Byte) : (appendBytes bs s).erridx = s.erridx :=
  appendBytes_leaves State.erridx (fun _ _ => rfl) bs s
@[simp] theorem appendBytes_ibuf (bs : List Byte) : (appendBytes bs s).ibuf = s.ibuf :=
  appendBytes_leaves State.ibuf (fun _ _ => rfl) bs s
@[simp] theorem appendBytes_cbuf (bs : List Byte) : (appendBytes bs s).cbuf = s.cbuf :=
  appendBytes_leaves State.cbuf (fun _ _ => rfl) bs s
@[simp] theorem appendBytes_host (bs : List Byte) : (appendBytes bs s).host = s.host :=
  appendBytes_leaves State.host (fun _ _ => rfl) bs s
@[simp] theorem appendBytes_readData (bs : List Byte) : (appendBytes bs s).readData = s.readData :=
  appendBytes_leaves State.readData (fun _ _ => rfl) bs s
@[simp] theorem appendBytes_ret (bs : List Byte) : (appendBytes bs s).ret = s.ret :=
  appendBytes_leaves State.ret (fun _ _ => rfl) bs s
@[simp] theorem appendBytes_fresh (bs : List Byte) : (appendBytes bs s).fresh = s.fresh :=
  appendBytes_leaves State.fresh (fun _ _ => rfl) bs s

/-! ### DE.INSERT -/

@[simp] theorem engineInsert_phase (p : Code) (c : Byte) : (engineInsert p c s).phase = s.phase := by unfold engineInsert; split <;> rfl
@[simp] theorem engineInsert_wv (p : Code) (c : Byte) : (engineInsert p c s).wv = s.wv := by unfold engineInsert; split <;> rfl
@[simp] theorem engineInsert_wcode (p : Code) (c : Byte) : (engineInsert p c s).wcode = s.wcode := by unfold engineInsert; split <;> rfl
@[simp] theorem engineInsert_pv (p : Code) (c : Byte) : (engineInsert p c s).pv = s.pv := by unfold engineInsert; split <;> rfl
@[simp] theorem engineInsert_pcode (p : Code) (c : Byte) : (engineInsert p c s).pcode = s.pcode := by unfold engineInsert; split <;> rfl
@[simp] theorem engineInsert_pcnt (p : Code) (c : Byte) : (engineInsert p c s).pcnt = s.pcnt := by unfold engineInsert; split <;> rfl
@[simp] theorem engineInsert_pwidth (p : Code) (c : Byte) : (engineInsert p c s).pwidth = s.pwidth := by unfold engineInsert; split <;> rfl
@[simp] theorem engineInsert_acc (p : Code) (c : Byte) : (engineInsert p c s).acc = s.acc := by unfold engineInsert; split <;> rfl
@[simp] theorem engineInsert_accn (p : Code) (c : Byte) : (engineInsert p c s).accn = s.accn := by unfold engineInsert; split <;> rfl
@[simp] theorem engineInsert_ucnt (p : Code) (c : Byte) : (engineInsert p c s).ucnt = s.ucnt := by unfold engineInsert; split <;> rfl
@[simp] theorem engineInsert_uwidth (p : Code) (c : Byte) : (engineInsert p c s).uwidth = s.uwidth := by unfold engineInsert; split <;> rfl
@[simp] theorem engineInsert_upos (p : Code) (c : Byte) : (engineInsert p c s).upos = s.upos := by unfold engineInsert; split <;> rfl
@[simp] theorem engineInsert_ipos (p : Code) (c : Byte) : (engineInsert p c s).ipos = s.ipos := by unfold engineInsert; split <;> rfl
@[simp] theorem engineInsert_cpos (p : Code) (c : Byte) : (engineInsert p c s).cpos = s.cpos := by unfold engineInsert; split <;> rfl
@[simp] theorem engineInsert_clen (p : Code) (c : Byte) : (engineInsert p c s).clen = s.clen := by unfold engineInsert; split <;> rfl
@[simp] theorem engineInsert_ilen (p : Code) (c : Byte) : (engineInsert p c s).ilen = s.ilen := by unfold engineInsert; split <;> rfl
@[simp] theorem engineInsert_olen (p : Code) (c : Byte) : (engineInsert p c s).olen = s.olen := by unfold engineInsert; split <;> rfl
@[simp] theorem engineInsert_errcode (p : Code) (c : Byte) : (engineInsert p c s).errcode = s.errcode := by unfold engineInsert; split <;> rfl
@[simp] theorem engineInsert_errval (p : Code) (c : Byte) : (engineInsert p c s).errval = s.errval := by unfold engineInsert; split <;> rfl
@[simp] theorem engineInsert_erridx (p : Code) (c : Byte) : (engineInsert p c s).erridx = s.erridx := by unfold engineInsert; split <;> rfl
@[simp] theorem engineInsert_ibuf (p : Code) (c : Byte) : (engineInsert p c s).ibuf = s.ibuf := by unfold engineInsert; split <;> rfl
@[simp] theorem engineInsert_obuf (p : Code) (c : Byte) : (engineInsert p c s).obuf = s.obuf := by unfold engineInsert; split <;> rfl
@[simp] theorem engineInsert_cbuf (p : Code) (c : Byte) : (engineInsert p c s).cbuf = s.cbuf := by unfold engineInsert; split <;> rfl
@[simp] theorem engineInsert_host (p : Code) (c : Byte) : (engineInsert p c s).host = s.host := by unfold engineInsert; split <;> rfl
@[simp] theorem engineInsert_readData (p : Code) (c : Byte) : (engineInsert p c s).readData = s.readData := by unfold engineInsert; split <;> rfl
@[simp] theorem engineInsert_ret (p : Code) (c : Byte) : (engineInsert p c s).ret = s.ret := by unfold engineInsert; split <;> rfl
@[simp] theorem engineInsert_fresh (p : Code) (c : Byte) : (engineInsert p c s).fresh = s.fresh := by unfold engineInsert; split <;> rfl

/-! ### PACK_PUT's writes -/

@[simp] theorem putCode_phase (k : Nat) : (putCode k s).phase = s.phase := by simp [putCode]
@[simp] theorem putCode_next (k : Nat) : (putCode k s).next = s.next := by simp [putCode]
@[simp] theorem putCode_width (k : Nat) : (putCode k s).width = s.width := by simp [putCode]
@[simp] theorem putCode_dict (k : Nat) : (putCode k s).dict = s.dict := by simp [putCode]
@[simp] theorem putCode_wv (k : Nat) : (putCode k s).wv = s.wv := by simp [putCode]
@[simp] theorem putCode_wcode (k : Nat) : (putCode k s).wcode = s.wcode := by simp [putCode]
@[simp] theorem putCode_pv (k : Nat) : (putCode k s).pv = s.pv := by simp [putCode]
@[simp] theorem putCode_pcode (k : Nat) : (putCode k s).pcode = s.pcode := by simp [putCode]
@[simp] theorem putCode_pcnt (k : Nat) : (putCode k s).pcnt = (schedule s.pcnt s.pwidth).1 := rfl
@[simp] theorem putCode_pwidth (k : Nat) : (putCode k s).pwidth = (schedule s.pcnt s.pwidth).2 := rfl
@[simp] theorem putCode_ucnt (k : Nat) : (putCode k s).ucnt = s.ucnt := by simp [putCode]
@[simp] theorem putCode_uwidth (k : Nat) : (putCode k s).uwidth = s.uwidth := by simp [putCode]
@[simp] theorem putCode_upos (k : Nat) : (putCode k s).upos = s.upos := by simp [putCode]
@[simp] theorem putCode_ipos (k : Nat) : (putCode k s).ipos = s.ipos := by simp [putCode]
@[simp] theorem putCode_cpos (k : Nat) : (putCode k s).cpos = s.cpos + 1 := rfl
@[simp] theorem putCode_clen (k : Nat) : (putCode k s).clen = s.clen := by simp [putCode]
@[simp] theorem putCode_ilen (k : Nat) : (putCode k s).ilen = s.ilen := by simp [putCode]
@[simp] theorem putCode_errcode (k : Nat) : (putCode k s).errcode = s.errcode := by simp [putCode]
@[simp] theorem putCode_errval (k : Nat) : (putCode k s).errval = s.errval := by simp [putCode]
@[simp] theorem putCode_erridx (k : Nat) : (putCode k s).erridx = s.erridx := by simp [putCode]
@[simp] theorem putCode_ibuf (k : Nat) : (putCode k s).ibuf = s.ibuf := by simp [putCode]
@[simp] theorem putCode_cbuf (k : Nat) : (putCode k s).cbuf = s.cbuf := by simp [putCode]
@[simp] theorem putCode_host (k : Nat) : (putCode k s).host = s.host := by simp [putCode]
@[simp] theorem putCode_readData (k : Nat) : (putCode k s).readData = s.readData := by simp [putCode]
@[simp] theorem putCode_ret (k : Nat) : (putCode k s).ret = s.ret := by simp [putCode]
@[simp] theorem putCode_fresh (k : Nat) : (putCode k s).fresh = s.fresh := by simp [putCode]

/-! ### UNPACK_GET's writes -/

@[simp] theorem takeCode_phase (k : Nat) : (takeCode k s).phase = s.phase := rfl
@[simp] theorem takeCode_next (k : Nat) : (takeCode k s).next = s.next := rfl
@[simp] theorem takeCode_width (k : Nat) : (takeCode k s).width = s.width := rfl
@[simp] theorem takeCode_dict (k : Nat) : (takeCode k s).dict = s.dict := rfl
@[simp] theorem takeCode_wv (k : Nat) : (takeCode k s).wv = s.wv := rfl
@[simp] theorem takeCode_wcode (k : Nat) : (takeCode k s).wcode = s.wcode := rfl
@[simp] theorem takeCode_pv (k : Nat) : (takeCode k s).pv = s.pv := rfl
@[simp] theorem takeCode_pcode (k : Nat) : (takeCode k s).pcode = s.pcode := rfl
@[simp] theorem takeCode_pcnt (k : Nat) : (takeCode k s).pcnt = s.pcnt := rfl
@[simp] theorem takeCode_pwidth (k : Nat) : (takeCode k s).pwidth = s.pwidth := rfl
@[simp] theorem takeCode_acc (k : Nat) : (takeCode k s).acc = s.acc := rfl
@[simp] theorem takeCode_accn (k : Nat) : (takeCode k s).accn = s.accn := rfl
@[simp] theorem takeCode_ucnt (k : Nat) : (takeCode k s).ucnt = (schedule s.ucnt s.uwidth).1 := rfl
@[simp] theorem takeCode_uwidth (k : Nat) : (takeCode k s).uwidth = (schedule s.ucnt s.uwidth).2 := rfl
@[simp] theorem takeCode_upos (k : Nat) : (takeCode k s).upos = s.upos + s.uwidth.toNat := rfl
@[simp] theorem takeCode_ipos (k : Nat) : (takeCode k s).ipos = s.ipos := rfl
@[simp] theorem takeCode_cpos (k : Nat) : (takeCode k s).cpos = s.cpos := rfl
@[simp] theorem takeCode_clen (k : Nat) : (takeCode k s).clen = s.clen + 1 := rfl
@[simp] theorem takeCode_ilen (k : Nat) : (takeCode k s).ilen = s.ilen := rfl
@[simp] theorem takeCode_olen (k : Nat) : (takeCode k s).olen = s.olen := rfl
@[simp] theorem takeCode_errcode (k : Nat) : (takeCode k s).errcode = s.errcode := rfl
@[simp] theorem takeCode_errval (k : Nat) : (takeCode k s).errval = s.errval := rfl
@[simp] theorem takeCode_erridx (k : Nat) : (takeCode k s).erridx = s.erridx := rfl
@[simp] theorem takeCode_ibuf (k : Nat) : (takeCode k s).ibuf = s.ibuf := rfl
@[simp] theorem takeCode_obuf (k : Nat) : (takeCode k s).obuf = s.obuf := rfl
@[simp] theorem takeCode_cbuf (k : Nat) : (takeCode k s).cbuf = Memory.write s.cbuf s.clen (BitVec.ofNat 16 k) := rfl
@[simp] theorem takeCode_host (k : Nat) : (takeCode k s).host = s.host := rfl
@[simp] theorem takeCode_readData (k : Nat) : (takeCode k s).readData = s.readData := rfl
@[simp] theorem takeCode_ret (k : Nat) : (takeCode k s).ret = s.ret := rfl
@[simp] theorem takeCode_fresh (k : Nat) : (takeCode k s).fresh = s.fresh := rfl

end Sys2Proof.Machine
end

