-- ==== Sys2Proof/Laws/Ops.lean ====
section
/-! SUPPORT. One lemma per shared operation, saying what it can do: the width bookkeeping, the appends, the Dictionary
Engine, and when an instruction answers a next state. -/

namespace Sys2Proof

/-! ### The width schedule -/

theorem widthOfCount_range (n : Nat) : 9 ≤ widthOfCount n ∧ widthOfCount n ≤ 16 := by
  unfold widthOfCount
  split
  · simp [Config.initWidth]
  · have : 9 ≤ Nat.log2 n := (Nat.le_log2 (by omega)).2 (by omega)
    simp only [Config.maxWidth]; omega

theorem count_le_two_pow_width {n : Nat} (h : n ≤ Config.cap) : n ≤ 2 ^ widthOfCount n := by
  unfold widthOfCount
  split
  · simp [Config.initWidth]; omega
  · rename_i h512
    have hlt : n < 2 ^ (Nat.log2 n + 1) := (Nat.log2_lt (by omega)).1 (Nat.lt_succ_self _)
    by_cases h16 : Nat.log2 n + 1 ≤ 16
    · rw [min_eq_right h16]; omega
    · rw [min_eq_left (by simp [Config.maxWidth]; omega)]; simpa [Config.cap, Config.maxWidth] using h

/-- The width of the next size (30_encoding.md R97, the recurrence). -/
theorem widthOfCount_succ {n : Nat} (hlo : 258 ≤ n) (hhi : n < Config.cap) :
    widthOfCount (n + 1) =
      if n + 1 = 2 ^ widthOfCount n ∧ widthOfCount n < 16 then widthOfCount n + 1 else widthOfCount n := by
  simp only [Config.cap] at hhi
  by_cases h : n + 1 < 512
  · have h' : n < 512 := by omega
    simp only [widthOfCount, h, h', if_true, Config.initWidth]
    rw [if_neg (by omega)]
  · by_cases h2 : n < 512
    · obtain rfl : n = 511 := by omega
      decide
    · have key : ∀ m k, 512 ≤ m → 2 ^ k ≤ m → m < 2 ^ (k + 1) → widthOfCount m = min 16 (k + 1) := by
        intro m k hm h₁ h₂
        have : Nat.log2 m = k := (Nat.log2_eq_iff (by omega)).2 ⟨h₁, h₂⟩
        simp [widthOfCount, this, Nat.not_lt.2 hm, Config.maxWidth]
      obtain ⟨h₁, h₂⟩ := (Nat.log2_eq_iff (n := n) (by omega)).1 rfl
      generalize Nat.log2 n = k at h₁ h₂
      have hk : k < 16 := by
        by_contra hc
        have : 2 ^ 16 ≤ 2 ^ k := Nat.pow_le_pow_right (by omega) (by omega)
        omega
      rw [key n k (by omega) h₁ h₂, min_eq_right (by omega)]
      by_cases he : n + 1 = 2 ^ (k + 1)
      · rw [key (n + 1) (k + 1) (by omega) he.ge (by rw [he, pow_succ 2 (k + 1)]; have := Nat.two_pow_pos (k + 1); omega)]
        by_cases hk15 : k = 15
        · subst hk15; simp
        · rw [if_pos ⟨he, by omega⟩]; omega
      · rw [key (n + 1) k (by omega) (by omega) (by omega), if_neg (by tauto)]; omega

theorem codeCount_one : codeCount 1 = 258 := rfl

theorem codeCount_succ {i : Nat} : codeCount (i + 1) = min (codeCount i + 1) Config.cap := by
  simp only [codeCount, Config.cap]; omega

namespace Machine

/-! ### SCHED -/

theorem schedule_count {c : Count} {w : Width} (h : c.toNat ≤ Config.cap) :
    (schedule c w).1.toNat = min (c.toNat + 1) Config.cap := by
  simp only [Config.cap] at h
  unfold schedule
  split
  · have : (c + 1).toNat = c.toNat + 1 := by rw [BitVec.toNat_add]; simp at *; omega
    simp only [Config.cap] at *
    split <;> simp only [this] <;> omega
  · simp only [Config.cap] at *; omega

/-- `SCHED` keeps a counter and its width in order (40_dictionary_engine.md R127). -/
theorem schedule_ok {c : Count} {w : Width} (h : countOk c w) : countOk (schedule c w).1 (schedule c w).2 := by
  obtain ⟨hlo, hhi, hw⟩ := h
  have hcount := schedule_count (w := w) hhi
  refine ⟨by rw [hcount]; simp [Config.firstFree, Config.cap] at *; omega, by rw [hcount]; simp, ?_⟩
  rw [hcount]
  have hr := widthOfCount_range c.toNat
  unfold schedule
  split
  case isFalse h =>
    simp only [Config.cap] at *
    rw [hw, show min (c.toNat + 1) 65536 = c.toNat by omega]
  case isTrue h =>
    have hc : (c + 1).toNat = c.toNat + 1 := by
      simp only [Config.cap] at h; rw [BitVec.toNat_add]; simp; omega
    rw [show min (c.toNat + 1) Config.cap = c.toNat + 1 by simp only [Config.cap] at *; omega,
      widthOfCount_succ hlo h, hc, hw]
    simp only [Config.maxWidth]
    split
    · have : (w + 1).toNat = w.toNat + 1 := by rw [BitVec.toNat_add]; simp; omega
      rw [this, hw]
    · exact hw

/-! ### Appends -/

theorem appendBytes_olen (bs : List Byte) (s : State) : (appendBytes bs s).olen = s.olen + bs.length := by
  induction bs generalizing s with
  | nil => rfl
  | cons b bs ih => simp [appendBytes, ih]; omega

/-- What `OBUF` reads after `AppendAll`: the new bytes from `OLEN` on, everything else as before. -/
theorem appendBytes_read (bs : List Byte) (s : State) (i : Nat) :
    Memory.read (appendBytes bs s).obuf i =
      if s.olen ≤ i ∧ i < s.olen + bs.length then bs[i - s.olen]? else Memory.read s.obuf i := by
  induction bs generalizing s with
  | nil => rw [if_neg (by simp)]; rfl
  | cons b bs ih =>
    rw [appendBytes, ih]
    simp only [List.length_cons]
    split
    case isTrue h =>
      simp only [appendByte_olen] at h
      rw [if_pos (by omega), appendByte_olen, show i - s.olen = (i - (s.olen + 1)) + 1 by omega,
        List.getElem?_cons_succ]
    case isFalse h =>
      simp only [appendByte_olen] at h
      rw [appendByte_obuf, Memory.read_write]
      split
      · subst_vars; rw [if_pos (by omega)]; simp
      · rw [if_neg (by omega)]

theorem appendBytes_wf {bs : List Byte} {s : State} (h : Memory.wf s.obuf) : Memory.wf (appendBytes bs s).obuf := by
  induction bs generalizing s with
  | nil => exact h
  | cons b bs ih => exact ih (Memory.wf_write _ _ h)

theorem wholeBytes_length (v n : Nat) : (wholeBytes v n).length = n / 8 := by
  induction n using Nat.strongRecOn with
  | _ n ih =>
    match n with
    | n + 8 => simp [wholeBytes, ih n (by omega)]
    | 0 | 1 | 2 | 3 | 4 | 5 | 6 | 7 => rfl

theorem putCode_olen (k : Nat) (s : State) :
    (putCode k s).olen = s.olen + (s.accn.toNat + s.pwidth.toNat) / 8 := by
  simp [putCode, appendBytes_olen, wholeBytes_length]

/-- An append makes a memory that holds exactly `n` elements hold exactly `n + 1`. -/
theorem holdsExactly_write {α : Type} {m : Memory α} {n : Nat} (h : holdsExactly m n) (v : α) :
    holdsExactly (Memory.write m n v) (n + 1) := by
  intro i
  rw [Memory.read_write]
  split
  · subst_vars; simp
  · rw [h i]; omega

theorem holdsExactly_appendBytes {bs : List Byte} {s : State} (h : holdsExactly s.obuf s.olen) :
    holdsExactly (appendBytes bs s).obuf (appendBytes bs s).olen := by
  induction bs generalizing s with
  | nil => exact h
  | cons b bs ih => exact ih (holdsExactly_write h b)

/-! ### The Dictionary Engine -/

/-- `DE.INSERT` below the cap, and at it (40_dictionary_engine.md R122). -/
theorem engineInsert_cases (p : Code) (c : Byte) (s : State) :
    (s.next.toNat < Config.cap ∧
      engineInsert p c s = { s with
        dict := Memory.write s.dict s.next.toNat ⟨p, c⟩
        next := (schedule s.next s.width).1
        width := (schedule s.next s.width).2 }) ∨
    (Config.cap ≤ s.next.toNat ∧ engineInsert p c s = s) := by
  unfold engineInsert
  split
  · exact .inl ⟨‹_›, rfl⟩
  · exact .inr ⟨by omega, rfl⟩

theorem engineInsert_wf {p : Code} {c : Byte} {s : State} (h : Memory.wf s.dict) :
    Memory.wf (engineInsert p c s).dict := by
  rcases engineInsert_cases p c s with ⟨-, h'⟩ | ⟨-, h'⟩ <;> rw [h']
  · exact Memory.wf_write _ _ h
  · exact h

/-- The size goes up by one, or stays at the cap (40_dictionary_engine.md R122). -/
theorem engineInsert_next {p : Code} {c : Byte} {s : State} (h : s.next.toNat ≤ Config.cap) :
    (engineInsert p c s).next.toNat = min (s.next.toNat + 1) Config.cap := by
  rcases engineInsert_cases p c s with ⟨-, h'⟩ | ⟨hge, h'⟩ <;> rw [h']
  · exact schedule_count h
  · simp only [Config.cap] at *; omega

theorem engineInsert_countOk {p : Code} {c : Byte} {s : State} (h : countOk s.next s.width) :
    countOk (engineInsert p c s).next (engineInsert p c s).width := by
  rcases engineInsert_cases p c s with ⟨-, h'⟩ | ⟨-, h'⟩ <;> rw [h']
  · exact schedule_ok h
  · exact h

/-- What a lookup that finds a code found (40_dictionary_engine.md R121). -/
theorem engineLookup_some {p : Code} {c : Byte} {s : State} {k : Code} (hw : Memory.wf s.dict)
    (hcap : s.next.toNat ≤ Config.cap) (h : engineLookup (some p) c s = some k) : dictEntry s k.toNat = some ⟨p, c⟩ := by
  simp only [engineLookup, Option.map_eq_some_iff] at h
  obtain ⟨⟨a, e⟩, hf, rfl⟩ := h
  have hp := List.find?_some hf
  have hm := List.mem_of_find?_eq_some hf
  simp only [Bool.and_eq_true, decide_eq_true_eq] at hp
  obtain ⟨⟨h₁, h₂⟩, rfl⟩ := hp
  have : (BitVec.ofNat 16 a).toNat = a := by
    simp only [Config.cap] at hcap; rw [BitVec.toNat_ofNat]; exact Nat.mod_eq_of_lt (by omega)
  simp only [this, dictEntry, h₁, h₂, and_self, if_true]
  exact Memory.read_of_mem hw hm

/-- What a lookup that finds nothing says (40_dictionary_engine.md R121). -/
theorem engineLookup_none {p : Code} {c : Byte} {s : State} (h : engineLookup (some p) c s = none) (k : Nat) :
    dictEntry s k ≠ some ⟨p, c⟩ := by
  intro hk
  unfold dictEntry at hk
  split at hk
  case isFalse => cases hk
  case isTrue hr =>
    simp only [engineLookup, Option.map_eq_none_iff] at h
    have := List.find?_eq_none.1 h _ (Memory.mem_of_read hk)
    simp [hr.1, hr.2] at this

/-! ### When an instruction answers a next state -/

theorem whenSelected_next {i : Instr} {s t : State} {r : Result} :
    whenSelected i s r = .next t ↔ selectStep s = some i ∧ r = .next t := by
  unfold whenSelected
  split <;> simp_all

theorem whenSelected_of_selected {i : Instr} {s : State} {r : Result} (h : selectStep s = some i) :
    whenSelected i s r = r := by simp [whenSelected, h]

/-- The three ways `ENC_STEP` goes on: an empty prefix, a hit, a miss (41_encoder.md R141). -/
theorem encodeByte_next {s t : State} (h : encodeByte s = .next t) :
    ∃ c, inputByte s = some c ∧
      ((s.wv = false ∧ t = { s with wcode := some (c.setWidth 16), wv := true, ipos := s.ipos + 1 }) ∨
        ∃ w, s.wv = true ∧ s.wcode = some w ∧
          ((∃ k, engineLookup (some w) c s = some k ∧ t = { s with wcode := some k, ipos := s.ipos + 1 }) ∨
            (engineLookup (some w) c s = none ∧
              t = { engineInsert w c (appendCode w s) with wcode := some (c.setWidth 16), ipos := s.ipos + 1 }))) := by
  unfold encodeByte at h
  split at h
  · cases h
  · rename_i c hc
    refine ⟨c, hc, ?_⟩
    split at h
    · rename_i hv
      split at h
      · cases h
      · rename_i w hw
        refine .inr ⟨w, hv, hw, ?_⟩
        split at h
        · rename_i k hk; cases h; exact .inl ⟨k, hk, rfl⟩
        · rename_i hk; cases h; exact .inr ⟨hk, rfl⟩
    · rename_i hv; cases h; exact .inl ⟨by simpa using hv, rfl⟩

/-- A prefix without a value stops `ENC_STEP` (10_state.md R58; log entry 10). -/
theorem encodeByte_noValue {s : State} {c : Byte} (hc : inputByte s = some c) (hv : s.wv = true) (hw : s.wcode = none) :
    encodeByte s = .fault (.noValue .wcode) := by
  simp [encodeByte, hc, hv, hw]

theorem flushPrefix_next {s t : State} (h : flushPrefix s = .next t) :
    (s.wv = false ∧ t = { s with cpos := 0, phase := .packRun }) ∨
      ∃ w, s.wv = true ∧ s.wcode = some w ∧
        t = { appendCode w s with wv := false, wcode := none, cpos := 0, phase := .packRun } := by
  unfold flushPrefix at h
  split at h
  · split at h
    · cases h
    · rename_i hv _ w hw; cases h; exact .inr ⟨w, hv, hw, rfl⟩
  · rename_i hv; cases h; exact .inl ⟨by simpa using hv, rfl⟩

theorem packCode_next {s t : State} (h : packCode s = .next t) :
    ∃ k, codeAt s s.cpos = some k ∧ k.toNat < 2 ^ s.pwidth.toNat ∧ t = putCode k.toNat s := by
  unfold packCode at h
  split at h
  · cases h
  · split at h
    · cases h
    · rename_i k hk hlt; cases h; exact ⟨k, hk, by omega, rfl⟩

theorem unpackCode_next {s t : State} (h : unpackCode s = .next t) :
    ∃ k, inputCode s = some k ∧ t = takeCode k s := by
  unfold unpackCode at h
  split at h
  · cases h
  · rename_i k hk; cases h; exact ⟨k, hk, rfl⟩

theorem takeFirstCode_next {s t : State} (h : takeFirstCode s = .next t) :
    (s.clen = 0 ∧ t = { s with phase := .done }) ∨ ∃ k, s.clen ≠ 0 ∧ codeAt s 0 = some k ∧ t = decodeFirst k s := by
  unfold takeFirstCode at h
  split at h
  · cases h; exact .inl ⟨‹_›, rfl⟩
  · split at h
    · cases h
    · rename_i hz _ k hk; cases h; exact .inr ⟨k, hz, hk, rfl⟩

theorem decodeNext_next {k : Code} {s t : State} (h : decodeNext k s = .next t) :
    (∃ sub, engineResolve k s = .desync sub ∧ t = raiseDesync sub k s.cpos s) ∨
      ∃ entry f p, engineResolve k s = .found entry f ∧ previousEntry s = some p ∧
        t = { engineInsert p f (appendBytes entry s) with pcode := some k, cpos := s.cpos + 1 } := by
  unfold decodeNext at h
  split at h
  · rename_i sub hs; cases h; exact .inl ⟨sub, hs, rfl⟩
  · cases h
  · rename_i entry f hr
    split at h
    · cases h
    · rename_i p hp; cases h; exact .inr ⟨entry, f, p, hr, hp, rfl⟩

theorem takeNextCode_next {s t : State} (h : takeNextCode s = .next t) :
    ∃ k, codeAt s s.cpos = some k ∧ decodeNext k s = .next t := by
  unfold takeNextCode at h
  split at h
  · cases h
  · rename_i k hk; exact ⟨k, hk, h⟩

/-- What `DE.RESOLVE` answers, case by case (40_dictionary_engine.md R124). -/
theorem engineResolve_found {k : Code} {s : State} {entry : List Byte} {f : Byte}
    (h : engineResolve k s = .found entry f) :
    k.toNat ≠ 256 ∧ k.toNat ≠ 257 ∧
      ((k.toNat < s.next.toNat ∧ phrase s k = some entry ∧ firstByte s k = some f) ∨
        ∃ p e, k.toNat = s.next.toNat ∧ previousEntry s = some p ∧ phrase s p = some e ∧ firstByte s p = some f ∧
          entry = e ++ [f]) := by
  unfold engineResolve at h
  split at h
  · cases h
  split at h
  · cases h
  rename_i h₁ h₂
  refine ⟨by tauto, by tauto, ?_⟩
  split at h
  · rename_i h₃
    split at h
    · cases h
    · split at h
      · rename_i _ p hp _ _ e f' he hf; cases h; exact .inr ⟨p, e, h₃, hp, he, hf, rfl⟩
      · cases h
  · split at h
    · rename_i _ _ e f' he hf; cases h; exact .inl ⟨by omega, he, hf⟩
    · cases h

theorem engineResolve_desync {k : Code} {s : State} {sub : BitVec 2} (h : engineResolve k s = .desync sub) :
    (s.next.toNat < k.toNat ∧ sub = 1) ∨ (k.toNat ≤ s.next.toNat ∧ (k.toNat = 256 ∨ k.toNat = 257) ∧ sub = 2) := by
  unfold engineResolve at h
  split at h
  · cases h; exact .inl ⟨‹_›, rfl⟩
  split at h
  · cases h; exact .inr ⟨by omega, ‹_›, rfl⟩
  split at h
  · split at h
    · cases h
    · split at h <;> cases h
  · split at h <;> cases h

end Machine

end Sys2Proof
end

