-- ==== Sys2Proof/Laws/Step.lean ====
section
/-! SUPPORT. What one step can do, said once: a host move, a command, or one of the eleven core steps. -/

namespace Sys2Proof.Machine

/-- The state with the host's list replaced. -/
abbrev State.withHost (s : State) (h : List HostMove) : State := { s with host := h }

/-- The core's turn: a selected step ran, or nobody had anything to do. -/
theorem coreTurn_next {u t : State} (h : (match coreTurn u with
    | .run i v => exec i v
    | .moved v => .next v
    | .rest v => .next v) = Host.Outcome.next t) :
    (∃ i, selectStep u = some i ∧ exec i u = .next t) ∨ (selectStep u = none ∧ t = u) := by
  unfold coreTurn at h
  cases hs : selectStep u with
  | none => rw [hs] at h; cases h; exact .inr ⟨rfl, rfl⟩
  | some i => rw [hs] at h; exact .inl ⟨i, rfl, h⟩

/-- Whose turn it was, and what was done. -/
theorem step_next {s t : State} (h : step s = .next t) :
    ∃ rest, ((∃ i, selectStep (s.withHost rest) = some i ∧ exec i (s.withHost rest) = .next t) ∨
      (selectStep (s.withHost rest) = none ∧ t = s.withHost rest)) ∨
      (∃ w, exec (commandOf w) (s.withHost rest) = .next t) ∨
      (∃ i b, t = hostWriteIbuf i b (s.withHost rest)) ∨
      (∃ r v, t = hostWriteReg r v (s.withHost rest)) ∨
      (∃ r, t = hostReadReg r (s.withHost rest)) ∨
      ∃ i, t = hostReadObuf i (s.withHost rest) := by
  unfold step fetch at h
  match hh : s.host with
  | [] => rw [hh] at h; exact ⟨s.host, .inl (coreTurn_next h)⟩
  | .pass :: rest => rw [hh] at h; exact ⟨rest, .inl (coreTurn_next h)⟩
  | .poll :: rest =>
    rw [hh] at h
    by_cases hb : busy s = true
    · simp only [hb, if_true] at h; exact ⟨s.host, .inl (coreTurn_next h)⟩
    · simp only [hb] at h; cases h
      exact ⟨rest, .inr (.inr (.inr (.inr (.inl ⟨_, rfl⟩))))⟩
  | .writeIbuf i b :: rest =>
    rw [hh] at h; cases h; exact ⟨rest, .inr (.inr (.inl ⟨_, _, rfl⟩))⟩
  | .readReg r :: rest =>
    rw [hh] at h; cases h; exact ⟨rest, .inr (.inr (.inr (.inr (.inl ⟨_, rfl⟩))))⟩
  | .readObuf i :: rest =>
    rw [hh] at h; cases h; exact ⟨rest, .inr (.inr (.inr (.inr (.inr ⟨_, rfl⟩))))⟩
  | .writeReg r v :: rest =>
    rw [hh] at h
    cases r
    case cmd => exact ⟨rest, .inr (.inl ⟨_, h⟩)⟩
    all_goals cases h; exact ⟨rest, .inr (.inr (.inr (.inl ⟨_, _, rfl⟩)))⟩

/-- What a selected step did, by phase (44_codec_commands.md R198). -/
theorem exec_selected {s t : State} {i : Instr} (hs : selectStep s = some i) (h : exec i s = .next t) :
    (s.phase = .encRun ∧ s.ipos < s.ilen ∧ encodeByte s = .next t) ∨
    (s.phase = .encRun ∧ s.ilen ≤ s.ipos ∧ t = { s with phase := .encFlush }) ∨
    (s.phase = .encFlush ∧ flushPrefix s = .next t) ∨
    (s.phase = .packRun ∧ s.cpos < s.clen ∧ packCode s = .next t) ∨
    (s.phase = .packRun ∧ s.clen ≤ s.cpos ∧ t = { s with phase := .packPad }) ∨
    (s.phase = .packPad ∧ t = padLastByte s) ∨
    (s.phase = .unpackRun ∧ s.upos + s.uwidth.toNat ≤ 8 * s.ilen ∧ unpackCode s = .next t) ∨
    (s.phase = .unpackRun ∧ 8 * s.ilen < s.upos + s.uwidth.toNat ∧ t = { s with phase := .decFirst }) ∨
    (s.phase = .decFirst ∧ takeFirstCode s = .next t) ∨
    (s.phase = .decRun ∧ s.cpos < s.clen ∧ takeNextCode s = .next t) ∨
    (s.phase = .decRun ∧ s.clen ≤ s.cpos ∧ t = { s with phase := .done }) := by
  have go : ∀ {r : Result}, whenSelected i s r = .next t → r = .next t := fun hr => (whenSelected_next.1 hr).2
  have key := hs
  unfold selectStep at key
  cases hp : s.phase <;> simp only [hp, Option.some.injEq, reduceCtorEq] at key
  · split at key <;> cases key <;> have := go h
    · simp_all
    · cases this; simp; omega
  · cases key; have := go h; simp_all
  · split at key <;> cases key <;> have := go h
    · simp_all
    · cases this; simp; omega
  · cases key; have := go h; cases this; simp
  · split at key <;> cases key <;> have := go h
    · simp_all
    · cases this; simp; omega
  · cases key; have := go h; simp_all
  · split at key <;> cases key <;> have := go h
    · simp_all
    · cases this; simp; omega

/-- Command words never stop, and either leave the state or start a command (44_codec_commands.md R195 to R197, R210). -/
theorem exec_command {s t : State} {w : BitVec 2} (h : exec (commandOf w) s = .next t) :
    t = s ∨ (busy s = false ∧ (t = commandStart .encRun s ∨ t = commandStart .unpackRun s)) := by
  unfold commandOf at h
  split at h
  · cases h; exact .inl rfl
  · simp only [exec, execCompress, writeCommand] at h
    cases h; split
    · exact .inl rfl
    · exact .inr ⟨by simp_all, .inl rfl⟩
  · simp only [exec, execDecompress, writeCommand] at h
    cases h; split
    · exact .inl rfl
    · exact .inr ⟨by simp_all, .inr rfl⟩
  · cases h; exact .inl rfl

end Sys2Proof.Machine
end

