-- ==== Sys2Proof/Laws/Moves.lean ====
section
/-! SUPPORT. The shared operations in the words claims use: what was appended, advanced, inserted, and the bits of a code. -/

namespace Sys2Proof.Machine

/-- An append of one element (00_scope.md R14). -/
theorem appended_one {α} (m : Memory α) (n : Nat) (x : α) : appended m (Memory.write m n x) n [x] := by
  intro i; rw [Memory.read_write]; by_cases h : i = n
  · subst h; simp
  · rw [if_neg h, if_neg (by simp; omega)]

/-- `SCHED` is the threshold arithmetic (43_bit_packer.md R176). -/
theorem advanced_schedule (c : Count) (w : Width) : advanced c w (schedule c w).1 (schedule c w).2 := by
  have hc := c.isLt
  unfold schedule advanced
  simp only [Config.cap, Config.maxWidth]
  constructor
  · intro h
    have h1 : (c + 1).toNat = c.toNat + 1 := by rw [BitVec.toNat_add]; simp; omega
    rw [if_pos h, h1]
    split
    · rename_i hh
      refine ⟨h1, ?_⟩
      show (w+1).toNat = _
      rw [BitVec.toNat_add]; simp; omega
    · exact ⟨h1, rfl⟩
  · intro h; rw [if_neg (by omega)]; exact ⟨rfl, rfl⟩

/-- `DE.INSERT` is what R122 says, whatever else differs (40_dictionary_engine.md R122). -/
theorem inserted_engine (p : Code) (c : Byte) (s s0 : State) (h : s.dict = s0.dict ∧ s.next = s0.next ∧ s.width = s0.width) : inserted p c s0 (engineInsert p c s) := by
  obtain ⟨a, b, d⟩ := h
  rcases engineInsert_cases p c s with ⟨hlt, h'⟩ | ⟨hge, h'⟩ <;> rw [h']
  · simp only [Config.cap] at hlt
    refine ⟨?_, ?_⟩
    · intro k; simp only [Memory.read_write, ← a, ← b]; by_cases hk : k = s.next.toNat <;> simp [hk, hlt]
    · simp only [← b, ← d]; exact advanced_schedule _ _
  · simp only [Config.cap] at hge
    refine ⟨?_, ?_⟩
    · intro k; rw [← b, if_neg (by omega), a]
    · rw [← b, ← d]; exact ⟨fun h => by omega, fun _ => ⟨rfl, rfl⟩⟩

/-- `AppendAll` writes `OBUF` and `OLEN` only. -/
theorem appendBytes_eq (bs : List Byte) (s : State) : appendBytes bs s = { s with obuf := (appendBytes bs s).obuf, olen := s.olen + bs.length } := by
  induction bs generalizing s with
  | nil => rfl
  | cons b bs ih => rw [appendBytes, ih]; simp [appendByte]; omega

/-- What `AppendAll` leaves in `OBUF`. -/
theorem appended_appendBytes (bs : List Byte) (s : State) : appended s.obuf (appendBytes bs s).obuf s.olen bs := fun i => appendBytes_read bs s i

/-- What `PACK_PUT` writes (43_bit_packer.md R177). -/
theorem putCode_eq (k : Nat) (s : State) : putCode k s = { s with
   obuf := (putCode k s).obuf, olen := (putCode k s).olen, acc := (putCode k s).acc, accn := (putCode k s).accn, pcnt := (putCode k s).pcnt, pwidth := (putCode k s).pwidth, cpos := s.cpos + 1 } := by
  unfold putCode
  simp only []
  rw [appendBytes_eq]

/-- The bits read are the sum of the bits at their weights (30_encoding.md R94). -/
theorem readBits_sum (bit : Nat → Option Bool) (f : Nat → Bool) (p w : Nat) (h : ∀ j, j < w → bit (p + j) = some (f j)) :
   readBits bit p w = some (∑ j ∈ Finset.range w, (f j).toNat * 2 ^ (w - 1 - j)) := by
  induction w with
  | zero => rfl
  | succ w ih =>
    rw [readBits, ih (fun j hj => h j (by omega)), h w (by omega)]
    simp only [Option.some.injEq, Finset.sum_range_succ]
    rw [Finset.mul_sum]
    congr 1
    · apply Finset.sum_congr rfl
      intro j hj
      have := Finset.mem_range.1 hj
      rw [show w + 1 - 1 - j = (w - 1 - j) + 1 by omega, pow_succ]; ring
    · simp

/-- The value of `w` bits fits `w` bits. -/
theorem sum_lt (f : Nat → Bool) (w : Nat) : (∑ j ∈ Finset.range w, (f j).toNat * 2 ^ (w - 1 - j)) < 2^w := by
  induction w with
  | zero => simp
  | succ w ih =>
    rw [Finset.sum_range_succ]
    have : ∑ j ∈ Finset.range w, (f j).toNat * 2 ^ (w + 1 - 1 - j) = 2 * ∑ j ∈ Finset.range w, (f j).toNat * 2 ^ (w - 1 - j) := by
      rw [Finset.mul_sum]
      apply Finset.sum_congr rfl
      intro j hj
      have := Finset.mem_range.1 hj
      rw [show w + 1 - 1 - j = (w - 1 - j) + 1 by omega, pow_succ]; ring
    rw [this]
    have : (f w).toNat ≤ 1 := by cases f w <;> simp
    simp; rw [pow_succ]; omega

/-- Bits that all have a value make a number. -/
theorem readBits_isSome (bit : Nat → Option Bool) (p w : Nat) (h : ∀ j, j < w → (bit (p+j)).isSome = true) : ∃ v, readBits bit p w = some v := by
  induction w with
  | zero => exact ⟨0, rfl⟩
  | succ w ih =>
    obtain ⟨v, hv⟩ := ih (fun j hj => h j (by omega))
    obtain ⟨b, hb⟩ := Option.isSome_iff_exists.1 (h w (by omega))
    exact ⟨_, by rw [readBits, hv, hb]⟩

/-- A code word has as many bits as its width. -/
theorem wordBits_length (w v : Nat) : (wordBits w v).length = w := by simp [wordBits]

/-- Two numbers written one behind the other are one number (30_encoding.md R93). -/
theorem wordBits_append (a w v k : Nat) (hk : k < 2^w) : wordBits a v ++ wordBits w k = wordBits (a + w) (v * 2^w + k) := by
  apply List.ext_getElem?
  intro j
  by_cases hj : j < a
  · rw [List.getElem?_append_left (by simpa [wordBits_length])]
    simp only [wordBits, List.getElem?_map, List.getElem?_range hj, List.getElem?_range (show j < a + w by omega), Option.map_some, Option.some.injEq]
    rw [Nat.mul_comm, Nat.testBit_two_pow_mul_add _ hk, if_neg (by omega)]
    congr 1; omega
  · rw [List.getElem?_append_right (by simpa [wordBits_length] using hj), wordBits_length]
    by_cases hj2 : j < a + w
    · simp only [wordBits, List.getElem?_map, List.getElem?_range (show j - a < w by omega), List.getElem?_range hj2, Option.map_some, Option.some.injEq]
      rw [Nat.mul_comm, Nat.testBit_two_pow_mul_add _ hk, if_pos (by omega)]
      congr 1; omega
    · rw [List.getElem?_eq_none (by rw [wordBits_length]; omega), List.getElem?_eq_none (by rw [wordBits_length]; omega)]

/-- Only the low bits are written. -/
theorem wordBits_mod (w v : Nat) : wordBits w (v % 2^w) = wordBits w v := by
  apply List.map_congr_left
  intro j hj
  have := List.mem_range.1 hj
  rw [Nat.testBit_mod_two_pow]; simp; omega

/-- The bytes cut off and the bits left over are the bits there were (43_bit_packer.md R177). -/
theorem wholeBytes_bits (n v : Nat) : Functional.bitsOf (wholeBytes v n) ++ wordBits (n % 8) (v % 2^(n%8)) = wordBits n v := by
  induction n using Nat.strongRecOn generalizing v with
  | _ n ih =>
    by_cases hn : n < 8
    · have : wholeBytes v n = [] := by unfold wholeBytes; split; omega; rfl
      rw [this, Nat.mod_eq_of_lt hn, wordBits_mod]; rfl
    · obtain ⟨m, rfl⟩ : ∃ m, n = m + 8 := ⟨n - 8, by omega⟩
      have hw : wholeBytes v (m+8) = BitVec.ofNat 8 (v / 2 ^ m) :: wholeBytes v m := by rw [wholeBytes]
      rw [hw, Functional.bitsOf, List.flatMap_cons, List.append_assoc]
      have := ih m (by omega) v
      unfold Functional.bitsOf at this
      rw [show (m+8)%8 = m % 8 by omega, this]
      rw [← wordBits_mod m v, show (BitVec.ofNat 8 (v / 2^m)).toNat = (v/2^m) % 2^8 by simp, wordBits_mod, wordBits_append _ _ _ _ (Nat.mod_lt _ (by positivity)), Nat.add_comm 8 m]
      congr 1
      exact Nat.div_add_mod' v (2^m)

/-- One more step of a run. -/
theorem run_succ {n : Nat} {s t : State} (h : step s = .next t) :
    Sys2Proof.core.run (n + 1) s = Sys2Proof.core.run n t := by
  have go : ∀ (M : Host.Core) (s t : M.State), M.step s = .next t → M.run (n + 1) s = M.run n t := by
    intro M s t h; simp [Host.Core.run, h]
  exact go Sys2Proof.core s t h

end Sys2Proof.Machine
end

