-- ==== Sys2Proof/Laws/PerInstr.lean ====
section
/-! SUPPORT. Laws per instruction: an instruction's encoded object lies in its row of spec/opcode_table.json. -/

namespace Sys2Proof.Laws.EncodesInRow

/-- The encoded object of a well-formed instruction, under its row's mask, is its row's match value (30_encoding.md R100,
R104, R106; the row's `mask` and `match`). -/
def Statement (i : Instr) : Prop :=
  ∀ e mask value, i.wellFormed = true → encode i = some e → i.tableRow = some (mask, value) → e.value &&& mask = value

theorem nop : Statement .nop := by
  intro e m v _ he hr; cases he; cases hr; rfl

theorem compress : Statement .compress := by
  intro e m v _ he hr; cases he; cases hr; rfl

theorem decompress : Statement .decompress := by
  intro e m v _ he hr; cases he; cases hr; rfl

theorem cmdReserved : Statement .cmdReserved := by
  intro e m v _ he hr; cases he; cases hr; rfl

theorem encStep : Statement .encStep := by
  intro e m v _ he hr; cases he; cases hr; rfl

theorem encEoi : Statement .encEoi := by
  intro e m v _ he hr; cases he; cases hr; rfl

theorem encFlush : Statement .encFlush := by
  intro e m v _ he hr; cases he; cases hr; rfl

theorem packPut : Statement .packPut := by
  intro e m v _ he hr; cases he; cases hr; rfl

theorem packEoc : Statement .packEoc := by
  intro e m v _ he hr; cases he; cases hr; rfl

theorem packPad : Statement .packPad := by
  intro e m v _ he hr; cases he; cases hr; rfl

theorem unpackGet : Statement .unpackGet := by
  intro e m v _ he hr; cases he; cases hr; rfl

theorem unpackStop : Statement .unpackStop := by
  intro e m v _ he hr; cases he; cases hr; rfl

theorem decFirst : Statement .decFirst := by
  intro e m v _ he hr; cases he; cases hr; rfl

theorem decNext : Statement .decNext := by
  intro e m v _ he hr; cases he; cases hr; rfl

theorem decEnd : Statement .decEnd := by
  intro e m v _ he hr; cases he; cases hr; rfl

theorem deReset : Statement .deReset :=
  fun _ _ _ _ _ hr => nomatch hr

theorem deLookup (p : Option Code) (c : Byte) : Statement (.deLookup p c) :=
  fun _ _ _ _ _ hr => nomatch hr

theorem deInsert (p : Code) (c : Byte) : Statement (.deInsert p c) :=
  fun _ _ _ _ _ hr => nomatch hr

theorem deResolve (k : Code) (idx : Nat) : Statement (.deResolve k idx) :=
  fun _ _ _ _ _ hr => nomatch hr

theorem deGrow (p : Code) (f : Byte) : Statement (.deGrow p f) :=
  fun _ _ _ _ _ hr => nomatch hr

theorem sched (cnt : Count) (width : Width) : Statement (.sched cnt width) :=
  fun _ _ _ _ _ hr => nomatch hr

theorem cw9 (k : BitVec 9) : Statement (.cw9 k) :=
  fun _ _ _ _ _ hr => nomatch hr

theorem cw10 (k : BitVec 10) : Statement (.cw10 k) :=
  fun _ _ _ _ _ hr => nomatch hr

theorem cw11 (k : BitVec 11) : Statement (.cw11 k) :=
  fun _ _ _ _ _ hr => nomatch hr

theorem cw12 (k : BitVec 12) : Statement (.cw12 k) :=
  fun _ _ _ _ _ hr => nomatch hr

theorem cw13 (k : BitVec 13) : Statement (.cw13 k) :=
  fun _ _ _ _ _ hr => nomatch hr

theorem cw14 (k : BitVec 14) : Statement (.cw14 k) :=
  fun _ _ _ _ _ hr => nomatch hr

theorem cw15 (k : BitVec 15) : Statement (.cw15 k) :=
  fun _ _ _ _ _ hr => nomatch hr

theorem cw16 (k : BitVec 16) : Statement (.cw16 k) :=
  fun _ _ _ _ _ hr => nomatch hr

theorem lit (c : Byte) : Statement (.lit c) := by
  intro e m v _ he hr
  simp only [encode, Instr.tableRow, Option.some.injEq, Prod.mk.injEq] at he hr
  obtain ⟨rfl, rfl⟩ := hr
  subst he
  revert c; decide

theorem rsv (r : BitVec 1) : Statement (.rsv r) := by
  intro e m v _ he hr
  simp only [encode, Instr.tableRow, Option.some.injEq, Prod.mk.injEq] at he hr
  obtain ⟨rfl, rfl⟩ := hr
  subst he
  revert r; decide

theorem phr (k : Code) : Statement (.phr k) :=
  fun _ _ _ _ _ hr => nomatch hr

theorem kwk (k : Code) : Statement (.kwk k) :=
  fun _ _ _ _ _ hr => nomatch hr

theorem bad (k : Code) : Statement (.bad k) :=
  fun _ _ _ _ _ hr => nomatch hr

end Sys2Proof.Laws.EncodesInRow
end

