-- ==== Sys2Proof/Laws/Phrase.lean ====
section
/-! SUPPORT. The phrase of a code, resolving one, and the parts of the invariant the engine's writes keep. -/

namespace Sys2Proof.Machine

/-- More fuel than the code changes nothing (log entry 18). -/
theorem phraseWithin_fuel {s : State} (h : dictOk s) : ∀ k fuel, k < fuel → phraseWithin s fuel k = phraseWithin s (k+1) k := by
  intro k
  induction k using Nat.strongRecOn with
  | _ k ih =>
    intro fuel hf
    cases fuel with
    | zero => omega
    | succ fuel =>
      rw [phraseWithin, phraseWithin]
      split
      · rfl
      · cases he : dictEntry s k with
        | none => rfl
        | some e =>
          unfold dictEntry at he; split at he
          · have := (h.2 k e he).1
            simp only []
            rw [ih _ this fuel (by omega), ih _ this k (by omega)]
          · cases he

/-- The recursion of 10_state.md R50. -/
theorem phrase_step {s : State} (h : dictOk s) {k : Code} {e : Entry} (h1 : 258 ≤ k.toNat) (h2 : k.toNat < s.next.toNat) (he : Memory.read s.dict k.toNat = some e) :
    phrase s k = (phrase s e.pfx).map (· ++ [e.ch]) := by
  have hlt := (h.2 _ _ he).1
  unfold phrase
  rw [phraseWithin]
  have hd : dictEntry s k.toNat = some e := by unfold dictEntry; rw [if_pos ⟨h1, h2⟩]; exact he
  rw [if_neg (by show ¬ k.toNat < 256; omega), hd]
  simp only []
  rw [phraseWithin_fuel h _ _ hlt]

/-- A literal code is its one byte (10_state.md R50). -/
theorem phrase_lit (s : State) {k : Code} (h : k.toNat < 256) : phrase s k = some [k.setWidth 8] := by
  unfold phrase; rw [phraseWithin, if_pos h]
  congr 2

/-- A code that names no phrase has none (10_state.md R50). -/
theorem phrase_none (s : State) {k : Code} (h : ¬ present s k) : phrase s k = none := by
  unfold present at h
  unfold phrase; rw [phraseWithin]
  rw [if_neg (by tauto)]
  have : dictEntry s k.toNat = none := by unfold dictEntry; rw [if_neg (by tauto)]
  rw [this]

/-- A code that names a phrase has one, within the bound of 10_state.md R51 (d). -/
theorem phrase_present {s : State} (h : dictOk s) : ∀ n, ∀ k : Code, k.toNat = n → present s k → ∃ ph, phrase s k = some ph ∧ 1 ≤ ph.length ∧ (258 ≤ n → 2 ≤ ph.length ∧ ph.length ≤ n - 256) ∧ (n < 256 → ph.length = 1) := by
  intro n
  induction n using Nat.strongRecOn with
  | _ n ih =>
    intro k hk hp
    rcases hp with hp | hp
    · simp only [Config.nLit] at hp
      exact ⟨_, phrase_lit s hp, by simp, fun _ => by omega, fun _ => rfl⟩
    · simp only [Config.firstFree] at hp
      have hr := (h.1 k.toNat).2 hp
      obtain ⟨e, he⟩ := Option.isSome_iff_exists.1 hr
      have h2 := h.2 _ _ he
      have hpp : present s e.pfx := by
        rcases h2.2 with h3 | h3
        · exact .inl h3
        · exact .inr ⟨h3, by omega⟩
      obtain ⟨ph, hph, hl1, hl2, hl3⟩ := ih e.pfx.toNat (by omega) e.pfx rfl hpp
      refine ⟨ph ++ [e.ch], by rw [phrase_step h hp.1 hp.2 he, hph]; rfl, by simp, fun _ => ?_, fun _ => by omega⟩
      rcases h2.2 with h3 | h3
      · simp only [Config.nLit] at h3
        have := hl3 h3
        simp; omega
      · simp only [Config.firstFree] at h3
        have := hl2 h3
        simp; omega

/-- When `DE.RESOLVE` finds an entry (40_dictionary_engine.md R124). -/
theorem resolve_found {s : State} {k p : Code} {entry : List Byte} {f : Byte} (hv : s.pv = true) (hpc : s.pcode = some p) (h1 : k ≠ 256) (h2 : k ≠ 257)
    (h : (k.toNat < s.next.toNat ∧ phrase s k = some entry ∨
      k.toNat = s.next.toNat ∧ ∃ e, phrase s p = some e ∧ e[0]? = some f ∧ entry = e ++ [f])) (hf : entry[0]? = some f) : engineResolve k s = .found entry f := by
  have h1 : k.toNat ≠ 256 := fun h => h1 (BitVec.eq_of_toNat_eq (by simpa using h))
  have h2 : k.toNat ≠ 257 := fun h => h2 (BitVec.eq_of_toNat_eq (by simpa using h))
  unfold engineResolve
  have hpe : previousEntry s = some p := by simp [previousEntry, hv, hpc]
  rcases h with ⟨a, b⟩ | ⟨a, e, b, c, rfl⟩
  · rw [if_neg (by omega), if_neg (by omega), if_neg (by omega)]
    simp [b, firstByte, hf]
  · rw [if_neg (by omega), if_neg (by omega), if_pos (by omega)]
    simp [hpe, b, firstByte, c]

/-- `DEC_NEXT` on a code that names a phrase (42_decoder.md R157). -/
theorem decodeNext_found {s : State} {k p : Code} {entry : List Byte} {f : Byte} (hr : engineResolve k s = .found entry f) (hpe : previousEntry s = some p) :
   ∃ t, decodeNext k s = .next t ∧ t = { s with
        obuf := t.obuf, olen := s.olen + entry.length, dict := t.dict, next := t.next, width := t.width
        pcode := some k, cpos := s.cpos + 1 } ∧
      appended s.obuf t.obuf s.olen entry ∧ inserted p f s t := by
  refine ⟨_, by simp only [decodeNext, hr, hpe]; rfl, ?_, ?_, ?_⟩
  · rcases engineInsert_cases p f (appendBytes entry s) with ⟨_, h'⟩ | ⟨_, h'⟩ <;> rw [h'] <;> rw [appendBytes_eq]
  · have := appended_appendBytes entry s
    rcases engineInsert_cases p f (appendBytes entry s) with ⟨_, h'⟩ | ⟨_, h'⟩ <;> rw [h'] <;> exact this
  · have := inserted_engine p f (appendBytes entry s) s (by rw [appendBytes_eq]; exact ⟨rfl, rfl, rfl⟩)
    exact this

/-- A phrase stays present as `NEXT` grows. -/
theorem present_mono {s t : State} (h : s.next.toNat ≤ t.next.toNat) {k} (hp : present s k) : present t k := by
  rcases hp with hp | hp
  · exact .inl hp
  · exact .inr ⟨hp.1, by omega⟩

/-- `DE.INSERT` of a present prefix keeps the table in order (10_state.md R51 (a)). -/
theorem dictOk_insert {p : Code} {c : Byte} {s : State} (h : dictOk s) (hn : countOk s.next s.width) (hp : present s p) : dictOk (engineInsert p c s) := by
  rcases engineInsert_cases p c s with ⟨hlt, h'⟩ | ⟨hge, h'⟩
  · have hnx := engineInsert_next (p := p) (c := c) hn.2.1
    rw [h'] at hnx ⊢
    simp only [Config.cap] at *
    obtain ⟨h1, h2⟩ := h
    simp only [Config.firstFree, Config.nLit] at h1 h2
    have := hn.1
    simp only [Config.firstFree] at this
    unfold present at hp
    simp only [Config.firstFree, Config.nLit] at hp
    refine ⟨fun k => ?_, fun k e hk => ?_⟩
    · simp only [Memory.read_write, hnx, Config.firstFree]
      split
      · simp; omega
      · rw [h1 k]; omega
    · simp only [Memory.read_write] at hk
      split at hk
      · cases hk; show p.toNat < k ∧ (p.toNat < 256 ∨ 258 ≤ p.toNat); omega
      · exact h2 k e hk
  · rw [h']; exact h

/-- An append of a fitting code. -/
theorem codesFit_append {s : State} {w : Code} (h : codesFit s) (hw : (w.toNat < Config.nLit ∨ Config.firstFree ≤ w.toNat) ∧ w.toNat < codeCount (s.clen+1)) : codesFit (appendCode w s) := by
  intro j k hk
  simp only [appendCode, Memory.read_write] at hk
  split at hk
  · cases hk; subst_vars; exact hw
  · exact h j k hk

/-- A present code fits (41_encoder.md R146 (b)). -/
theorem present_fit {s : State} {w : Code} {i} (h : present s w) (hn : s.next.toNat = codeCount i) (hlo : 258 ≤ s.next.toNat) : (w.toNat < Config.nLit ∨ Config.firstFree ≤ w.toNat) ∧ w.toNat < codeCount i := by
  rcases h with h | h
  · exact ⟨.inl h, by simp [Config.nLit] at h; omega⟩
  · exact ⟨.inr h.1, by omega⟩

end Sys2Proof.Machine
end

