-- ==== Sys2Proof/Tests/Slice0.lean ====
section
/-! SUPPORT. The model's own tests: the checks of WellFormed, words written out from 30_encoding.md, single steps with the
results of 95_test_vectors.md and of the rules' worked examples, and for every statement with hypotheses a state that meets
them. -/

namespace Sys2Proof.Tests

open Sys2Proof.Machine

/-! ### WellFormed refuses an ill-formed term, check by check -/

theorem test_lookup_prefix_not_reserved : (Instr.deLookup (some 256) 0).wellFormed = false := by decide
theorem test_insert_prefix_not_reserved : (Instr.deInsert 257 0).wellFormed = false := by decide
theorem test_grow_prefix_not_reserved : (Instr.deGrow 256 0).wellFormed = false := by decide
theorem test_sched_count_too_low : (Instr.sched 257 9).wellFormed = false := by decide
theorem test_sched_count_too_high : (Instr.sched 65537 16).wellFormed = false := by decide
theorem test_sched_width_too_low : (Instr.sched 258 8).wellFormed = false := by decide
theorem test_sched_width_too_high : (Instr.sched 258 17).wellFormed = false := by decide
theorem test_phr_below_first_free : (Instr.phr 257).wellFormed = false := by decide
theorem test_kwk_below_first_free : (Instr.kwk 257).wellFormed = false := by decide
theorem test_bad_at_first_free : (Instr.bad 258).wellFormed = false := by decide
theorem test_wellFormed_accepts : (Instr.deLookup none 0).wellFormed ∧ (Instr.deInsert 255 0).wellFormed ∧
    (Instr.sched 258 9).wellFormed ∧ (Instr.sched 65536 16).wellFormed ∧ (Instr.phr 258).wellFormed ∧
    (Instr.bad 259).wellFormed := by decide

/-! ### Words of 30_encoding.md -/

/-- R104, the four values of `CMD[1:0]`. -/
theorem test_decode_commands : [0b00, 0b01, 0b10, 0b11].map (fun w : BitVec 2 => decode 258 (.command w)) =
    [.instr .nop, .instr .compress, .instr .decompress, .instr .cmdReserved] := by decide

/-- R106 with 10_state.md R31: the `PHASE` value and the comparison. -/
theorem test_decode_steps :
    [(1, true), (1, false), (2, true), (3, true), (3, false), (4, true), (5, true), (5, false), (6, true), (7, true),
      (7, false)].map (fun p : BitVec 4 × Bool => decode 258 (.selector p.1 p.2)) =
    [.instr .encStep, .instr .encEoi, .instr .encFlush, .instr .packPut, .instr .packEoc, .instr .packPad,
      .instr .unpackGet, .instr .unpackStop, .instr .decFirst, .instr .decNext, .instr .decEnd] := by decide

/-- 10_state.md R31: no step in `IDLE`, `DONE`, `ERR`; 10 to 15 never taken. -/
theorem test_decode_no_step :
    [0, 8, 9, 10, 15].map (fun p : BitVec 4 => decode 258 (.selector p true)) =
    [.reject (.phaseWithoutStep 0), .reject (.phaseWithoutStep 8), .reject (.phaseWithoutStep 9),
      .reject (.phaseNeverTaken 10), .reject (.phaseNeverTaken 15)] := by decide

/-- R91, R94: one word of each width, its bits written out, at bit position 0. -/
theorem test_decode_code_words :
    decodeBytes [0b10000001, 0b0_0000000] 0 9 = .instr (.cw9 258) ∧
    decodeBytes [0b10000000, 0b01_000000] 0 10 = .instr (.cw10 513) ∧
    decodeBytes [0b01000000, 0b001_00000] 0 11 = .instr (.cw11 513) ∧
    decodeBytes [0b00100000, 0b0001_0000] 0 12 = .instr (.cw12 513) ∧
    decodeBytes [0b00010000, 0b00001_000] 0 13 = .instr (.cw13 513) ∧
    decodeBytes [0b00001000, 0b000001_00] 0 14 = .instr (.cw14 513) ∧
    decodeBytes [0b00000100, 0b0000001_0] 0 15 = .instr (.cw15 513) ∧
    decodeBytes [0b00000010, 0b00000001] 0 16 = .instr (.cw16 513) := by decide

/-- 95_test_vectors.md V4: `20 C0 88 20` = `65:9 258:9 65:9`, and no fourth code. -/
theorem test_decode_code_words_unaligned :
    decodeBytes [0x20, 0xC0, 0x88, 0x20] 0 9 = .instr (.cw9 65) ∧
    decodeBytes [0x20, 0xC0, 0x88, 0x20] 9 9 = .instr (.cw9 258) ∧
    decodeBytes [0x20, 0xC0, 0x88, 0x20] 18 9 = .instr (.cw9 65) ∧
    decodeBytes [0x20, 0xC0, 0x88, 0x20] 27 9 = .reject (.truncated 27 9) := by decide

/-- R100, at `NEXT = 300`: both ends of every class. -/
theorem test_decode_classes : [0, 255, 256, 257, 258, 299, 300, 301, 65535].map (fun k : Code => decode 300 (.code k)) =
    [.instr (.lit 0), .instr (.lit 255), .instr (.rsv 0), .instr (.rsv 1), .instr (.phr 258), .instr (.phr 299),
      .instr (.kwk 300), .instr (.bad 301), .instr (.bad 65535)] := by decide

/-- R98: widths at the ends of the rows of the table. -/
theorem test_width_table : [1, 254, 255, 766, 767, 1790, 1791, 3838, 3839, 7934, 7935, 16126, 16127, 32510, 32511,
    65279, 100000].map codeWidth = [9, 9, 10, 10, 11, 11, 12, 12, 13, 13, 14, 14, 15, 15, 16, 16, 16] := by decide

/-! ### Single steps -/

/-- The next state of an outcome. -/
def nextOf : Host.Outcome State Fault Refusal → Option State
  | .next s => some s
  | .fault _ => none
  | .refused _ => none

/-- A memory that holds the elements of a list from index 0. -/
def mem {α : Type} (xs : List α) : Memory α := xs.zipIdx.map fun x => (x.2, x.1)

/-- A word of the opcode table that decodes is what the next step runs (log entries 3, 4). -/
def runsWord (nbits w : Nat) (after : State → Bool) : Bool :=
  (decodeTableWord nbits w).isSome && ((nextOf (step (State.reset.withFetchWord nbits w))).map after == some true)

theorem test_words_run_first :
    runsWord 8 0 (fun t => t == State.reset) ∧ runsWord 8 1 (fun t => t.phase == .encRun) ∧
    runsWord 8 2 (fun t => t.phase == .unpackRun) ∧ runsWord 8 3 (fun t => t == State.reset) ∧
    runsWord 8 4 (fun t => t.phase == .done) ∧ runsWord 8 5 (fun t => t.phase == .decFirst) ∧
    runsWord 8 6 (fun t => t.phase == .done) ∧ runsWord 8 7 (fun t => t.phase == .done) ∧
    runsWord 16 0x41 (fun t => t.obuf == [(0, 0x41)] && t.phase == .decRun) ∧
    runsWord 16 0x100 (fun t => t.phase == .err && t.errcode == 3) := by decide

/-- 95_test_vectors.md P1 after row 1: `COMPRESS "AAA"`, one byte taken. -/
def encState : State :=
  { State.reset with phase := .encRun, ibuf := mem [0x41, 0x41, 0x41], ilen := 3, ipos := 1, wv := true, wcode := some 65 }

/-- P1 rows 2 and 3: the miss, then the hit on the entry just written. -/
theorem test_encStep_miss_then_hit :
    (nextOf (exec .encStep encState)).map (fun t => (t.cbuf, t.dict, t.next, t.wcode)) =
      some ([(0, 65)], [(258, ⟨65, 0x41⟩)], 259, some 65) ∧
    ((nextOf (exec .encStep encState)).bind fun t => nextOf (exec .encStep t)).map
      (fun t => (t.clen, t.next, t.wcode, t.ipos)) = some (1, 259, some 258, 3) := by decide

/-- 10_state.md R58: a prefix that holds no value is not read. -/
theorem test_encStep_prefix_without_value :
    exec .encStep { encState with wcode := none } = .fault (.noValue .wcode) := by rfl

/-- 40_dictionary_engine.md R122, the example at the first boundary. -/
theorem test_insert_crosses_width :
    (nextOf (exec (.deInsert 65 66) { State.reset with next := 511 })).map (fun t => (t.dict, t.next, t.width)) =
      some ([(511, ⟨65, 66⟩)], 512, 10) := by decide

/-- R122, the last insert: `NEXT` 65535 to 65536 with `WIDTH = 16`; then frozen. -/
theorem test_insert_freezes :
    (nextOf (exec (.deGrow 1 2) { State.reset with next := 65535, width := 16 })).map
      (fun t => (t.next, t.width, frozen t)) = some (65536, 16, true) ∧
    nextOf (exec (.deGrow 1 2) { State.reset with next := 65536, width := 16 }) =
      some { State.reset with next := 65536, width := 16 } := by decide

/-- 43_bit_packer.md R176, the four examples. -/
theorem test_sched_examples :
    schedule 511 9 = (512, 10) ∧ schedule 512 10 = (513, 10) ∧ schedule 65535 16 = (65536, 16) ∧
    schedule 65536 16 = (65536, 16) := by decide

/-- P1 after row 5. -/
def packState : State :=
  { State.reset with
    phase := .packRun, ibuf := mem [0x41, 0x41, 0x41], ilen := 3, ipos := 3, cbuf := mem [65, 258], clen := 2
    next := 259, dict := [(258, ⟨65, 0x41⟩)] }

/-- 43_bit_packer.md R177, the example: both codes of `"AAA"`. -/
theorem test_packPut_two_codes :
    (nextOf (exec .packPut packState)).map (fun t => (t.obuf, t.acc, t.accn, t.pcnt)) =
      some ([(0, 0x20)], 1, 1, 259) ∧
    ((nextOf (exec .packPut packState)).bind fun t => nextOf (exec .packPut t)).map
      (fun t => (t.obuf, t.acc, t.accn, t.cpos)) = some ([(0, 0x20), (1, 0xC0)], 2, 2, 2) := by decide

/-- 95_test_vectors.md P6 step 513: 6 bits pending, code 254 at 10 bits, two bytes and no bit left. -/
theorem test_packPut_two_bytes :
    (nextOf (exec .packPut { packState with
      cbuf := mem [254], clen := 1, acc := 0b111101, accn := 6, pcnt := 512, pwidth := 10 })).map
      (fun t => (t.olen, t.accn, t.pcnt, t.pwidth)) = some (2, 0, 513, 10) := by decide

/-- R178, the example: two pending bits `10`. -/
theorem test_packPad_high_end :
    (nextOf (exec .packPad { packState with phase := .packPad, cpos := 2, acc := 2, accn := 2, olen := 2 })).map
      (fun t => (t.obuf, t.olen, t.phase)) = some ([(2, 0x80)], 3, .done) := by decide

/-- P2 after row 0: `DECOMPRESS 20 C0 80`. -/
def unpackState : State :=
  { State.reset with phase := .unpackRun, ibuf := mem [0x20, 0xC0, 0x80], ilen := 3 }

/-- 43_bit_packer.md R180, the example: 65, then 258. -/
theorem test_unpackGet_two_codes :
    ((nextOf (exec .unpackGet unpackState)).bind fun t => nextOf (exec .unpackGet t)).map
      (fun t => (t.cbuf, t.upos, t.ucnt, t.uwidth)) = some ([(0, 65), (1, 258)], 18, 260, 9) := by decide

/-- The same codes as code words, under the unpacker and under the packer (30_encoding.md R93, R94). -/
theorem test_code_words_run :
    (nextOf (exec (.cw9 65) unpackState)).map (fun t => (t.cbuf, t.upos)) = some ([(0, 65)], 9) ∧
    (nextOf (exec (.cw10 513) { packState with pcnt := 512, pwidth := 10 })).map
      (fun t => (t.obuf, t.acc, t.accn)) = some ([(0, 0x80)], 1, 2) ∧
    nextOf (exec (.cw9 65) { unpackState with uwidth := 10 }) = none := by decide

/-- P2 after row 3. -/
def firstState : State :=
  { State.reset with
    phase := .decFirst, ibuf := mem [0x20, 0xC0, 0x80], ilen := 3, cbuf := mem [65, 258], clen := 2, upos := 18
    ucnt := 260 }

/-- P2 after row 4: the code 258 equals `NEXT`. -/
def decState : State :=
  { firstState with phase := .decRun, obuf := mem [0x41], olen := 1, pv := true, pcode := some 65, cpos := 1 }

/-- 42_decoder.md R156, the example. -/
theorem test_decFirst_literal : nextOf (exec .decFirst firstState) = some decState := by decide

/-- 42_decoder.md R157, the example: the `code = NEXT` case. -/
theorem test_decNext_kwk :
    (nextOf (exec .decNext decState)).map (fun t => (t.obuf, t.dict, t.next, t.pcode)) =
      some (mem [0x41, 0x41, 0x41], [(258, ⟨65, 0x41⟩)], 259, some 258) := by decide

/-- 95_test_vectors.md P3 row 8: a phrase already in the dictionary. -/
theorem test_decNext_phrase :
    (nextOf (exec .decNext { decState with
      cbuf := mem [65, 66, 258], clen := 3, cpos := 2, dict := [(258, ⟨65, 0x42⟩)], next := 259, pcode := some 66
      obuf := mem [0x41, 0x42], olen := 2 })).map (fun t => (t.obuf, t.dict, t.pcode)) =
      some (mem [0x41, 0x42, 0x41, 0x42], [(258, ⟨65, 0x42⟩), (259, ⟨66, 0x41⟩)], some 258) := by decide

/-- Vectors V14, V15, V17: the error registers; `OLEN` 0, nothing else moved. -/
theorem test_decNext_errors :
    [260, 259, 256].map (fun k : Code => (nextOf (exec .decNext { decState with cbuf := mem [65, k] })).map
      (fun t => (t.phase, t.errcode, t.errval, t.erridx))) =
    [some (.err, 1, 260, 1), some (.err, 1, 259, 1), some (.err, 2, 256, 1)] ∧
    (nextOf (exec .decNext { decState with cbuf := mem [65, 260] })).map
      (fun t => (t.olen, t.pcode, t.cpos, t.next)) = some (0, some 65, 1, 258) := by decide

/-- Vector V16: first code 258. -/
theorem test_decFirst_error :
    (nextOf (exec .decFirst { firstState with cbuf := mem [258], clen := 1 })).map
      (fun t => (t.phase, t.errcode, t.errval, t.erridx, t.olen)) = some (.err, 3, 258, 0, 0) := by decide

/-- The classes of the same codes (30_encoding.md R100). -/
theorem test_classes_run :
    (nextOf (exec (.kwk 258) decState)).map (fun t => (t.olen, t.pcode)) = some (3, some 258) ∧
    (nextOf (exec (.lit 0x42) decState)).map (fun t => (t.obuf, t.pcode)) = some (mem [0x41, 0x42], some 66) ∧
    (nextOf (exec (.rsv 1) decState)).map (fun t => (t.errcode, t.errval)) = some (2, 257) ∧
    (nextOf (exec (.bad 259) decState)).map (fun t => (t.errcode, t.errval)) = some (1, 259) := by decide

/-- 40_dictionary_engine.md R121 and R124, the examples. -/
theorem test_engine_examples :
    engineLookup (some 65) 65 { packState with phase := .encRun } = some 258 ∧
    engineLookup (some 65) 66 packState = none ∧ engineLookup none 66 packState = some 66 ∧
    engineResolve 258 decState = .found [0x41, 0x41] 0x41 ∧ engineResolve 259 decState = .desync 1 ∧
    engineResolve 66 decState = .found [0x42] 0x42 := by decide

/-- 95_test_vectors.md T104: a command after an error clears it. -/
theorem test_start_after_error :
    (nextOf (exec .decompress { decState with phase := .err, errcode := 1, errval := 260, erridx := 1 })).map
      (fun t => (t.phase, t.errcode, t.errval, t.erridx, statusWord t)) = some (.unpackRun, 0, 0, 0, 0x01) := by decide

/-- 44_codec_commands.md R210: a command and a write of `ILEN` while `BUSY = 1`. -/
theorem test_busy_writes_ignored :
    nextOf (exec .compress decState) = some decState ∧
    nextOf (step { decState with host := [.writeReg .ilen 7] }) = some decState := by decide

/-- The functional view on vectors V3, V4, V12 and V17. -/
theorem test_functional_vectors :
    Functional.compress [0x41, 0x41, 0x41] = some [0x20, 0xC0, 0x80] ∧
    Functional.encode [0x41, 0x41, 0x41, 0x41] = [65, 258, 65] ∧
    Functional.decompress [0x20, 0xC0, 0x80] = .bytes [0x41, 0x41, 0x41] ∧
    Functional.decompress [0x20, 0xC0, 0x00] = .desync 2 256 1 := by decide

/-! ### States that meet the invariant, for the statements that assume it -/

theorem read_mem {α : Type} (xs : List α) (i : Nat) : Memory.read (mem xs) i = xs[i]? := by
  have go : ∀ (xs : List α) (n i : Nat), Memory.read ((xs.zipIdx n).map fun x => (x.2, x.1)) i =
      if n ≤ i then xs[i - n]? else none := by
    intro xs
    induction xs with
    | nil => intro n i; simp
    | cons x xs ih =>
      intro n i
      rw [List.zipIdx_cons, List.map_cons, Memory.read_cons]
      split
      · subst_vars; simp
      · rw [ih]
        by_cases h : n ≤ i
        · rw [if_pos h, if_pos (by omega), show i - n = (i - (n + 1)) + 1 by omega, List.getElem?_cons_succ]
        · rw [if_neg h, if_neg (by omega)]
  have := go xs 0 i
  rw [if_pos (Nat.zero_le _)] at this
  exact this

theorem holdsExactly_mem {α : Type} (xs : List α) : holdsExactly (mem xs) xs.length := by
  intro i; rw [read_mem]; simp

theorem dictOk_empty {s : State} (h : s.dict = []) (hn : s.next = 258) : dictOk s := by
  unfold dictOk
  rw [h, hn]
  refine ⟨fun k => ?_, fun k e he => nomatch he⟩
  simp [Config.firstFree]

theorem dictOk_one {s : State} {e : Entry} (h : s.dict = [(258, e)]) (hn : s.next = 259) (he : e.pfx.toNat < 256) :
    dictOk s := by
  unfold dictOk
  rw [h, hn]
  refine ⟨fun k => ?_, fun k e' he' => ?_⟩
  · simp only [Memory.read_cons, Memory.read_nil, Config.firstFree]
    split
    · simp; omega
    · simp; omega
  · rw [Memory.read_cons] at he'
    split at he'
    · cases he'; exact ⟨by omega, .inl he⟩
    · cases he'

theorem entriesDistinct_one {s : State} {e : Entry} (h : s.dict = [(258, e)]) : entriesDistinct s := by
  unfold entriesDistinct
  rw [h]
  intro k l e' hk hl
  rw [Memory.read_cons] at hk hl
  split at hk <;> split at hl <;> simp_all

theorem entriesDistinct_empty {s : State} (h : s.dict = []) : entriesDistinct s := by
  unfold entriesDistinct
  rw [h]
  exact fun _ _ _ hk => nomatch hk

theorem countOk_start : countOk 258 9 := by unfold countOk; decide

theorem codesFit_mem {s : State} {ks : List Code} (h : s.cbuf = mem ks)
    (hk : ∀ j, j < ks.length → (ks[j]!.toNat < 256 ∨ 258 ≤ ks[j]!.toNat) ∧ ks[j]!.toNat < codeCount (j + 1)) :
    codesFit s := by
  intro j k hr
  rw [h, read_mem] at hr
  obtain ⟨hj, rfl⟩ := List.getElem?_eq_some_iff.1 hr
  have := hk j hj
  rw [List.getElem!_eq_getElem?_getD, hr] at this
  exact this

theorem codesFit_empty {s : State} (h : s.cbuf = []) : codesFit s := by
  unfold codesFit
  rw [h]
  exact fun _ _ hk => nomatch hk

theorem prefixesOk_none {s : State} (h₁ : s.wv = false) (h₂ : s.wcode = none) (h₃ : s.pv = false) (h₄ : s.pcode = none) :
    prefixesOk s := by
  unfold prefixesOk
  simp [h₁, h₂, h₃, h₄]

theorem prefixesOk_encoder {s : State} {k : Code} (h₁ : s.wv = true) (h₂ : s.wcode = some k) (h₃ : s.pv = false)
    (h₄ : s.pcode = none) (hk : k.toNat < 256) : prefixesOk s := by
  refine ⟨by rw [h₁, h₂]; rfl, by rw [h₃, h₄]; rfl, fun k' hk' => ?_, fun k' hk' => ?_⟩
  · rw [h₂] at hk'; cases hk'; exact .inl hk
  · rw [h₄] at hk'; cases hk'

theorem prefixesOk_decoder {s : State} {k : Code} (h₁ : s.wv = false) (h₂ : s.wcode = none) (h₃ : s.pv = true)
    (h₄ : s.pcode = some k) (hk : k.toNat < 256) : prefixesOk s := by
  refine ⟨by rw [h₁, h₂]; rfl, by rw [h₃, h₄]; rfl, fun k' hk' => ?_, fun k' hk' => ?_⟩
  · rw [h₂] at hk'; cases hk'
  · rw [h₄] at hk'; cases hk'; exact .inl hk

theorem inv_encState : Inv encState where
  memories := by unfold memoriesCanonical; decide
  counters := ⟨countOk_start, countOk_start, countOk_start⟩
  dict := dictOk_empty rfl rfl
  prefixes := prefixesOk_encoder rfl rfl rfl rfl (by decide)
  buffers := ⟨holdsExactly_mem [], fun _ => holdsExactly_mem []⟩
  pending := by unfold pendingOk; decide
  errors := by unfold errorsOk; decide
  phase := ⟨by decide, by decide, by decide, rfl, by unfold packerFresh; decide, codesFit_empty rfl, entriesDistinct_empty rfl⟩

theorem inv_packState : Inv packState where
  memories := by unfold memoriesCanonical; decide
  counters := ⟨by unfold countOk; decide, countOk_start, countOk_start⟩
  dict := dictOk_one rfl rfl (by decide)
  prefixes := prefixesOk_none rfl rfl rfl rfl
  buffers := ⟨holdsExactly_mem [65, 258], fun _ => holdsExactly_mem []⟩
  pending := by unfold pendingOk; decide
  errors := by unfold errorsOk; decide
  phase := ⟨by decide, by decide, by decide, by decide, codesFit_mem rfl (by decide), entriesDistinct_one rfl⟩

/-- P1 after row 8. -/
def padState : State :=
  { packState with
    phase := .packPad, cpos := 2, obuf := mem [0x20, 0xC0], olen := 2, acc := 2, accn := 2, pcnt := 260 }

theorem inv_padState : Inv padState where
  memories := by unfold memoriesCanonical; decide
  counters := ⟨by unfold countOk; decide, by unfold countOk; decide, countOk_start⟩
  dict := dictOk_one rfl rfl (by decide)
  prefixes := prefixesOk_none rfl rfl rfl rfl
  buffers := ⟨holdsExactly_mem [65, 258], fun _ => holdsExactly_mem [0x20, 0xC0]⟩
  pending := by unfold pendingOk; decide
  errors := by unfold errorsOk; decide
  phase := ⟨by decide, by decide, by decide, codesFit_mem rfl (by decide), entriesDistinct_one rfl⟩

theorem inv_unpackState : Inv unpackState where
  memories := by unfold memoriesCanonical; decide
  counters := ⟨countOk_start, countOk_start, countOk_start⟩
  dict := dictOk_empty rfl rfl
  prefixes := prefixesOk_none rfl rfl rfl rfl
  buffers := ⟨holdsExactly_mem [], fun _ => holdsExactly_mem []⟩
  pending := by unfold pendingOk; decide
  errors := by unfold errorsOk; decide
  phase := ⟨rfl, rfl, rfl, rfl, rfl, by decide, rfl⟩

/-- Vector V16 after its first steps: the first code is 258. -/
def firstBadState : State := { firstState with cbuf := mem [258], clen := 1 }

theorem inv_firstBadState : Inv firstBadState where
  memories := by unfold memoriesCanonical; decide
  counters := ⟨countOk_start, countOk_start, by unfold countOk; decide⟩
  dict := dictOk_empty rfl rfl
  prefixes := prefixesOk_none rfl rfl rfl rfl
  buffers := ⟨holdsExactly_mem [258], fun _ => holdsExactly_mem []⟩
  pending := by unfold pendingOk; decide
  errors := by unfold errorsOk; decide
  phase := ⟨rfl, rfl, rfl, rfl, by decide⟩

/-- P2 after row 4, with `k` as the second code. -/
def decStateOf (k : Code) : State := { decState with cbuf := mem [65, k] }

theorem inv_decStateOf (k : Code) : Inv (decStateOf k) where
  memories := ⟨show Memory.wf (mem [0x20, 0xC0, 0x80] : List Host.Cell) by decide,
    show Memory.wf (mem [0x41] : List Host.Cell) by decide, by simp [decStateOf, mem, Memory.wf], .nil⟩
  counters := ⟨countOk_start, countOk_start, show countOk 260 9 by unfold countOk; decide⟩
  dict := dictOk_empty rfl rfl
  prefixes := prefixesOk_decoder rfl rfl rfl rfl (by decide : (65 : Code).toNat < 256)
  buffers := ⟨holdsExactly_mem [65, k], fun _ => holdsExactly_mem [0x41]⟩
  pending := show (0 : BitVec 7).toNat < 2 ^ (0 : BitVec 3).toNat by decide
  errors := ⟨⟨fun h => absurd rfl h, fun h => nomatch h⟩, fun _ => ⟨rfl, rfl⟩⟩
  phase := ⟨Nat.le_refl 1, show 1 ≤ 2 by decide, rfl, rfl, show bitTotal 2 ≤ 8 * 3 by decide⟩

/-- A full dictionary: entry `k` is `(k mod 256, k div 256)`. -/
def fullDict : Memory Entry :=
  (List.range' 258 65278).map fun k => (k, ⟨BitVec.ofNat 16 (k % 256), BitVec.ofNat 8 (k / 256)⟩)

theorem read_table {α : Type} (f : Nat → α) (n a k : Nat) :
    Memory.read ((List.range' a n).map fun k => (k, f k)) k = if a ≤ k ∧ k < a + n then some (f k) else none := by
  induction n generalizing a with
  | zero => simp
  | succ n ih =>
    rw [List.range'_succ, List.map_cons, Memory.read_cons]
    split
    · subst_vars; simp
    · rw [ih]
      by_cases h : a ≤ k ∧ k < a + (n + 1)
      · rw [if_pos h, if_pos (by omega)]
      · rw [if_neg h, if_neg (by omega)]

/-- A frozen packer state. -/
def frozenState : State := { State.reset with phase := .packRun, next := 65536, width := 16, dict := fullDict }

theorem read_fullDict (k : Nat) : Memory.read fullDict k =
    if 258 ≤ k ∧ k < 65536 then some ⟨BitVec.ofNat 16 (k % 256), BitVec.ofNat 8 (k / 256)⟩ else none :=
  read_table (fun k => (⟨BitVec.ofNat 16 (k % 256), BitVec.ofNat 8 (k / 256)⟩ : Entry)) 65278 258 k

theorem inv_frozenState : Inv frozenState where
  memories := by
    refine ⟨.nil, .nil, .nil, ?_⟩
    show Memory.wf fullDict
    unfold Memory.wf fullDict
    rw [List.map_map]
    simpa [Function.comp_def] using List.pairwise_lt_range'
  counters := ⟨⟨by decide, by decide, by decide⟩, countOk_start, countOk_start⟩
  dict := by
    unfold dictOk
    simp only [show frozenState.dict = fullDict from rfl, read_fullDict]
    refine ⟨fun k => ?_, fun k e he => ?_⟩
    · show _ ↔ 258 ≤ k ∧ k < 65536
      split <;> simp [*]
    · split at he
      · cases he
        rename_i hk
        have : (BitVec.ofNat 16 (k % 256)).toNat = k % 256 := by rw [BitVec.toNat_ofNat]; omega
        exact ⟨by rw [this]; omega, .inl (by rw [this]; exact Nat.mod_lt _ (by decide))⟩
      · cases he
  prefixes := prefixesOk_none rfl rfl rfl rfl
  buffers := ⟨holdsExactly_mem [], fun _ => holdsExactly_mem []⟩
  pending := by unfold pendingOk; decide
  errors := by unfold errorsOk; simp [frozenState, State.reset]
  phase := by
    refine ⟨by decide, by decide, rfl, rfl, codesFit_empty rfl, ?_⟩
    intro k l e hk hl
    rw [show frozenState.dict = fullDict from rfl, read_fullDict] at hk hl
    split at hk <;> split at hl <;> simp only [Option.some.injEq, reduceCtorEq] at hk hl
    rw [← hl] at hk
    simp only [Entry.mk.injEq] at hk
    have h1 := congrArg BitVec.toNat hk.1
    have h2 := congrArg BitVec.toNat hk.2
    rw [BitVec.toNat_ofNat, BitVec.toNat_ofNat] at h1 h2
    omega

/-! ### For every statement with hypotheses, values that meet them, clause by clause -/

theorem next_of_nextOf {r : Result} (h : (nextOf r).isSome = true) : ∃ t, r = .next t := by
  cases r with
  | next s => exact ⟨s, rfl⟩
  | fault _ => cases h
  | refused _ => cases h

/-- `encState` with moves of the host. -/
def hosted (h : List HostMove) : State := { encState with host := h }

/-- A finished command, with moves of the host. -/
def doneState (h : List HostMove) : State :=
  { State.reset with phase := .done, obuf := mem [0x20], olen := 1, host := h }

theorem witness_DecodeOfEncode : (Instr.phr 258).wellFormed = true ∧ (Instr.phr 258).agreesWithNext 259 = true ∧
    encode (.phr 258) = some (.code 258) := by decide

theorem witness_CodeWordReadBackAtAnyBit : encode (.cw9 511) = some (.codeWord 9 511) ∧
    encode (.cw16 65535) = some (.codeWord 16 65535) := by decide

theorem witness_CodeClassByNext :
    258 ≤ (258 : Count).toNat ∧ (255 : Code).toNat ≤ 255 ∧ (258 : Code).toNat < (259 : Count).toNat ∧
    (65535 : Code).toNat = (65535 : Count).toNat ∧ (65534 : Count).toNat < (65535 : Code).toNat := by decide

theorem witness_WidthScheduleAndBitTotals :
    (1 ≤ 254 ∧ 255 ≤ 255 ∧ 767 ≤ 1790 ∧ 32510 ≤ 32510 ∧ 32511 ≤ 65279) ∧
    Functional.pack [65, 258] = some [0x20, 0xC0, 0x80] := by decide

theorem witness_ScheduleAdvances : 1 ≤ 1 ∧ (511 : Count).toNat < 65536 ∧ 65536 ≤ (65536 : Count).toNat := by decide

theorem witness_ResetAndStartValues : busy State.reset = false ∧ busy { decState with phase := .err } = false := by decide

theorem witness_NopChangesNothing : (hosted [.writeReg .cmd 4]).host = [.writeReg .cmd 4] ∧ 4 % 4 = 0 := by decide

theorem witness_HostWritesWhileBusyIgnored : busy (hosted [.writeReg .cmd 1]) = true ∧
    busy (hosted [.writeReg .ilen 9]) = true ∧ busy (hosted [.writeIbuf 0 0]) = true := by decide

theorem witness_StartForgetsEarlierCommand :
    let s := State.reset
    let s' := { decState with phase := .err, errcode := 1, ilen := 0, ibuf := [] }
    busy s = false ∧ busy s' = false ∧ s.ilen = s'.ilen ∧ s.ibuf = s'.ibuf ∧ s.host = s'.host ∧
      s.readData = s'.readData ∧ s.ret = s'.ret ∧ s.fresh = s'.fresh := by decide

theorem witness_StepRunsTheWrittenCommand : (hosted [.writeReg .cmd 5]).host = [.writeReg .cmd 5] ∧
    decode 258 (.command (BitVec.ofNat 2 5)) = .instr .compress := by decide

theorem witness_StepRunsTheSelectedStep : selectStep (hosted []) = some .encStep ∧
    selectStep (hosted [.poll]) = some .encStep ∧ selectStep (hosted [.pass]) = some .encStep := by decide

theorem witness_StepRunsTheDecodedCodeWord :
    (unpackState.host = [] ∧ decode 258 (.codeWord 9 65) = .instr (.cw9 65) ∧ unpackState.phase = .unpackRun ∧
      unpackState.upos + 9 ≤ 8 * unpackState.ilen ∧ unpackState.uwidth.toNat = 9 ∧ inputCode unpackState = some 65) ∧
    (packState.host = [] ∧ packState.phase = .packRun ∧ packState.cpos < packState.clen ∧
      packState.pwidth.toNat = 9 ∧ (codeAt packState packState.cpos).map BitVec.toNat = some 65) := by decide

theorem witness_StepRunsTheDecodedClass :
    (firstState.host = [] ∧ decode firstState.next (.code 65) = .instr (.lit 65) ∧ firstState.phase = .decFirst ∧
      0 < firstState.clen ∧ codeAt firstState 0 = some 65) ∧
    (decState.host = [] ∧ decode decState.next (.code 258) = .instr (.kwk 258) ∧ decState.phase = .decRun ∧
      decState.cpos < decState.clen ∧ codeAt decState decState.cpos = some 258) := by decide

/-- One state for each row of the table, and its step runs. -/
theorem witness_SequencerTable :
    (encState.phase = .encRun ∧ encState.ipos < encState.ilen ∧ (nextOf (exec .encStep encState)).isSome) ∧
    (({ encState with ipos := 3 } : State).ipos = encState.ilen ∧
      (nextOf (exec .encEoi { encState with ipos := 3 })).isSome) ∧
    (nextOf (exec .encFlush { encState with phase := .encFlush })).isSome ∧
    (packState.cpos < packState.clen ∧ (nextOf (exec .packPut packState)).isSome) ∧
    (nextOf (exec .packEoc { packState with cpos := 2 })).isSome ∧
    (padState.phase = .packPad ∧ (nextOf (exec .packPad padState)).isSome) ∧
    (unpackState.upos + unpackState.uwidth.toNat ≤ 8 * unpackState.ilen ∧
      (nextOf (exec .unpackGet unpackState)).isSome) ∧
    (nextOf (exec .unpackStop { unpackState with upos := 18 })).isSome ∧
    (nextOf (exec .decFirst { firstState with clen := 0 })).isSome ∧
    (nextOf (exec .decFirst firstState)).isSome ∧ (nextOf (exec .decFirst firstBadState)).isSome ∧
    (nextOf (exec .decNext decState)).isSome ∧ (nextOf (exec .decNext (decStateOf 257))).isSome ∧
    (nextOf (exec .decNext (decStateOf 259))).isSome ∧ 258 ≤ decState.next.toNat ∧
    (nextOf (exec .decEnd { decState with cpos := 2 })).isSome := by decide

theorem witness_EndOfRunPersists : busy (doneState []) = false ∧ (doneState []).host = [] ∧
    (doneState [.writeReg .cmd 1]).phase = .done ∧ (nextOf (step (doneState [.writeReg .cmd 1]))).isSome ∧
    (nextOf (step (doneState [.readReg .olen]))).isSome := by decide

theorem witness_HostWritesWhileIdle : busy (doneState [.writeIbuf 0 1]) = false ∧
    busy (doneState [.writeReg .ilen 1]) = false ∧
    ((doneState [.writeReg .olen 1]).host = [.writeReg .olen 1] ∧ HostReg.olen ≠ .cmd ∧ HostReg.olen ≠ .ilen) ∧
    (busy (hosted [.writeReg .erridx 1]) = true ∧ (hosted [.writeReg .erridx 1]).host = [.writeReg .erridx 1] ∧
      HostReg.erridx ≠ .cmd ∧ HostReg.erridx ≠ .ilen) := by decide

theorem witness_StatusAndCfgRead : (hosted [.writeReg .status 1]).host = [.writeReg .status 1] ∧
    (hosted [.readReg .status]).host = [.readReg .status] ∧ (hosted [.readReg .cfg]).host = [.readReg .cfg] ∧
    (hosted [.writeReg .cfg 0]).host = [.writeReg .cfg 0] := by decide

theorem witness_HostReads :
    (hosted [.readReg .cmd]).host = [.readReg .cmd] ∧ (hosted [.readReg .ilen]).host = [.readReg .ilen] ∧
    busy (doneState [.readReg .olen]) = false ∧ busy (doneState [.poll]) = false ∧
    ((doneState [.readObuf 0]).phase = .done ∧ 0 < (doneState []).olen ∧
      Memory.read (doneState []).obuf 0 = some 0x20) ∧
    busy (hosted [.readReg .errval]) = true ∧
    ((hosted [.readObuf 0]).phase ≠ .done ∧ (doneState [.readObuf 1]).olen ≤ 1) := by decide

theorem witness_ScriptLoadsInputAndStarts :
    busy (doneState (commandScript 1 [0x41] ++ [.readReg .olen])) = false ∧ (1 = 1 ∨ 1 = 2) ∧
    (doneState (commandScript 2 [] ++ [])).host = commandScript 2 [] ++ [] := by decide

/-- The first byte; a hit; a miss. -/
theorem witness_EncodeStepTakesOneByte :
    (∃ s : State, s.phase = .encRun ∧ s.ipos < s.ilen ∧ Memory.read s.ibuf s.ipos = some 0x41 ∧ s.wv = false) ∧
    (∃ s : State, s.phase = .encRun ∧ s.ipos < s.ilen ∧ Memory.read s.ibuf s.ipos = some 0x41 ∧ s.wv = true ∧
      s.wcode = some 65 ∧ Memory.wf s.dict ∧ s.next.toNat ≤ 65536 ∧ entriesDistinct s ∧
      dictEntry s (258 : Code).toNat = some ⟨65, 0x41⟩) ∧
    ∃ s : State, s.phase = .encRun ∧ s.ipos < s.ilen ∧ Memory.read s.ibuf s.ipos = some 0x41 ∧ s.wv = true ∧
      s.wcode = some 65 ∧ Memory.wf s.dict ∧ s.next.toNat ≤ 65536 ∧ ∀ k, dictEntry s k ≠ some ⟨65, 0x41⟩ := by
  refine ⟨⟨{ encState with ipos := 0, wv := false, wcode := none }, by decide⟩,
    ⟨{ encState with dict := [(258, ⟨65, 0x41⟩)], next := 259 }, by decide, by decide, by decide, by decide, by decide,
      by decide, by decide, entriesDistinct_one rfl, by decide⟩,
    ⟨encState, by decide, by decide, by decide, by decide, by decide, by decide, by decide, fun k hk => ?_⟩⟩
  unfold dictEntry at hk
  split at hk <;> cases hk

theorem witness_EncoderEndsAndFlushes :
    (({ encState with ipos := 3 } : State).phase = .encRun ∧ ({ encState with ipos := 3 } : State).ipos = encState.ilen) ∧
    (({ encState with phase := .encFlush } : State).wv = true ∧
      ({ encState with phase := .encFlush } : State).wcode = some 65) ∧
    ({ State.reset with phase := .encFlush } : State).wv = false := by decide

/-- One byte (`n = 9`), two bytes with the fewest bits (`n = 16`) and with the most (`n = 23`). -/
theorem witness_PackPutWritesOneCode :
    (packState.phase = .packRun ∧ packState.cpos < packState.clen ∧ Memory.read packState.cbuf 0 = some 65 ∧
      9 ≤ packState.pwidth.toNat ∧ packState.pwidth.toNat ≤ 16 ∧ (65 : Code).toNat < 2 ^ packState.pwidth.toNat ∧
      packState.accn.toNat + packState.pwidth.toNat < 16) ∧
    (∃ s : State, s.phase = .packRun ∧ s.cpos < s.clen ∧ Memory.read s.cbuf s.cpos = some 65 ∧ 9 ≤ s.pwidth.toNat ∧
      s.pwidth.toNat ≤ 16 ∧ 16 = s.accn.toNat + s.pwidth.toNat) ∧
    ∃ s : State, s.phase = .packRun ∧ s.cpos < s.clen ∧ Memory.read s.cbuf s.cpos = some 65 ∧ 9 ≤ s.pwidth.toNat ∧
      s.pwidth.toNat ≤ 16 ∧ s.accn.toNat + s.pwidth.toNat = 23 :=
  ⟨by decide, ⟨{ packState with accn := 7 }, by decide⟩, ⟨{ packState with accn := 7, pwidth := 16 }, by decide⟩⟩

theorem witness_PackRefusesOnlyWideCodes :
    (∃ s : State, s.phase = .packRun ∧ s.cpos < s.clen ∧ Memory.read s.cbuf s.cpos = some 512 ∧
      2 ^ s.pwidth.toNat ≤ (512 : Code).toNat) ∧
    (Inv packState ∧ packState.phase = .packRun ∧ packState.cpos < packState.clen ∧
      Memory.read packState.cbuf packState.cpos = some 65) :=
  ⟨⟨{ packState with cbuf := mem [512] }, by decide⟩, inv_packState, by decide⟩

theorem witness_PackEndsWithZeroPad :
    (({ packState with cpos := 2 } : State).phase = .packRun ∧ ({ packState with cpos := 2 } : State).cpos = 2) ∧
    (padState.phase = .packPad ∧ padState.accn ≠ 0) ∧ ({ padState with accn := 0 } : State).accn = 0 := by decide

theorem witness_UnpackReadsCodesAndStops :
    (unpackState.phase = .unpackRun ∧ unpackState.upos + unpackState.uwidth.toNat ≤ 8 * unpackState.ilen ∧
      unpackState.uwidth.toNat ≤ 16 ∧ ∀ j, j < unpackState.uwidth.toNat →
        ∃ b, Memory.read unpackState.ibuf ((unpackState.upos + j) / 8) = some b ∧
          (fun j => j == 2 || j == 8) j = b.getLsbD (7 - (unpackState.upos + j) % 8)) ∧
    (({ unpackState with upos := 18 } : State).phase = .unpackRun ∧ 8 * unpackState.ilen < 18 + 9) := by
  refine ⟨⟨by decide, by decide, by decide, ?_⟩, by decide⟩
  intro j hj
  have hj : j < 9 := hj
  interval_cases j
  all_goals exact ⟨_, rfl, by decide⟩

theorem witness_CodeWordsUnderTheUnpacker : encode (.cw9 65) = some (.codeWord 9 65) ∧
    unpackState.phase = .unpackRun ∧ unpackState.uwidth.toNat = 9 ∧ unpackState.upos + 9 ≤ 8 * unpackState.ilen := by
  decide

theorem witness_CodeWordsUnderThePacker : encode (.cw16 65535) = some (.codeWord 16 65535) ∧
    ({ packState with pwidth := 16 } : State).phase = .packRun ∧ packState.cpos < packState.clen ∧
    ({ packState with pwidth := 16 } : State).pwidth.toNat = 16 := by decide

theorem witness_DecodeFirstAndEnd :
    (firstState.phase = .decFirst ∧ 0 < firstState.clen ∧ Memory.read firstState.cbuf 0 = some 65 ∧
      (65 : Code).toNat < 256) ∧ ({ firstState with clen := 0 } : State).clen = 0 ∧
    (({ decState with cpos := 2 } : State).phase = .decRun ∧ ({ decState with cpos := 2 } : State).cpos = decState.clen) := by
  decide

/-- A literal, and the code equal to `NEXT`. -/
theorem witness_DecodeNextCode :
    (decState.phase = .decRun ∧ decState.cpos < decState.clen ∧ decState.pv = true ∧ decState.pcode = some 65) ∧
    (Memory.read (decStateOf 66).cbuf 1 = some 66 ∧ (66 : Code).toNat < decState.next.toNat ∧
      phrase (decStateOf 66) 66 = some [0x42]) ∧
    (Memory.read decState.cbuf 1 = some 258 ∧ (258 : Code).toNat = decState.next.toNat ∧
      phrase decState 65 = some [0x41]) := by decide

theorem witness_EqualToSizeIsTheNewPhrase : Inv (decStateOf 258) ∧ (decStateOf 258).phase = .decRun ∧
    (decStateOf 258).cpos < (decStateOf 258).clen ∧ codeAt (decStateOf 258) 1 = some 258 ∧
    (258 : Code).toNat = (decStateOf 258).next.toNat ∧ (decStateOf 258).pcode = some 65 :=
  ⟨inv_decStateOf 258, by decide⟩

theorem witness_DesyncEntry :
    (decState.phase = .decRun ∧ decState.cpos < decState.clen ∧ 258 ≤ decState.next.toNat) ∧
    (Memory.read (decStateOf 259).cbuf 1 = some 259 ∧ (decStateOf 259).next.toNat < (259 : Code).toNat) ∧
    Memory.read (decStateOf 257).cbuf 1 = some 257 ∧
    (firstBadState.phase = .decFirst ∧ 0 < firstBadState.clen ∧ Memory.read firstBadState.cbuf 0 = some 258 ∧
      256 ≤ (258 : Code).toNat) := by decide

/-- A decoder step that raises; a step of each command. -/
theorem witness_OnlyDecompressRaises :
    ((nextOf (step (decStateOf 259))).map State.phase = some .err ∧ (decStateOf 259).phase ≠ .err) ∧
    (compressing encState.phase = true ∧ (nextOf (step encState)).isSome) ∧
    (decompressing unpackState.phase = true ∧ (nextOf (step unpackState)).isSome) := by decide

theorem witness_CorruptStreamIsRejected :
    (Inv (decStateOf 259) ∧ codeAt (decStateOf 259) (decStateOf 259).cpos = some 259 ∧
      min (256 + ((decStateOf 259).cpos + 1)) 65536 < (259 : Code).toNat) ∧
    (Inv firstBadState ∧ firstBadState.phase = .decFirst ∧ 0 < firstBadState.clen ∧
      codeAt firstBadState 0 = some 258 ∧ 256 ≤ (258 : Code).toNat) :=
  ⟨⟨inv_decStateOf 259, by decide⟩, inv_firstBadState, by decide⟩

/-- The first code; a later one, with a phrase in the dictionary; the code equal to `NEXT`. -/
theorem witness_LegalClassesAreDecoded :
    (firstState.phase = .decFirst ∧ 0 < firstState.clen) ∧
    (decState.phase = .decRun ∧ decState.cpos < decState.clen ∧ decState.pv = true ∧ decState.pcode = some 65 ∧
      258 ≤ decState.next.toNat) ∧
    (let s : State := { decState with dict := [(258, ⟨65, 0x42⟩)], next := 259 }
     (258 : Code).toNat < s.next.toNat ∧ phrase s 258 = some [0x41, 0x42]) ∧
    ((258 : Code).toNat = decState.next.toNat ∧ phrase decState 65 = some [0x41]) := by decide

theorem witness_IllegalClassesRaise :
    (decState.phase = .decRun ∧ decState.cpos < decState.clen ∧ 258 ≤ decState.next.toNat ∧
      decState.next.toNat < (259 : Code).toNat) ∧
    (firstState.phase = .decFirst ∧ 0 < firstState.clen ∧ 256 ≤ (258 : Code).toNat ∧
      decode firstState.next (.code 258) = .instr (.kwk 258)) := by decide

theorem witness_EngineLooksUp :
    (Memory.wf packState.dict ∧ packState.next.toNat ≤ 65536 ∧ entriesDistinct packState ∧
      258 ≤ (258 : Code).toNat ∧ (258 : Code).toNat < packState.next.toNat ∧
      Memory.read packState.dict (258 : Code).toNat = some ⟨65, 0x41⟩) ∧
    ∀ k, 258 ≤ k → k < encState.next.toNat → Memory.read encState.dict k ≠ some ⟨65, 0x41⟩ :=
  ⟨⟨by decide, by decide, entriesDistinct_one rfl, by decide, by decide, by decide⟩, fun _ _ _ h => nomatch h⟩

theorem witness_EngineResolves :
    258 ≤ decState.next.toNat ∧ decState.next.toNat < (259 : Code).toNat ∧
    ((258 : Code).toNat = decState.next.toNat ∧ decState.pv = true ∧ decState.pcode = some 65 ∧
      phrase decState 65 = some [0x41]) ∧
    ((255 : Code).toNat < decState.next.toNat ∧ phrase decState 255 = some [0xFF]) := by decide

theorem witness_PhraseRecursion : dictOk packState ∧
    (258 ≤ (258 : Code).toNat ∧ (258 : Code).toNat < packState.next.toNat) ∧
    (packState.next.toNat ≤ (259 : Code).toNat ∧ 256 ≤ (259 : Code).toNat) ∧
    phraseLength packState 258 = some 2 :=
  ⟨inv_packState.dict, by decide⟩

theorem witness_StepKeepsTheInvariant : (Inv encState ∧ ∃ t, step encState = .next t) ∧
    (Inv (decStateOf 258) ∧ ∃ t, step (decStateOf 258) = .next t) ∧ (Inv padState ∧ ∃ t, step padState = .next t) :=
  ⟨⟨inv_encState, next_of_nextOf (by decide)⟩, ⟨inv_decStateOf 258, next_of_nextOf (by decide)⟩, inv_padState,
    next_of_nextOf (by decide)⟩

theorem witness_MemoriesStayCanonical : memoriesCanonical packState ∧ ∃ t, step packState = .next t :=
  ⟨inv_packState.memories, next_of_nextOf (by decide)⟩

theorem witness_NoInstructionWritesTheInput : ∃ t, exec .encStep encState = .next t := next_of_nextOf (by decide)

theorem witness_EachStepWritesOnlyItsRegisters : selectStep unpackState = some .unpackGet ∧
    ∃ t, exec .unpackGet unpackState = .next t :=
  ⟨by decide, next_of_nextOf (by decide)⟩

theorem witness_WidthsNeverDecrease : Inv unpackState ∧ busy unpackState = true ∧ ∃ t, step unpackState = .next t :=
  ⟨inv_unpackState, by decide, next_of_nextOf (by decide)⟩

/-- A growing dictionary, and a full one. -/
theorem witness_DictionaryOnlyGrows :
    (Inv encState ∧ busy encState = true ∧ ∃ t, step encState = .next t) ∧
    (Inv frozenState ∧ busy frozenState = true ∧ frozen frozenState = true ∧ ∃ t, step frozenState = .next t) :=
  ⟨⟨inv_encState, by decide, next_of_nextOf (by decide)⟩, inv_frozenState, rfl, rfl, _, rfl⟩

theorem witness_NextAndWidthAgree : Inv packState ∧ (Memory.read packState.dict 258).isSome = true :=
  ⟨inv_packState, by decide⟩

theorem inputLoaded_three {s : State} {b₀ b₁ b₂ : Byte} (h : s.ibuf = mem [b₀, b₁, b₂]) (hl : s.ilen = 3) :
    inputLoaded s := by
  intro i hi
  rw [h, read_mem]
  simp; omega

theorem witness_BusyBlockMakesProgress :
    (Inv encState ∧ inputLoaded encState ∧ busy encState = true ∧ encState.host = []) ∧
    (Inv (decStateOf 258) ∧ inputLoaded (decStateOf 258) ∧ busy (decStateOf 258) = true ∧ (decStateOf 258).host = []) :=
  ⟨⟨inv_encState, inputLoaded_three rfl rfl, by decide, rfl⟩, inv_decStateOf 258, inputLoaded_three rfl rfl, by decide, rfl⟩

theorem witness_EveryCommandEnds :
    Inv unpackState ∧ inputLoaded unpackState ∧ busy unpackState = true ∧ unpackState.host = [] :=
  ⟨inv_unpackState, inputLoaded_three rfl rfl, by decide, rfl⟩

theorem witness_BufferBounds :
    (Inv packState ∧ compressing packState.phase = true) ∧ (Inv unpackState ∧ decompressing unpackState.phase = true) ∧
    (Inv padState ∧ padState.phase = .packPad ∧ ∃ t, exec .packPad padState = .next t) ∧
    (Inv (decStateOf 258) ∧ (decStateOf 258).phase = .decRun ∧ (decStateOf 258).cpos < (decStateOf 258).clen ∧
      ∃ t, exec .decNext (decStateOf 258) = .next t) :=
  ⟨⟨inv_packState, rfl⟩, ⟨inv_unpackState, rfl⟩, ⟨inv_padState, rfl, next_of_nextOf (by decide)⟩, inv_decStateOf 258, rfl,
    by decide, next_of_nextOf (by decide)⟩

/-- A block that holds an input of three bytes. -/
def loadedState (b₀ b₁ b₂ : Byte) : State := { State.reset with ibuf := mem [b₀, b₁, b₂], ilen := 3 }

theorem inputIs_loadedState (b₀ b₁ b₂ : Byte) : inputIs (loadedState b₀ b₁ b₂) [b₀, b₁, b₂] :=
  ⟨rfl, fun i _ => read_mem [b₀, b₁, b₂] i⟩

theorem witness_CompressComputesPackOfEncode :
    let s := loadedState 0x41 0x41 0x41
    busy s = false ∧ inputIs s [0x41, 0x41, 0x41] ∧ s.host = [] ∧ ∃ u, exec .compress s = .next u :=
  ⟨rfl, inputIs_loadedState _ _ _, rfl, _, rfl⟩

/-- A stream that decodes, and one that does not (vectors V26 and V14). -/
theorem witness_DecompressComputesDecodeOfUnpack :
    (let s := loadedState 0x20 0xC0 0x80
     busy s = false ∧ inputIs s [0x20, 0xC0, 0x80] ∧ s.host = [] ∧ (∃ u, exec .decompress s = .next u) ∧
       Functional.decompress [0x20, 0xC0, 0x80] = .bytes [0x41, 0x41, 0x41]) ∧
    (let s := loadedState 0x20 0xC1 0x00
     busy s = false ∧ inputIs s [0x20, 0xC1, 0x00] ∧ s.host = [] ∧ (∃ u, exec .decompress s = .next u) ∧
       Functional.decompress [0x20, 0xC1, 0x00] = .desync 1 260 1) :=
  ⟨⟨rfl, inputIs_loadedState _ _ _, rfl, ⟨_, rfl⟩, by decide⟩, rfl, inputIs_loadedState _ _ _, rfl, ⟨_, rfl⟩, by decide⟩

theorem witness_EncodedCodesFit :
    (Functional.encode [0x41, 0x41, 0x41])[1]? = some 258 ∧ Functional.fitsFrom 1 [65, 512] = false := by decide

theorem witness_UnpackUndoesPack : Functional.fitsFrom 1 [65, 258, 511] = true := by decide

end Sys2Proof.Tests
end

section
/-! PROOFS. The statements about the state (10_state.md): its reset and start values, what a step may write, the canonical
form of the memories, the dictionary that only grows, and the recursion of `phrase`. -/

namespace Sys2Proof.Machine

/-! ### What an instruction may write, said once -/

/-- `t` is `s` after the writes of the core step `i`, whatever the operands it read: one constructor per way a step of
44_codec_commands.md R198 goes on. A code word and a code class make the same writes with operands of their own (log
entries 7, 8); where a step takes its operands from is said by `encodeByte_next` and its like. -/
inductive StepWrites (s : State) : Instr → State → Prop
  | encFirst (c : Byte) :
    StepWrites s .encStep { s with wcode := some (c.setWidth 16), wv := true, ipos := s.ipos + 1 }
  | encHit (k : Code) : StepWrites s .encStep { s with wcode := some k, ipos := s.ipos + 1 }
  | encMiss (w : Code) (c : Byte) :
    StepWrites s .encStep
      { engineInsert w c (appendCode w s) with wcode := some (c.setWidth 16), ipos := s.ipos + 1 }
  | encEoi : StepWrites s .encEoi { s with phase := .encFlush }
  | flushNothing : StepWrites s .encFlush { s with cpos := 0, phase := .packRun }
  | flushCode (w : Code) :
    StepWrites s .encFlush { appendCode w s with wv := false, wcode := none, cpos := 0, phase := .packRun }
  | packPut (k : Nat) : StepWrites s .packPut (putCode k s)
  | packEoc : StepWrites s .packEoc { s with phase := .packPad }
  | packPadByte (b : Byte) :
    StepWrites s .packPad { appendByte b s with acc := 0, accn := 0, phase := .done }
  | packPadNothing : StepWrites s .packPad { s with phase := .done }
  | unpackGet (k : Nat) : StepWrites s .unpackGet (takeCode k s)
  | unpackStop : StepWrites s .unpackStop { s with phase := .decFirst }
  | decFirstNoCode : StepWrites s .decFirst { s with phase := .done }
  | decFirstDesync (k : Code) : StepWrites s .decFirst (raiseDesync 3 k 0 s)
  | decFirstLiteral (k : Code) :
    StepWrites s .decFirst
      { appendByte (k.setWidth 8) s with pcode := some k, pv := true, cpos := 1, phase := .decRun }
  | decNextDesync (sub : BitVec 2) (k : Code) : StepWrites s .decNext (raiseDesync sub k s.cpos s)
  | decNextEntry (k p : Code) (entry : List Byte) (f : Byte) :
    StepWrites s .decNext
      { engineInsert p f (appendBytes entry s) with pcode := some k, cpos := s.cpos + 1 }
  | decEnd : StepWrites s .decEnd { s with phase := .done }

/-- `t` is `s` after the writes of some instruction of the opcode table: a core step's, a command start, or those of a
sub-operation run on its own (log entry 9). -/
inductive ExecWrites (s : State) : State → Prop
  | nothing : ExecWrites s s
  | start (p : Phase) : ExecWrites s (commandStart p s)
  | step {i : Instr} {t : State} : StepWrites s i t → ExecWrites s t
  | reset : ExecWrites s (engineReset s)
  | insert (p : Code) (c : Byte) : ExecWrites s (engineInsert p c s)
  | desync (sub : BitVec 2) (k : Code) (idx : Nat) : ExecWrites s (raiseDesync sub k idx s)
  | answer (r : SubResult) : ExecWrites s { s with ret := r }

variable {s t : State}

theorem encodeByte_writes (h : encodeByte s = .next t) : StepWrites s .encStep t := by
  obtain ⟨c, -, ⟨-, rfl⟩ | ⟨w, -, -, ⟨k, -, rfl⟩ | ⟨-, rfl⟩⟩⟩ := encodeByte_next h
  · exact .encFirst c
  · exact .encHit k
  · exact .encMiss w c

theorem flushPrefix_writes (h : flushPrefix s = .next t) : StepWrites s .encFlush t := by
  obtain ⟨-, rfl⟩ | ⟨w, -, -, rfl⟩ := flushPrefix_next h
  · exact .flushNothing
  · exact .flushCode w

theorem padLastByte_writes (s : State) : StepWrites s .packPad (padLastByte s) := by
  unfold padLastByte
  split
  · exact .packPadByte _
  · exact .packPadNothing

theorem decodeFirst_writes (k : Code) (s : State) : StepWrites s .decFirst (decodeFirst k s) := by
  unfold decodeFirst
  split
  · exact .decFirstDesync k
  · exact .decFirstLiteral k

theorem takeFirstCode_writes (h : takeFirstCode s = .next t) : StepWrites s .decFirst t := by
  obtain ⟨-, rfl⟩ | ⟨k, -, -, rfl⟩ := takeFirstCode_next h
  · exact .decFirstNoCode
  · exact decodeFirst_writes k s

theorem decodeNext_writes {k : Code} (h : decodeNext k s = .next t) : StepWrites s .decNext t := by
  obtain ⟨sub, -, rfl⟩ | ⟨entry, f, p, -, -, rfl⟩ := decodeNext_next h
  · exact .decNextDesync sub k
  · exact .decNextEntry k p entry f

/-- Every selected core step makes the writes of its own row of 44_codec_commands.md R198. -/
theorem exec_selected_writes {i : Instr} (hs : selectStep s = some i) (h : exec i s = .next t) : StepWrites s i t := by
  obtain ⟨hp, hc, hx⟩ | ⟨hp, hc, rfl⟩ | ⟨hp, hx⟩ | ⟨hp, hc, hx⟩ | ⟨hp, hc, rfl⟩ | ⟨hp, rfl⟩ | ⟨hp, hc, hx⟩ |
    ⟨hp, hc, rfl⟩ | ⟨hp, hx⟩ | ⟨hp, hc, hx⟩ | ⟨hp, hc, rfl⟩ := exec_selected hs h
  all_goals
    simp only [selectStep, Nat.not_lt_of_le, Nat.not_le_of_lt, if_true, if_false, Option.some.injEq, *] at hs
    subst hs
  · exact encodeByte_writes hx
  · exact .encEoi
  · exact flushPrefix_writes hx
  · obtain ⟨k, -, -, rfl⟩ := packCode_next hx
    exact .packPut k.toNat
  · exact .packEoc
  · exact padLastByte_writes s
  · obtain ⟨k, -, rfl⟩ := unpackCode_next hx
    exact .unpackGet k
  · exact .unpackStop
  · exact takeFirstCode_writes hx
  · obtain ⟨k, -, hk⟩ := takeNextCode_next hx
    exact decodeNext_writes hk
  · exact .decEnd

/-- A code word makes the writes of the unpacker or of the packer (log entry 7). -/
theorem passCodeWord_writes {w k : Nat} (h : passCodeWord w k s = .next t) : ExecWrites s t := by
  unfold passCodeWord at h
  split at h
  · cases h; exact .step (.unpackGet k)
  · split at h
    · cases h; exact .step (.packPut k)
    · cases h

/-- A code class makes the writes of the decoder (log entry 8). -/
theorem takeClass_writes {i : Instr} {k : Code} (h : takeClass i k s = .next t) : ExecWrites s t := by
  unfold takeClass at h
  split at h
  · split at h
    · cases h; exact .step (decodeFirst_writes k s)
    · split at h
      · exact .step (decodeNext_writes h)
      · cases h
  · cases h

theorem execDeResolve_writes {k : Code} {idx : Nat} (h : execDeResolve k idx s = .next t) : ExecWrites s t := by
  unfold execDeResolve at h
  split at h <;> cases h
  · exact .answer _
  · exact .desync _ k idx

theorem commandOf_writes {w : BitVec 2} (h : exec (commandOf w) s = .next t) : ExecWrites s t := by
  obtain rfl | ⟨-, rfl | rfl⟩ := exec_command h
  · exact .nothing
  · exact .start _
  · exact .start _

/-- What each of the 34 instructions can write. -/
theorem exec_writes {i : Instr} (h : exec i s = .next t) : ExecWrites s t := by
  cases i with
  | nop => exact commandOf_writes (w := 0) h
  | compress => exact commandOf_writes (w := 1) h
  | decompress => exact commandOf_writes (w := 2) h
  | cmdReserved => exact commandOf_writes (w := 3) h
  | encStep | encEoi | encFlush | packPut | packEoc | packPad | unpackGet | unpackStop | decFirst | decNext | decEnd =>
    exact .step (exec_selected_writes (whenSelected_next.1 h).1 h)
  | deReset => cases h; exact .reset
  | deLookup | sched => cases h; exact .answer _
  | deInsert | deGrow => cases h; exact .insert _ _
  | deResolve => exact execDeResolve_writes h
  | cw9 | cw10 | cw11 | cw12 | cw13 | cw14 | cw15 | cw16 => exact passCodeWord_writes h
  | lit | rsv | phr | kwk | bad => exact takeClass_writes h

/-! ### What a host move may write -/

theorem hostWriteReg_eq (r : HostReg) (v : Nat) (s : State) : ∃ n, hostWriteReg r v s = { s with ilen := n } := by
  cases r with
  | ilen =>
    simp only [hostWriteReg]
    split
    · exact ⟨s.ilen, rfl⟩
    · exact ⟨v, rfl⟩
  | cmd | status | olen | errcode | errval | erridx | cfg => exact ⟨s.ilen, rfl⟩

theorem hostWriteIbuf_eq (i : Nat) (b : Byte) (s : State) :
    hostWriteIbuf i b s = s ∨ (busy s = false ∧ hostWriteIbuf i b s = { s with ibuf := Memory.write s.ibuf i b }) := by
  unfold hostWriteIbuf
  split
  · exact .inl rfl
  · exact .inr ⟨by simp_all, rfl⟩

theorem hostReadReg_eq (r : HostReg) (s : State) :
    ∃ d n, hostReadReg r s = { s with readData := d, fresh := n } := by
  cases r with
  | cmd | status | ilen | cfg => exact ⟨_, _, rfl⟩
  | olen | errcode | errval | erridx =>
    simp only [hostReadReg]
    split <;> exact ⟨_, _, rfl⟩

theorem hostReadObuf_eq (i : Nat) (s : State) :
    ∃ d n, hostReadObuf i s = { s with readData := d, fresh := n } := by
  unfold hostReadObuf
  split
  · split <;> exact ⟨_, _, rfl⟩
  · exact ⟨_, _, rfl⟩

/-- What one step of the machine can write: a core step's writes, a command start, a byte of `IBUF`, or `ILEN` and what the
host was given. A step that changes nothing but the host's list is the last case. -/
theorem step_writes (h : step s = .next t) :
    ∃ rest, (∃ i, selectStep (s.withHost rest) = some i ∧ StepWrites (s.withHost rest) i t) ∨
      (busy s = false ∧ ∃ p, t = commandStart p (s.withHost rest)) ∨
      (busy s = false ∧ ∃ a b, t = { s.withHost rest with ibuf := Memory.write s.ibuf a b }) ∨
      ∃ n d f, t = { s.withHost rest with ilen := n, readData := d, fresh := f } := by
  obtain ⟨rest, (⟨i, hs, hx⟩ | ⟨-, rfl⟩) | ⟨w, hx⟩ | ⟨a, b, rfl⟩ | ⟨r, v, rfl⟩ | ⟨r, rfl⟩ | ⟨a, rfl⟩⟩ := step_next h
  all_goals refine ⟨rest, ?_⟩
  · exact .inl ⟨i, hs, exec_selected_writes hs hx⟩
  · exact .inr (.inr (.inr ⟨_, _, _, rfl⟩))
  · obtain rfl | ⟨hb, rfl | rfl⟩ := exec_command hx
    · exact .inr (.inr (.inr ⟨_, _, _, rfl⟩))
    · exact .inr (.inl ⟨hb, _, rfl⟩)
    · exact .inr (.inl ⟨hb, _, rfl⟩)
  · obtain heq | ⟨hb, heq⟩ := hostWriteIbuf_eq a b (s.withHost rest)
    · exact .inr (.inr (.inr ⟨_, _, _, heq⟩))
    · exact .inr (.inr (.inl ⟨hb, a, b, heq⟩))
  · obtain ⟨n, heq⟩ := hostWriteReg_eq r v (s.withHost rest)
    exact .inr (.inr (.inr ⟨n, _, _, heq⟩))
  · obtain ⟨d, f, heq⟩ := hostReadReg_eq r (s.withHost rest)
    exact .inr (.inr (.inr ⟨_, d, f, heq⟩))
  · obtain ⟨d, f, heq⟩ := hostReadObuf_eq a (s.withHost rest)
    exact .inr (.inr (.inr ⟨_, d, f, heq⟩))

/-! ### The input -/

/-- From `s` to `t` neither the input nor what the host was given moved. -/
def inputKept (s t : State) : Prop :=
  t.ibuf = s.ibuf ∧ t.ilen = s.ilen ∧ t.host = s.host ∧ t.readData = s.readData ∧ t.fresh = s.fresh

theorem StepWrites.inputKept {i : Instr} (h : StepWrites s i t) : inputKept s t := by
  cases h <;> simp [Machine.inputKept]

theorem ExecWrites.inputKept (h : ExecWrites s t) : inputKept s t := by
  cases h with
  | step h => exact h.inputKept
  | nothing | start | reset | insert | desync | answer => simp [Machine.inputKept]

/-! ### The canonical form of the memories -/

theorem memoriesCanonical_appendByte (b : Byte) (h : memoriesCanonical s) : memoriesCanonical (appendByte b s) := by
  obtain ⟨hi, ho, hc, hd⟩ := h
  exact ⟨hi, Memory.wf_write _ _ ho, hc, hd⟩

theorem memoriesCanonical_appendBytes (bs : List Byte) (h : memoriesCanonical s) :
    memoriesCanonical (appendBytes bs s) := by
  induction bs generalizing s with
  | nil => exact h
  | cons b bs ih => exact ih (memoriesCanonical_appendByte b h)

theorem memoriesCanonical_appendCode (k : Code) (h : memoriesCanonical s) : memoriesCanonical (appendCode k s) := by
  obtain ⟨hi, ho, hc, hd⟩ := h
  exact ⟨hi, ho, Memory.wf_write _ _ hc, hd⟩

theorem memoriesCanonical_engineInsert (p : Code) (c : Byte) (h : memoriesCanonical s) :
    memoriesCanonical (engineInsert p c s) := by
  obtain ⟨hi, ho, hc, hd⟩ := h
  exact ⟨by simpa using hi, by simpa using ho, by simpa using hc, engineInsert_wf hd⟩

theorem memoriesCanonical_commandStart (p : Phase) (h : memoriesCanonical s) :
    memoriesCanonical (commandStart p s) := by
  obtain ⟨hi, -⟩ := h
  exact ⟨hi, Memory.wf_nil, Memory.wf_nil, Memory.wf_nil⟩

theorem StepWrites.memoriesCanonical {i : Instr} (hw : StepWrites s i t) (h : memoriesCanonical s) :
    memoriesCanonical t := by
  cases hw with
  | encMiss w c => exact memoriesCanonical_engineInsert w c (memoriesCanonical_appendCode w h)
  | flushCode k | unpackGet k => exact memoriesCanonical_appendCode _ h
  | packPut k => exact memoriesCanonical_appendBytes _ h
  | packPadByte b => exact memoriesCanonical_appendByte b h
  | decFirstLiteral k => exact memoriesCanonical_appendByte _ h
  | decNextEntry k p entry f => exact memoriesCanonical_engineInsert p f (memoriesCanonical_appendBytes entry h)
  | encFirst | encHit | encEoi | flushNothing | packEoc | packPadNothing | unpackStop | decFirstNoCode
  | decFirstDesync | decNextDesync | decEnd => exact h

/-! ### The dictionary -/

/-- From `s` to `t` the Dictionary Engine's registers and memory are the same. -/
def engineKept (s t : State) : Prop := t.next = s.next ∧ t.width = s.width ∧ t.dict = s.dict

/-- From `s` to `t` the dictionary only grew, and not at all if it was full (10_state.md R51 (b);
40_dictionary_engine.md R126, R127 (e)). -/
def dictGrows (s t : State) : Prop :=
  s.next.toNat ≤ t.next.toNat ∧ t.next.toNat ≤ s.next.toNat + 1 ∧
    (∀ k e, Memory.read s.dict k = some e → Memory.read t.dict k = some e) ∧ (frozen s = true → engineKept s t)

theorem engineKept.dictGrows (h : engineKept s t) : dictGrows s t := by
  have hk := h
  obtain ⟨hn, -, hd⟩ := h
  exact ⟨by rw [hn], by rw [hn]; omega, fun k e he => by rw [hd]; exact he, fun _ => hk⟩

theorem dictGrows.of_engineKept {u : State} (h : dictGrows s u) (hk : engineKept u t) : dictGrows s t := by
  obtain ⟨hle, hsucc, hread, hfrozen⟩ := h
  obtain ⟨hn, hw, hd⟩ := hk
  refine ⟨by rwa [hn], by rwa [hn], by rwa [hd], fun hf => ?_⟩
  obtain ⟨hn', hw', hd'⟩ := hfrozen hf
  exact ⟨hn.trans hn', hw.trans hw', hd.trans hd'⟩

/-- The entry `DE.INSERT` writes is the one at `NEXT`, where a table in order holds none. -/
theorem dictGrows_engineInsert (p : Code) (c : Byte) (hd : dictOk s) (hn : s.next.toNat ≤ Config.cap) :
    dictGrows s (engineInsert p c s) := by
  obtain ⟨hlt, heq⟩ | ⟨-, heq⟩ := engineInsert_cases p c s
  · have hnext := engineInsert_next (p := p) (c := c) hn
    refine ⟨by omega, by omega, fun k e he => ?_, fun hf => ?_⟩
    · have hk := (hd.1 k).1 (by rw [he]; rfl)
      rw [heq, Memory.read_write_other _ _ (by omega)]
      exact he
    · have : s.next.toNat = Config.cap := by simpa [frozen] using hf
      omega
  · rw [heq]; exact engineKept.dictGrows ⟨rfl, rfl, rfl⟩

/-- What `DE.INSERT` does to the engine depends on nothing else. -/
theorem engineInsert_congr {u : State} (p : Code) (c : Byte) (h : engineKept s u) :
    engineKept (engineInsert p c s) (engineInsert p c u) := by
  obtain ⟨hn, hw, hd⟩ := h
  simp only [engineKept, engineInsert, hn, hw, hd]
  split <;> simp [*]

/-- Only `ENC_STEP` on a miss and `DEC_NEXT` with an entry reach the engine, each by one `DE.INSERT`. -/
theorem StepWrites.engine {i : Instr} (h : StepWrites s i t) :
    engineKept s t ∨ ∃ p c, engineKept (engineInsert p c s) t := by
  cases h with
  | encMiss w c => exact .inr ⟨w, c, engineInsert_congr w c ⟨rfl, rfl, rfl⟩⟩
  | decNextEntry k p entry f => exact .inr ⟨p, f, engineInsert_congr p f (by simp [engineKept])⟩
  | encFirst | encHit | encEoi | flushNothing | flushCode | packPut | packEoc | packPadByte | packPadNothing
  | unpackGet | unpackStop | decFirstNoCode | decFirstDesync | decFirstLiteral | decNextDesync | decEnd =>
    exact .inl (by simp [engineKept])

theorem StepWrites.dictGrows {i : Instr} (h : StepWrites s i t) (hd : dictOk s) (hn : s.next.toNat ≤ Config.cap) :
    dictGrows s t := by
  obtain hk | ⟨p, c, hk⟩ := h.engine
  · exact hk.dictGrows
  · exact (dictGrows_engineInsert p c hd hn).of_engineKept hk

/-- A full dictionary has reached the widest code (40_dictionary_engine.md R127 (d)). -/
theorem width_of_frozen (h : countOk s.next s.width) (hf : frozen s = true) : s.width = 16 := by
  obtain ⟨-, -, hw⟩ := h
  have hcap : s.next.toNat = 65536 := by simpa [frozen] using hf
  apply BitVec.eq_of_toNat_eq
  rw [hw, hcap]
  decide

/-- While `BUSY = 1` nothing resets the engine: a start is refused, and a core step only inserts. -/
theorem step_dictGrows (hi : Inv s) (hb : busy s = true) (h : step s = .next t) : dictGrows s t := by
  obtain ⟨rest, ⟨i, -, hw⟩ | ⟨hidle, -⟩ | ⟨hidle, -⟩ | ⟨n, d, f, rfl⟩⟩ := step_writes h
  · obtain ⟨⟨-, hcap, -⟩, -⟩ := hi.counters
    have hgrows : Machine.dictGrows (s.withHost rest) t := hw.dictGrows hi.dict hcap
    exact hgrows
  · simp [hb] at hidle
  · simp [hb] at hidle
  · exact engineKept.dictGrows ⟨rfl, rfl, rfl⟩

/-! ### Reset, start and the read-only words -/

/-- A start's result is built from `ILEN`, `IBUF` and the model's own fields alone (70_reset_and_hazards.md R246). -/
theorem commandStart_congr {s' : State} (p : Phase) (hilen : s.ilen = s'.ilen) (hibuf : s.ibuf = s'.ibuf)
    (hhost : s.host = s'.host) (hread : s.readData = s'.readData) (hret : s.ret = s'.ret) (hfresh : s.fresh = s'.fresh) :
    commandStart p s = commandStart p s' := by
  simp only [commandStart, engineReset, hilen, hibuf, hhost, hread, hret, hfresh]

theorem exec_compress_idle (h : busy s = false) : exec .compress s = .next (commandStart .encRun s) := by
  simp [exec, execCompress, writeCommand, h]

theorem exec_decompress_idle (h : busy s = false) : exec .decompress s = .next (commandStart .unpackRun s) := by
  simp [exec, execDecompress, writeCommand, h]

theorem step_readReg {rest : List HostMove} {r : HostReg} (h : s.host = .readReg r :: rest) :
    step s = .next (hostReadReg r (s.withHost rest)) := by
  simp [step, fetch, h]

/-- A host write of a read-only register changes nothing (log entry 17). -/
theorem step_writeReg_readOnly {rest : List HostMove} {r : HostReg} {v : Nat} (h : s.host = .writeReg r v :: rest)
    (hcmd : r ≠ .cmd) (hilen : r ≠ .ilen) : step s = .next (s.withHost rest) := by
  cases r with
  | cmd => exact absurd rfl hcmd
  | ilen => exact absurd rfl hilen
  | status | olen | errcode | errval | erridx | cfg => simp [step, fetch, h, hostWriteReg]

/-- `STATUS` as a number: each flag at its weight (10_state.md R38). -/
theorem statusWord_value (s : State) :
    (statusWord s).toNat = (busy s).toNat + 2 * (doneFlag s).toNat + 4 * (errFlag s).toNat := by
  unfold statusWord
  generalize busy s = b, doneFlag s = d, errFlag s = e
  revert b d e
  decide

/-! ### Phrases -/

/-- A phrase that grows at its end keeps its first byte (10_state.md R50). -/
theorem firstByte_phrase_append {k p : Code} {ph : List Byte} {c : Byte} (hp : phrase s p = some ph)
    (hk : phrase s k = some (ph ++ [c])) (hne : 1 ≤ ph.length) :
    firstByte s k = firstByte s p ∧ (firstByte s k).isSome = true := by
  simp only [firstByte, hp, hk, Option.bind_some]
  rw [List.getElem?_append_left (by omega)]
  exact ⟨rfl, by simp; omega⟩

/-- A phrase code below `NEXT` has an entry, which extends a code that names a phrase (10_state.md R51 (a)). -/
theorem dictOk_entry (hd : dictOk s) {k : Nat} (hlo : 258 ≤ k) (hhi : k < s.next.toNat) :
    ∃ e, Memory.read s.dict k = some e ∧ present s e.pfx := by
  obtain ⟨e, he⟩ := Option.isSome_iff_exists.1 ((hd.1 k).2 ⟨hlo, hhi⟩)
  obtain ⟨hlt, hlit | hfree⟩ := hd.2 k e he
  · exact ⟨e, he, .inl hlit⟩
  · exact ⟨e, he, .inr ⟨hfree, by omega⟩⟩

/-! ### The statements -/

/-- Settles O42, the recursion by `phrase_step` and the bound by `phrase_present`. -/
theorem phraseRecursion : Obligations.PhraseRecursion := by
  intro s hd k
  refine ⟨fun hlit => ?_, fun hlo hhi => ?_, fun hnone => ?_, fun n hlo hn => ?_⟩
  · simp [firstByte, phraseLength, phrase_lit s hlit]
  · obtain ⟨e, he, hpfx⟩ := dictOk_entry hd hlo hhi
    obtain ⟨ph, hph, hne, -⟩ := phrase_present hd _ e.pfx rfl hpfx
    have hk : phrase s k = some (ph ++ [e.ch]) := by rw [phrase_step hd hlo hhi he, hph]; rfl
    obtain ⟨hfirst, hsome⟩ := firstByte_phrase_append hph hk hne
    exact ⟨e, ph, he, hph, hk, hfirst, hsome, by simp [phraseLength, hk]⟩
  · refine phrase_none s fun hp => ?_
    have hk : k.toNat = 256 ∨ k.toNat = 257 ∨ s.next.toNat ≤ k.toNat ∧ 256 ≤ k.toNat :=
      hnone.imp (congrArg BitVec.toNat) (Or.imp_left (congrArg BitVec.toNat))
    simp only [present, Config.nLit, Config.firstFree] at hp
    omega
  · have hp : present s k := by
      by_contra hp
      simp [phraseLength, phrase_none s hp] at hn
    obtain ⟨ph, hph, -, hbound, -⟩ := phrase_present hd _ k rfl hp
    obtain rfl : ph.length = n := by simpa [phraseLength, hph] using hn
    exact hbound hlo

/-- Settles O45: every shared operation writes a memory by `MemWrite` or empties it. -/
theorem memoriesStayCanonical : Obligations.MemoriesStayCanonical := by
  intro s t hm h
  obtain ⟨rest, ⟨i, -, hw⟩ | ⟨-, p, rfl⟩ | ⟨-, a, b, rfl⟩ | ⟨n, d, f, rfl⟩⟩ := step_writes h
  · exact hw.memoriesCanonical hm
  · exact memoriesCanonical_commandStart p hm
  · obtain ⟨hibuf, hrest⟩ := hm
    exact ⟨Memory.wf_write a b hibuf, hrest⟩
  · exact hm

/-- Settles O46: no way an instruction writes reaches the input. -/
theorem noInstructionWritesTheInput : Obligations.NoInstructionWritesTheInput :=
  fun _ _ _ h => (exec_writes h).inputKept

/-- Settles O47, one case for each way a selected step goes on. -/
theorem eachStepWritesOnlyItsRegisters : Obligations.EachStepWritesOnlyItsRegisters := by
  intro s t i hs h
  cases exec_selected_writes hs h <;> simp

/-- Settles O49: the entry a step inserts stands at `NEXT`, and none is inserted into a full dictionary. -/
theorem dictionaryOnlyGrows : Obligations.DictionaryOnlyGrows := by
  intro s t hi hb h
  obtain ⟨hle, hsucc, hread, hfrozen⟩ := step_dictGrows hi hb h
  refine ⟨hle, hsucc, hread, fun hf => ?_⟩
  obtain ⟨hn, hw, hd⟩ := hfrozen hf
  exact ⟨hd, hn, hw, width_of_frozen hi.counters.1 hf⟩

/-- Settles O7: the columns of 10_state.md R57 are `State.reset` and `commandStart`. -/
theorem resetAndStartValues : Obligations.ResetAndStartValues := by
  refine ⟨by simp [State.reset], by decide, fun s c => ?_, fun s hb => ⟨exec_compress_idle hb, exec_decompress_idle hb⟩⟩
  have hlit : (c.setWidth 16).toNat < 256 := by simp; omega
  rw [phrase_lit s hlit, BitVec.setWidth_setWidth_of_le c (by decide), BitVec.setWidth_eq]

/-- Settles O11: a start is a function of the fields it keeps. -/
theorem startForgetsEarlierCommand : Obligations.StartForgetsEarlierCommand := by
  intro s s' hb hb' hilen hibuf hhost hread hret hfresh
  have hstart (p : Phase) := commandStart_congr p hilen hibuf hhost hread hret hfresh
  rw [exec_compress_idle hb, exec_compress_idle hb', exec_decompress_idle hb, exec_decompress_idle hb', hstart, hstart]
  exact ⟨rfl, rfl⟩

/-- Settles O19, the bits of `STATUS` phase by phase. -/
theorem statusAndCfgRead : Obligations.StatusAndCfgRead := by
  refine ⟨fun s rest => ⟨fun v h => step_writeReg_readOnly h (by decide) (by decide), fun h => ?_⟩, by decide,
    fun s rest => ⟨fun h => step_readReg h, fun v h => step_writeReg_readOnly h (by decide) (by decide)⟩⟩
  refine ⟨(statusWord s).toNat, step_readReg h, ?_⟩
  rw [statusWord_value]
  simp only [busy, doneFlag, errFlag]
  cases s.phase <;> decide

end Sys2Proof.Machine
end

section
/-! PROOFS. The bounds of 20_memory.md R71: the bits of `n` codes, the length of a phrase and of an entry, and the sizes of
`CBUF` and `OBUF` against the input. -/

namespace Sys2Proof

/-- Every code word has 9 to 16 bits (30_encoding.md R91, R107). -/
theorem bitTotal_bounds (n : Nat) : 9 * n ≤ bitTotal n ∧ bitTotal n ≤ 16 * n := by
  induction n with
  | zero => exact ⟨Nat.le_refl 0, Nat.le_refl 0⟩
  | succ n ih =>
    have hw : 9 ≤ codeWidth (n + 1) ∧ codeWidth (n + 1) ≤ 16 := widthOfCount_range _
    simp only [bitTotal]
    omega

namespace Machine

variable {s t : State}

/-! ### The packer's output -/

/-- `PACK_PAD` ends with the whole bytes that hold the bits packed so far (43_bit_packer.md R178). -/
theorem padLastByte_olen (s : State) : (padLastByte s).olen = (8 * s.olen + s.accn.toNat + 7) / 8 := by
  have hlt := s.accn.isLt
  unfold padLastByte
  split
  · simp only [appendByte_olen]; omega
  · simp only []; omega

theorem exec_packPad_next (h : exec .packPad s = .next t) : t = padLastByte s := by
  obtain ⟨-, heq⟩ := whenSelected_next.1 h
  cases heq
  rfl

/-- In `COMPRESS` every code stands for at least one input byte, and takes at most two bytes of `OBUF`. -/
theorem compress_bounds (hi : Inv s) (hc : compressing s.phase = true) : s.clen ≤ s.ilen ∧ s.olen ≤ 2 * s.ilen := by
  have hphase := hi.phase
  obtain ⟨-, hbits16⟩ := bitTotal_bounds s.cpos
  unfold phaseOk at hphase
  cases hp : s.phase with
  | encRun | encFlush =>
    simp only [hp] at hphase
    obtain ⟨hipos, -, hclen, -, ⟨-, -, -, holen⟩, -⟩ := hphase
    omega
  | packRun =>
    simp only [hp] at hphase
    obtain ⟨hcpos, hclen, -, hbits, -⟩ := hphase
    omega
  | packPad =>
    simp only [hp] at hphase
    obtain ⟨hcpos, hclen, hbits, -⟩ := hphase
    omega
  | idle | unpackRun | decFirst | decRun | done | err => simp [hp, compressing] at hc

/-- The end of `COMPRESS`: `OLEN` is the bit total in whole bytes (30_encoding.md R107). -/
theorem packPad_bounds (hi : Inv s) (hp : s.phase = .packPad) (h : exec .packPad s = .next t) :
    t.olen = (bitTotal s.clen + 7) / 8 ∧ t.olen ≤ 2 * s.ilen := by
  have hphase := hi.phase
  simp only [phaseOk, hp] at hphase
  obtain ⟨hcpos, hclen, hbits, -⟩ := hphase
  obtain ⟨-, hbits16⟩ := bitTotal_bounds s.clen
  rw [hcpos] at hbits
  rw [exec_packPad_next h, padLastByte_olen, hbits]
  exact ⟨rfl, by omega⟩

/-! ### The unpacker's codes -/

/-- In `DECOMPRESS` the codes in `CBUF` took at least nine bits of the input each. -/
theorem decompress_bounds (hi : Inv s) (hd : decompressing s.phase = true) : 9 * s.clen ≤ 8 * s.ilen := by
  obtain ⟨hbits9, -⟩ := bitTotal_bounds s.clen
  suffices hbits : bitTotal s.clen ≤ 8 * s.ilen from hbits9.trans hbits
  have hphase := hi.phase
  unfold phaseOk at hphase
  cases hp : s.phase with
  | unpackRun =>
    simp only [hp] at hphase
    obtain ⟨-, -, -, -, hupos, hle, -⟩ := hphase
    omega
  | decFirst | decRun =>
    simp only [hp] at hphase
    obtain ⟨-, -, -, -, hle⟩ := hphase
    exact hle
  | idle | encRun | encFlush | packRun | packPad | done | err => simp [hp, decompressing] at hd

/-! ### The decoder's output -/

/-- The phrase of a phrase code is one byte longer than that of a smaller code, so `NEXT` bounds every phrase
(10_state.md R51 (d)). -/
theorem phrase_length_le {k : Code} {ph : List Byte} (hd : dictOk s) (hph : phrase s k = some ph) :
    ph.length ≤ max 1 (s.next.toNat - 257) := by
  have hk : present s k := by
    by_contra hk
    rw [phrase_none s hk] at hph
    cases hph
  obtain ⟨ph', hph', -, hfree, hlit⟩ := phrase_present hd _ k rfl hk
  cases hph.symm.trans hph'
  obtain hlt | ⟨hge, hlt⟩ := hk
  · rw [hlit hlt]
    exact le_max_left ..
  · have := (hfree hge).2
    omega

/-- The entry of a code is a phrase, or for the code equal to `NEXT` a phrase and one byte (40_dictionary_engine.md R124). -/
theorem engineResolve_length_le {k : Code} {entry : List Byte} {f : Byte} (hd : dictOk s)
    (hr : engineResolve k s = .found entry f) : entry.length ≤ max 1 (s.next.toNat - 257) + 1 := by
  obtain ⟨-, -, ⟨-, hph, -⟩ | ⟨p, e, -, -, hph, -, rfl⟩⟩ := engineResolve_found hr
  · exact (phrase_length_le hd hph).trans (Nat.le_succ _)
  · rw [List.length_append, List.length_singleton]
    exact Nat.succ_le_succ (phrase_length_le hd hph)

theorem decodeNext_olen_le {k : Code} (hd : dictOk s) (h : decodeNext k s = .next t) :
    t.olen ≤ s.olen + (max 1 (s.next.toNat - 257) + 1) := by
  obtain ⟨sub, -, rfl⟩ | ⟨entry, f, p, hr, -, rfl⟩ := decodeNext_next h
  · exact Nat.zero_le _
  · simp only [engineInsert_olen, appendBytes_olen]
    exact Nat.add_le_add_left (engineResolve_length_le hd hr) _

theorem exec_decNext_next (h : exec .decNext s = .next t) :
    ∃ k, codeAt s s.cpos = some k ∧ decodeNext k s = .next t := by
  obtain ⟨-, htake⟩ := whenSelected_next.1 h
  exact takeNextCode_next htake

/-- Code number `i = CPOS + 1` is taken with `NEXT <= 257 + CPOS` (42_decoder.md R159), so its entry has `i` bytes at most. -/
theorem decNext_olen_le (hi : Inv s) (hp : s.phase = .decRun) (h : exec .decNext s = .next t) :
    t.olen ≤ s.olen + (s.cpos + 1) := by
  obtain ⟨k, -, hk⟩ := exec_decNext_next h
  have holen := decodeNext_olen_le hi.dict hk
  have hphase := hi.phase
  simp only [phaseOk, hp] at hphase
  obtain ⟨hcpos, -, -, hnext, -⟩ := hphase
  have hcount : codeCount s.cpos ≤ 257 + s.cpos := min_le_left _ _
  omega

/-! ### The statement -/

/-- Settles O53: codes have 9 to 16 bits, and the entry of code number `i` has at most `i` bytes. -/
theorem bufferBounds : Obligations.BufferBounds := fun _ hi =>
  ⟨compress_bounds hi, decompress_bounds hi, fun _ hp h => packPad_bounds hi hp h,
    fun _ hp _ h => decNext_olen_le hi hp h⟩

end Machine

end Sys2Proof
end

section
/-! PROOFS. The encodings of 30_encoding.md: the class of a code, decoding what was encoded, the bits of a byte
sequence, and a code word read back at any bit position. -/

namespace Sys2Proof

/-! ### The classes of a code -/

section

variable {next : Count} {k : Code}

theorem classOf_lit (h : k.toNat < 256) : classOf next k = .lit (k.setWidth 8) := if_pos h

theorem classOf_rsv (hlo : 256 ≤ k.toNat) (hhi : k.toNat < 258) : classOf next k = .rsv (k.setWidth 1) := by
  rw [classOf, if_neg (Nat.not_lt.2 hlo), if_pos hhi]

/-- From code 258 on the class is the order of the code and `NEXT` (30_encoding.md R100). -/
theorem classOf_free (h : 258 ≤ k.toNat) :
    classOf next k =
      if k.toNat < next.toNat then .phr k else if k.toNat = next.toNat then .kwk k else .bad k := by
  rw [classOf, if_neg (Nat.not_lt.2 (Nat.le_trans (by decide) h)), if_neg (Nat.not_lt.2 h)]

theorem classOf_phr (hlo : 258 ≤ k.toNat) (h : k.toNat < next.toNat) : classOf next k = .phr k := by
  rw [classOf_free hlo, if_pos h]

theorem classOf_kwk (hlo : 258 ≤ k.toNat) (h : k.toNat = next.toNat) : classOf next k = .kwk k := by
  rw [classOf_free hlo, if_neg (Nat.not_lt.2 h.ge), if_pos h]

theorem classOf_bad (hlo : 258 ≤ k.toNat) (h : next.toNat < k.toNat) : classOf next k = .bad k := by
  rw [classOf_free hlo, if_neg h.not_gt, if_neg h.ne']

/-- A reserved code is 256 and its low bit (30_encoding.md R100, R102). -/
theorem reserved_eq (hlo : 256 ≤ k.toNat) (hhi : k.toNat < 258) : 256#16 + (k.setWidth 1).setWidth 16 = k := by
  apply BitVec.eq_of_toNat_eq
  simp
  omega

theorem literal_eq (h : k.toNat < 256) : (k.setWidth 8).setWidth 16 = k := by
  apply BitVec.eq_of_toNat_eq
  simp
  omega

/-- The class of a code is an instruction of that code. -/
theorem encode_classOf (next : Count) (k : Code) : encode (classOf next k) = some (.code k) := by
  obtain h | h | h : k.toNat < 256 ∨ (256 ≤ k.toNat ∧ k.toNat < 258) ∨ 258 ≤ k.toNat := by omega
  · rw [classOf_lit h, encode, literal_eq h]
  · rw [classOf_rsv h.1 h.2, encode, reserved_eq h.1 h.2]
  · rw [classOf_free h]
    split
    · rfl
    · split <;> rfl

theorem literal_toNat_lt (c : Byte) : (c.setWidth 16).toNat < 256 := by simp; omega

theorem literal_setWidth (c : Byte) : (c.setWidth 16).setWidth 8 = c := by
  rw [BitVec.setWidth_setWidth_of_le c (by decide), BitVec.setWidth_eq]

theorem classOf_literal (next : Count) (c : Byte) : classOf next (c.setWidth 16) = .lit c := by
  rw [classOf_lit (literal_toNat_lt c), literal_setWidth]

theorem reserved_toNat (r : BitVec 1) :
    (256#16 + r.setWidth 16).toNat = 256 ∨ (256#16 + r.setWidth 16).toNat = 257 := by
  revert r
  decide

theorem reserved_setWidth (r : BitVec 1) : (256#16 + r.setWidth 16).setWidth 1 = r := by
  revert r
  decide

theorem classOf_reserved (next : Count) (r : BitVec 1) : classOf next (256#16 + r.setWidth 16) = .rsv r := by
  have hr := reserved_toNat r
  rw [classOf_rsv (by omega) (by omega), reserved_setWidth]

/-- A class instruction that meets its row's condition on `NEXT` is the class of its code (30_encoding.md R100). -/
theorem classOf_encode {i : Instr} (hw : i.wellFormed = true) (ha : i.agreesWithNext next = true)
    (h : encode i = some (.code k)) : classOf next k = i := by
  cases i <;> cases h
  case lit c => exact classOf_literal next c
  case rsv r => exact classOf_reserved next r
  case phr => exact classOf_phr (of_decide_eq_true hw) (of_decide_eq_true ha)
  case kwk => exact classOf_kwk (of_decide_eq_true hw) (of_decide_eq_true ha)
  case bad => exact classOf_bad (Nat.le_of_lt (of_decide_eq_true hw)) (of_decide_eq_true ha)

end

/-! ### The code words -/

/-- Widths and values of a code word (30_encoding.md R91). -/
theorem encode_codeWord_range {i : Instr} {w v : Nat} (h : encode i = some (.codeWord w v)) :
    w ≤ 16 ∧ v < 2 ^ w := by
  cases i <;> cases h <;> exact ⟨by decide, BitVec.isLt _⟩

theorem codeWordOf_encode {i : Instr} {w v : Nat} (h : encode i = some (.codeWord w v)) :
    codeWordOf w v = .instr i := by
  have hv := Nat.not_le.2 (encode_codeWord_range h).2
  cases i <;> cases h <;> rw [codeWordOf, if_neg hv] <;> simp only [BitVec.ofNat_toNat, BitVec.setWidth_eq]

theorem encode_codeWordOf {i : Instr} {w v : Nat} (h : codeWordOf w v = .instr i) :
    encode i = some (.codeWord w v) := by
  unfold codeWordOf at h
  split at h
  case isTrue => cases h
  case isFalse hv =>
    have hv := Nat.mod_eq_of_lt (Nat.not_le.1 hv)
    split at h <;> cases h <;> rw [encode, BitVec.toNat_ofNat, hv]

/-! ### Bits and bytes -/

/-- The eight bits of a byte are the bits it was made of, missing ones zero (30_encoding.md R93, R96). -/
theorem wordBits_byteOfBits (bits : List Bool) :
    wordBits 8 (byteOfBits bits).toNat = (List.range 8).map (bits.getD · false) := by
  simp only [byteOfBits, List.range, List.range.loop, List.foldl, List.map]
  generalize bits.getD 0 false = b₀, bits.getD 1 false = b₁, bits.getD 2 false = b₂, bits.getD 3 false = b₃,
    bits.getD 4 false = b₄, bits.getD 5 false = b₅, bits.getD 6 false = b₆, bits.getD 7 false = b₇
  revert b₀ b₁ b₂ b₃ b₄ b₅ b₆ b₇
  decide

theorem wordBits_byteOfBits_getElem? (bits : List Bool) {j : Nat} (hj : j < bits.length) (h8 : j < 8) :
    (wordBits 8 (byteOfBits bits).toNat)[j]? = bits[j]? := by
  rw [wordBits_byteOfBits]
  simp [h8, hj]

/-- `bit(B, p)` is the bit at `p` of the sequence's bit string (20_memory.md R60). -/
theorem bitOf_eq_bitsOf (bs : List Byte) (p : Nat) : bitOf bs p = (Functional.bitsOf bs)[p]? := by
  induction bs generalizing p with
  | nil => rfl
  | cons b bs ih =>
    rw [Functional.bitsOf, List.flatMap_cons]
    by_cases hp : p < 8
    · rw [List.getElem?_append_left (by rwa [Machine.wordBits_length])]
      simp [bitOf, wordBits, BitVec.getLsbD, hp, Nat.div_eq_of_lt hp, Nat.mod_eq_of_lt hp]
    · rw [List.getElem?_append_right (by rw [Machine.wordBits_length]; omega), Machine.wordBits_length]
      have hdiv : p / 8 = (p - 8) / 8 + 1 := by omega
      have hmod : p % 8 = (p - 8) % 8 := by omega
      rw [← Functional.bitsOf, ← ih, bitOf, hdiv, hmod, List.getElem?_cons_succ]
      rfl

/-- The first byte takes the first eight bits, or all of fewer (30_encoding.md R93, R96). -/
theorem packBits_eq_cons {bits : List Bool} (h : bits ≠ []) :
    packBits bits = byteOfBits (bits.take 8) :: packBits (bits.drop 8) := by
  match bits with
  | [] => exact absurd rfl h
  | [_] | [_, _] | [_, _, _] | [_, _, _, _] | [_, _, _, _, _] | [_, _, _, _, _, _] | [_, _, _, _, _, _, _]
  | _ :: _ :: _ :: _ :: _ :: _ :: _ :: _ :: _ => rfl

/-- A bit string cut into bytes has its bits at their positions. -/
theorem bitsOf_packBits_getElem? {bits : List Bool} {p : Nat} (hp : p < bits.length) :
    (Functional.bitsOf (packBits bits))[p]? = bits[p]? := by
  induction p using Nat.strongRecOn generalizing bits with
  | _ p ih =>
    rw [packBits_eq_cons (List.ne_nil_of_length_pos (by omega)), Functional.bitsOf, List.flatMap_cons,
      ← Functional.bitsOf]
    by_cases h8 : p < 8
    · rw [List.getElem?_append_left (by rwa [Machine.wordBits_length]),
        wordBits_byteOfBits_getElem? _ (by rw [List.length_take]; omega) h8, List.getElem?_take_of_lt h8]
    · rw [List.getElem?_append_right (by rw [Machine.wordBits_length]; omega), Machine.wordBits_length,
        ih (p - 8) (by omega) (by rw [List.length_drop]; omega), List.getElem?_drop, Nat.add_sub_cancel' (by omega)]

theorem bitOf_packBits {bits : List Bool} {p : Nat} (hp : p < bits.length) : bitOf (packBits bits) p = bits[p]? := by
  rw [bitOf_eq_bitsOf, bitsOf_packBits_getElem? hp]

theorem packBits_length (bits : List Bool) : (packBits bits).length = (bits.length + 7) / 8 := by
  induction hn : bits.length using Nat.strongRecOn generalizing bits with
  | _ n ih =>
    subst hn
    by_cases h : bits = []
    · subst h; rfl
    · have hpos := List.length_pos_iff.2 h
      rw [packBits_eq_cons h, List.length_cons, ih _ (by rw [List.length_drop]; omega) _ rfl, List.length_drop]
      omega

/-- Reading `w` positions that hold the bits of `v` gives the low `w` bits of `v` (30_encoding.md R93, R94). -/
theorem readBits_wordBits {bit : Nat → Option Bool} {p w v : Nat}
    (h : ∀ j, j < w → bit (p + j) = (wordBits w v)[j]?) : readBits bit p w = some (v % 2 ^ w) := by
  induction w generalizing v with
  | zero => rw [readBits, pow_zero, Nat.mod_one]
  | succ w ih =>
    have hhigh : readBits bit p w = some (v / 2 % 2 ^ w) := ih fun j hj => by
      rw [h j (by omega)]
      simp only [wordBits, List.getElem?_map, List.getElem?_range hj, List.getElem?_range (Nat.lt_succ_of_lt hj),
        Option.map_some, ← Nat.testBit_succ]
      congr 2
      omega
    have hlow : bit (p + w) = some (v.testBit 0) := by
      rw [h w (Nat.lt_succ_self w)]
      simp [wordBits]
    rw [readBits, hhigh, hlow, Nat.testBit_zero, pow_succ', Nat.mod_mul]
    simp only [Option.some.injEq]
    have : (decide (v % 2 = 1)).toNat = v % 2 := by
      obtain h | h := Nat.mod_two_eq_zero_or_one v <;> simp [h]
    omega

/-- A code word's bits, wherever they stand in a byte sequence, are read as the word. -/
theorem decodeBytes_packBits {w v : Nat} (pre post : List Bool) (hv : v < 2 ^ w) :
    decodeBytes (packBits (pre ++ wordBits w v ++ post)) pre.length w = codeWordOf w v := by
  have hread : readBits (bitOf (packBits (pre ++ wordBits w v ++ post))) pre.length w = some (v % 2 ^ w) := by
    refine readBits_wordBits fun j hj => ?_
    have hlen := Machine.wordBits_length w v
    rw [bitOf_packBits (by simp only [List.length_append]; omega), List.append_assoc,
      List.getElem?_append_right (Nat.le_add_right ..), Nat.add_sub_cancel_left, List.getElem?_append_left (by omega)]
  rw [decodeBytes, hread, Nat.mod_eq_of_lt hv]

/-! ### The statements -/

/-- Settles O2: one case per kind of encoded object (30_encoding.md R90). -/
theorem decodeOfEncode : Obligations.DecodeOfEncode := by
  intro next i e hw ha he
  cases e with
  | codeWord w v => exact codeWordOf_encode he
  | code k => exact congrArg Decoded.instr (classOf_encode hw ha he)
  | command w => cases i <;> cases he <;> rfl
  | selector phase cond => cases i <;> cases he <;> rfl

/-- Settles O3: the word's bits are read at their position, and decode to its instruction. -/
theorem codeWordReadBackAtAnyBit : Obligations.CodeWordReadBackAtAnyBit := fun _ _ _ pre post h =>
  (decodeBytes_packBits pre post (encode_codeWord_range h).2).trans (codeWordOf_encode h)

/-- Settles O4: the classes are read off `classOf`, and a code of 16 bits is below 65536. -/
theorem codeClassByNext : Obligations.CodeClassByNext := by
  intro next k hnext
  have hk := k.isLt
  refine ⟨fun h => ⟨k.setWidth 8, congrArg _ (classOf_lit (by omega)), ?_⟩, ?_, ?_, fun hlo h => ?_, fun h => ?_,
    fun h => ?_⟩
  · rw [BitVec.toNat_setWidth, Nat.mod_eq_of_lt (by omega)]
  · rintro rfl
    exact congrArg _ (classOf_reserved next 0)
  · rintro rfl
    exact congrArg _ (classOf_reserved next 1)
  · exact congrArg _ (classOf_phr hlo h)
  · exact ⟨by omega, congrArg _ (classOf_kwk (by omega) h)⟩
  · exact ⟨by omega, congrArg _ (classOf_bad (by omega) h)⟩

/-- Settles O1, each word of the list by running the decoder. -/
theorem sampleWordsDecode : Obligations.SampleWordsDecode := by
  unfold Obligations.SampleWordsDecode
  decide

end Sys2Proof
end

section
/-! PROOFS. The width schedule in full (30_encoding.md R97, R98), the bits of a code sequence (R107), and that every
code the encoder emits fits its width (R92). -/

namespace Sys2Proof

/-! ### The width schedule -/

/-- Between two powers of two the width is the exponent of the upper one, up to 16 (30_encoding.md R97). -/
theorem widthOfCount_of_pow {n e : Nat} (h9 : 9 ≤ e) (hlo : 2 ^ e ≤ n) (hhi : n < 2 ^ (e + 1)) :
    widthOfCount n = min 16 (e + 1) := by
  have h512 : 512 ≤ n := (Nat.pow_le_pow_right (by decide) h9).trans hlo
  have hlog : Nat.log2 n = e := (Nat.log2_eq_iff (by omega)).2 ⟨hlo, hhi⟩
  rw [widthOfCount, if_neg (Nat.not_lt.2 h512), hlog]

theorem codeCount_of_le {i : Nat} (h : i ≤ 65279) : codeCount i = 257 + i :=
  min_eq_left (Nat.add_le_add_left h 257)

theorem codeCount_of_ge {i : Nat} (h : 65279 ≤ i) : codeCount i = 65536 :=
  min_eq_right (Nat.add_le_add_left h 257)

theorem codeCount_le_two_pow (i : Nat) : codeCount i ≤ 2 ^ codeWidth i :=
  count_le_two_pow_width (min_le_right _ _)

/-- A row of 30_encoding.md R98: the codes written while the count is between two powers of two. -/
theorem codeWidth_of_pow {i : Nat} (e : Nat) (hlo : 2 ^ e ≤ 257 + i) (hhi : 257 + i < 2 ^ (e + 1))
    (h9 : 9 ≤ e := by decide) (h15 : e ≤ 15 := by decide) : codeWidth i = e + 1 := by
  have hcap : 2 ^ (e + 1) ≤ 2 ^ 16 := Nat.pow_le_pow_right (by decide) (by omega)
  rw [codeWidth, codeCount_of_le (by omega), widthOfCount_of_pow h9 hlo hhi]
  omega

theorem codeWidth_of_le {i : Nat} (h : i ≤ 254) : codeWidth i = 9 := by
  rw [codeWidth, codeCount_of_le (by omega), widthOfCount, if_pos (by omega)]

/-- The last row of 30_encoding.md R98, the freeze included. -/
theorem codeWidth_of_ge {i : Nat} (h : 32511 ≤ i) : codeWidth i = 16 := by
  obtain hi | hi := Nat.lt_or_ge i 65279
  · exact codeWidth_of_pow 15 (by omega) (by omega)
  · rw [codeWidth, codeCount_of_ge hi]
    decide

/-! ### The bits of a code sequence -/

/-- Codes of one width add that many bits each. -/
theorem bitTotal_of_width {a n w : Nat} (hn : a ≤ n) (h : ∀ i, a < i → i ≤ n → codeWidth i = w) :
    bitTotal n = bitTotal a + w * (n - a) := by
  induction n, hn using Nat.le_induction with
  | base => rw [Nat.sub_self, Nat.mul_zero, Nat.add_zero]
  | succ n hn ih =>
    rw [bitTotal, ih fun i ha hi => h i ha (Nat.le_succ_of_le hi), h (n + 1) (by omega) le_rfl,
      Nat.succ_sub hn, Nat.mul_succ, Nat.add_assoc]

/-- The bits of `n` codes, the last of them in the row of `2 ^ e` and code number `a` the last one before that row. -/
theorem bitTotal_of_pow {n : Nat} (e a : Nat) (ha : a ≤ n) (hhi : 257 + n < 2 ^ (e + 1))
    (hlo : 2 ^ e ≤ 258 + a := by decide) (h9 : 9 ≤ e := by decide) (h15 : e ≤ 15 := by decide) :
    bitTotal n = bitTotal a + (e + 1) * (n - a) :=
  bitTotal_of_width ha fun _ hai hin => codeWidth_of_pow e (by omega) (by omega) h9 h15

theorem bitTotal_of_le {n : Nat} (h : n ≤ 254) : bitTotal n = 9 * n := by
  rw [bitTotal_of_width (Nat.zero_le n) fun i _ hi => codeWidth_of_le (hi.trans h), bitTotal, Nat.zero_add,
    Nat.sub_zero]

theorem bitTotal_254 : bitTotal 254 = 2286 := bitTotal_of_le le_rfl

theorem bitTotal_766 : bitTotal 766 = 7406 := by
  rw [bitTotal_of_pow 9 254 (by decide) (by decide), bitTotal_254]

theorem bitTotal_1790 : bitTotal 1790 = 18670 := by
  rw [bitTotal_of_pow 10 766 (by decide) (by decide), bitTotal_766]

theorem bitTotal_3838 : bitTotal 3838 = 43246 := by
  rw [bitTotal_of_pow 11 1790 (by decide) (by decide), bitTotal_1790]

theorem bitTotal_7934 : bitTotal 7934 = 96494 := by
  rw [bitTotal_of_pow 12 3838 (by decide) (by decide), bitTotal_3838]

theorem bitTotal_16126 : bitTotal 16126 = 211182 := by
  rw [bitTotal_of_pow 13 7934 (by decide) (by decide), bitTotal_7934]

theorem bitTotal_32510 : bitTotal 32510 = 456942 := by
  rw [bitTotal_of_pow 14 16126 (by decide) (by decide), bitTotal_16126]

/-- The bits of the codes from code number `i + 1` on are the difference of two bit totals (30_encoding.md R107). -/
theorem bitTotal_add_length (i : Nat) (ks : List Code) :
    bitTotal i + (Functional.codeBitsFrom (i + 1) ks).length = bitTotal (i + ks.length) := by
  induction ks generalizing i with
  | nil => rfl
  | cons k ks ih =>
    rw [Functional.codeBitsFrom, List.length_append, Machine.wordBits_length, ← Nat.add_assoc, ← bitTotal, ih,
      List.length_cons, Nat.succ_add_eq_add_succ]

theorem pack_eq_some {ks : List Code} {out : List Byte} :
    Functional.pack ks = some out ↔
      Functional.fitsFrom 1 ks = true ∧ packBits (Functional.codeBitsFrom 1 ks) = out := by
  unfold Functional.pack
  split <;> simp_all

theorem pack_length {ks : List Code} {out : List Byte} (h : Functional.pack ks = some out) :
    out.length = (bitTotal ks.length + 7) / 8 := by
  obtain ⟨-, rfl⟩ := pack_eq_some.1 h
  have hbits : (Functional.codeBitsFrom 1 ks).length = bitTotal ks.length := by
    simpa [bitTotal] using bitTotal_add_length 0 ks
  rw [packBits_length, hbits]

/-- Settles O5: a row of the width is `codeWidth_of_pow` at its power of two, and of the bits `bitTotal_of_pow`. -/
theorem widthScheduleAndBitTotals : Obligations.WidthScheduleAndBitTotals := by
  refine ⟨fun i _ => ⟨codeWidth_of_le, fun _ _ => codeWidth_of_pow 9 (by omega) (by omega),
    fun _ _ => codeWidth_of_pow 10 (by omega) (by omega), fun _ _ => codeWidth_of_pow 11 (by omega) (by omega),
    fun _ _ => codeWidth_of_pow 12 (by omega) (by omega), fun _ _ => codeWidth_of_pow 13 (by omega) (by omega),
    fun _ _ => codeWidth_of_pow 14 (by omega) (by omega), codeWidth_of_ge, codeCount_of_le, codeCount_of_ge⟩,
    rfl, bitTotal_254, bitTotal_766, bitTotal_1790, bitTotal_3838, bitTotal_7934, bitTotal_16126, bitTotal_32510,
    fun _ _ => pack_length, fun n => ⟨bitTotal_of_le, fun ha _ => ?_, fun ha _ => ?_, fun ha _ => ?_, fun ha _ => ?_,
      fun ha _ => ?_, fun ha _ => ?_, fun ha => ?_⟩⟩
  · rw [bitTotal_of_pow 9 254 ha (by omega), bitTotal_254]
  · rw [bitTotal_of_pow 10 766 ha (by omega), bitTotal_766]
  · rw [bitTotal_of_pow 11 1790 ha (by omega), bitTotal_1790]
  · rw [bitTotal_of_pow 12 3838 ha (by omega), bitTotal_3838]
  · rw [bitTotal_of_pow 13 7934 ha (by omega), bitTotal_7934]
  · rw [bitTotal_of_pow 14 16126 ha (by omega), bitTotal_16126]
  · rw [bitTotal_of_width ha fun i hi _ => codeWidth_of_ge hi, bitTotal_32510]

/-! ### The encoder's codes -/

namespace Functional

/-- What 30_encoding.md R92 and 41_encoder.md R146 (b) say of code number `i`: never reserved, and below the count. -/
def fitsNumber (i : Nat) (k : Code) : Prop := (k.toNat < 256 ∨ 258 ≤ k.toNat) ∧ k.toNat < codeCount i

theorem fitsNumber.lt_two_pow {i : Nat} {k : Code} (h : fitsNumber i k) : k.toNat < 2 ^ codeWidth i :=
  h.2.trans_le (codeCount_le_two_pow i)

theorem fitsFrom_of_forall {i : Nat} {ks : List Code}
    (h : ∀ j k, ks[j]? = some k → k.toNat < 2 ^ codeWidth (i + j)) : fitsFrom i ks = true := by
  induction ks generalizing i with
  | nil => rfl
  | cons k ks ih =>
    rw [fitsFrom, Bool.and_eq_true, decide_eq_true_eq]
    refine ⟨h 0 k rfl, ih fun j k' hj => ?_⟩
    rw [Nat.add_right_comm]
    exact h (j + 1) k' hj

/-- A code in use is a byte or the place of a phrase (10_state.md R52). -/
theorem codeOf_fits {d : Phrases} {w : List Byte} {k : Code} {i : Nat} (hd : 258 + d.length ≤ codeCount i)
    (h : codeOf d w = some k) : fitsNumber i k := by
  have hcap : codeCount i ≤ 65536 := min_le_right _ _
  unfold codeOf at h
  split at h
  · rename_i b
    cases h
    have hb := literal_toNat_lt b
    exact ⟨.inl hb, by omega⟩
  · obtain ⟨j, hj, rfl⟩ := Option.map_eq_some_iff.1 h
    have hlt : j < d.length := (List.findIdx?_eq_some_iff_getElem.1 hj).1
    have hnat : (BitVec.ofNat 16 (258 + j)).toNat = 258 + j := Nat.mod_eq_of_lt (by omega)
    refine ⟨.inr ?_, ?_⟩ <;> rw [hnat] <;> omega

theorem insertPhrase_length_le {d : Phrases} {s : List Byte} {i : Nat} (hd : 258 + d.length ≤ codeCount i) :
    258 + (insertPhrase d s).length ≤ codeCount (i + 1) := by
  rw [codeCount_succ]
  have hcap : codeCount i ≤ Config.cap := min_le_right _ _
  unfold insertPhrase
  split
  · simp only [List.length_append, List.length_singleton, Config.firstFree] at *
    omega
  · omega

/-- The encoder's loop, while `w` has a code: whatever it emits next is one code, and with that code the dictionary
grows by one phrase at most, so that its size never passes the count of the next code number (41_encoder.md R146 (a),
(b)). -/
theorem encodeFrom_fits {d : Phrases} {w bs : List Byte} {i : Nat} (hw : (codeOf d w).isSome = true)
    (hd : 258 + d.length ≤ codeCount i) :
    (encodeFrom d w bs).length ≤ bs.length + 1 ∧ ∀ j k, (encodeFrom d w bs)[j]? = some k → fitsNumber (i + j) k := by
  induction bs generalizing d w i with
  | nil =>
    obtain ⟨k, hk⟩ := Option.isSome_iff_exists.1 hw
    simp only [encodeFrom, hk, Option.toList_some]
    refine ⟨le_rfl, fun j k' hj => ?_⟩
    obtain ⟨rfl, rfl⟩ : j = 0 ∧ k = k' := by simpa [List.getElem?_singleton] using hj
    exact codeOf_fits hd hk
  | cons c rest ih =>
    rw [encodeFrom]
    split
    case isTrue hit =>
      obtain ⟨hlen, hfit⟩ := ih hit hd
      exact ⟨hlen.trans (Nat.le_succ _), hfit⟩
    case isFalse =>
      obtain ⟨k, hk⟩ := Option.isSome_iff_exists.1 hw
      obtain ⟨hlen, hfit⟩ := ih (d := insertPhrase d (w ++ [c])) (w := [c]) rfl (insertPhrase_length_le hd)
      simp only [hk, Option.toList_some, List.singleton_append, List.length_cons]
      refine ⟨Nat.succ_le_succ hlen, fun j k' hj => ?_⟩
      cases j with
      | zero => cases hj; exact codeOf_fits hd hk
      | succ j =>
        rw [← Nat.succ_add_eq_add_succ]
        exact hfit j k' hj

theorem encode_fits (bs : List Byte) :
    (encode bs).length ≤ bs.length ∧ ∀ j k, (encode bs)[j]? = some k → fitsNumber (j + 1) k := by
  cases bs with
  | nil => exact ⟨le_rfl, fun j k h => nomatch h⟩
  | cons c rest =>
    have hstart : encode (c :: rest) = encodeFrom [] [c] rest := rfl
    obtain ⟨hlen, hfit⟩ := encodeFrom_fits (d := []) (w := [c]) (bs := rest) (i := 1) rfl le_rfl
    rw [hstart]
    exact ⟨hlen, fun j k h => Nat.add_comm j 1 ▸ hfit j k h⟩

end Functional

/-- Settles O56, by `encodeFrom_fits` from the first byte on. -/
theorem encodedCodesFit : Obligations.EncodedCodesFit := by
  refine ⟨fun bs => ?_, fun ks h => by rw [Functional.pack, h]; rfl⟩
  obtain ⟨hlen, hfit⟩ := Functional.encode_fits bs
  have hfits : Functional.fitsFrom 1 (Functional.encode bs) = true :=
    Functional.fitsFrom_of_forall fun j k h => Nat.add_comm j 1 ▸ (hfit j k h).lt_two_pow
  refine ⟨hfits, Option.isSome_iff_exists.2 ⟨_, pack_eq_some.2 ⟨hfits, rfl⟩⟩, hlen, fun j k h => ?_⟩
  obtain ⟨hres, hlt⟩ := hfit j k h
  exact ⟨hres, hlt, codeCount_le_two_pow (j + 1)⟩

end Sys2Proof
end

section
/-! PROOFS. What decoded objects do in the machine: the step runs the instruction that was decoded (30_encoding.md R104,
R106), a code word goes through the unpacker or the packer (R93, R94), a code class through the decoder (R100). -/

namespace Sys2Proof.Machine

variable {s : State}

/-! ### The step runs what was selected -/

theorem busy_of_selected {i : Instr} (h : selectStep s = some i) : busy s = true := by
  cases hp : s.phase <;> simp [selectStep, busy, phaseNumber, hp] at h ⊢

theorem coreTurn_of_selected {i : Instr} (h : selectStep s = some i) : coreTurn s = .run i s := by
  rw [coreTurn, h]

theorem step_of_selected {i : Instr} (hhost : s.host = []) (h : selectStep s = some i) : step s = exec i s := by
  simp only [step, fetch, hhost, coreTurn_of_selected h]

theorem step_poll_of_selected {i : Instr} {rest : List HostMove} (hhost : s.host = .poll :: rest)
    (h : selectStep s = some i) : step s = exec i s := by
  simp only [step, fetch, hhost, busy_of_selected h, coreTurn_of_selected h, if_true]

theorem step_pass_of_selected {i : Instr} {rest : List HostMove} (hhost : s.host = .pass :: rest)
    (h : selectStep s = some i) : step s = exec i (s.withHost rest) := by
  have hrest : selectStep (s.withHost rest) = some i := h
  simp only [step, fetch, hhost, coreTurn_of_selected hrest]

theorem step_writeReg_cmd {rest : List HostMove} {v : Nat} (hhost : s.host = .writeReg .cmd v :: rest) :
    step s = exec (commandOf (BitVec.ofNat 2 v)) (s.withHost rest) := by
  simp only [step, fetch, hhost]

/-- The `PHASE` value with the outcome of its comparison is the encoding of the selected step (10_state.md R31). -/
theorem stepOf_selected {i : Instr} (h : selectStep s = some i) :
    stepOf (BitVec.ofNat 4 (phaseNumber s.phase)) (rowComparison s) = .instr i := by
  cases hp : s.phase with
  | idle | done | err => simp [selectStep, hp] at h
  | encRun | encFlush | packRun | packPad | unpackRun | decFirst | decRun =>
    simp only [selectStep, hp, Option.some.injEq] at h
    subst h
    simp [stepOf, phaseNumber, rowComparison, hp]

/-- Settles O9: the write of `0b11` is a `NOP`. -/
theorem reservedCommandChangesNothing : Obligations.ReservedCommandChangesNothing := fun _ => rfl

/-- Settles O12: the two bits that `CMD` takes decode to the command that runs. -/
theorem stepRunsTheWrittenCommand : Obligations.StepRunsTheWrittenCommand := by
  intro s rest v next i hhost hdec
  cases hdec
  exact step_writeReg_cmd hhost

/-- Settles O13, by `stepOf_selected` and whose turn it is. -/
theorem stepRunsTheSelectedStep : Obligations.StepRunsTheSelectedStep := fun _ _ h =>
  ⟨fun _ => stepOf_selected h, fun hhost => step_of_selected hhost h, fun _ hhost => step_poll_of_selected hhost h,
    fun _ hhost => step_pass_of_selected hhost h⟩

/-! ### The selected step of a phase -/

theorem selectStep_unpackGet (hp : s.phase = .unpackRun) (h : s.upos + s.uwidth.toNat ≤ 8 * s.ilen) :
    selectStep s = some .unpackGet := by
  simp only [selectStep, hp, if_pos h]

theorem selectStep_packPut (hp : s.phase = .packRun) (h : s.cpos < s.clen) : selectStep s = some .packPut := by
  simp only [selectStep, hp, if_pos h]

theorem selectStep_decFirst (hp : s.phase = .decFirst) : selectStep s = some .decFirst := by
  simp only [selectStep, hp]

theorem selectStep_decNext (hp : s.phase = .decRun) (h : s.cpos < s.clen) : selectStep s = some .decNext := by
  simp only [selectStep, hp, if_pos h]

/-! ### Code words -/

theorem exec_codeWord {i : Instr} {w v : Nat} (h : encode i = some (.codeWord w v)) (s : State) :
    exec i s = passCodeWord w v s := by
  cases i <;> cases h <;> rfl

theorem exec_codeWord_unpack {i : Instr} {w v : Nat} (h : encode i = some (.codeWord w v))
    (hs : selectStep s = some .unpackGet) (hw : s.uwidth.toNat = w) : exec i s = .next (takeCode v s) := by
  rw [exec_codeWord h, passCodeWord, if_pos ⟨hs, hw⟩]

theorem exec_codeWord_pack {i : Instr} {w v : Nat} (h : encode i = some (.codeWord w v))
    (hs : selectStep s = some .packPut) (hw : s.pwidth.toNat = w) : exec i s = .next (putCode v s) := by
  rw [exec_codeWord h, passCodeWord, if_neg (by simp [hs]), if_pos ⟨hs, hw⟩]

theorem exec_unpackGet {v : Nat} (hs : selectStep s = some .unpackGet) (hv : inputCode s = some v) :
    exec .unpackGet s = .next (takeCode v s) := by
  simp only [exec, execUnpackGet, whenSelected_of_selected hs, unpackCode, hv]

theorem exec_packPut {k : Code} (hs : selectStep s = some .packPut) (hk : codeAt s s.cpos = some k)
    (hlt : k.toNat < 2 ^ s.pwidth.toNat) : exec .packPut s = .next (putCode k.toNat s) := by
  simp only [exec, execPackPut, whenSelected_of_selected hs, packCode, hk, if_neg (Nat.not_le.2 hlt)]

/-- Settles O14: the decoded word and the step it stands for write the same value. -/
theorem stepRunsTheDecodedCodeWord : Obligations.StepRunsTheDecodedCodeWord := by
  intro s w v next i hhost hdec
  have henc := encode_codeWordOf hdec
  refine ⟨fun hp hlen hw hv => ?_, fun hp hlt hw hv => ?_⟩
  · have hs := selectStep_unpackGet hp (hw ▸ hlen)
    rw [step_of_selected hhost hs, exec_unpackGet hs hv, exec_codeWord_unpack henc hs hw]
  · have hs := selectStep_packPut hp hlt
    obtain ⟨k, hk, rfl⟩ := Option.map_eq_some_iff.1 hv
    have hfit := (encode_codeWord_range henc).2
    rw [step_of_selected hhost hs, exec_packPut hs hk (hw ▸ hfit), exec_codeWord_pack henc hs hw]

/-- Settles O28: `UNPACK_GET`'s writes with the word's value, which fits a code. -/
theorem codeWordsUnderTheUnpacker : Obligations.CodeWordsUnderTheUnpacker := by
  rintro i w v s henc hp rfl hlen
  obtain ⟨hw, hv⟩ := encode_codeWord_range henc
  have hv16 : v < 2 ^ 16 := hv.trans_le (Nat.pow_le_pow_right (by decide) hw)
  exact ⟨takeCode v s, exec_codeWord_unpack henc (selectStep_unpackGet hp hlen) rfl, rfl,
    ⟨BitVec.ofNat 16 v, appended_one _ _ _, Nat.mod_eq_of_lt hv16⟩, advanced_schedule _ _⟩

theorem putCode_accn_toNat (k : Nat) (s : State) :
    (putCode k s).accn.toNat = (s.accn.toNat + s.pwidth.toNat) % 8 :=
  Nat.mod_eq_of_lt (Nat.mod_lt _ (by decide))

theorem putCode_acc_toNat (k : Nat) (s : State) :
    (putCode k s).acc.toNat =
      (s.acc.toNat * 2 ^ s.pwidth.toNat + k) % 2 ^ ((s.accn.toNat + s.pwidth.toNat) % 8) := by
  have h7 : 2 ^ ((s.accn.toNat + s.pwidth.toNat) % 8) ≤ 2 ^ 7 := Nat.pow_le_pow_right (by decide) (by omega)
  exact Nat.mod_eq_of_lt ((Nat.mod_lt _ (Nat.two_pow_pos _)).trans_le h7)

/-- `PACK_PUT` keeps the bit string and adds the code's bits (30_encoding.md R93, 43_bit_packer.md R177). -/
theorem putCode_bits {k : Nat} (hk : k < 2 ^ s.pwidth.toNat) :
    ∃ out, appended s.obuf (putCode k s).obuf s.olen out ∧ (putCode k s).olen = s.olen + out.length ∧
      wordBits s.accn.toNat s.acc.toNat ++ wordBits s.pwidth.toNat k =
        Functional.bitsOf out ++ wordBits (putCode k s).accn.toNat (putCode k s).acc.toNat := by
  refine ⟨wholeBytes (s.acc.toNat * 2 ^ s.pwidth.toNat + k) (s.accn.toNat + s.pwidth.toNat),
    appended_appendBytes _ s, appendBytes_olen _ s, ?_⟩
  rw [putCode_accn_toNat, putCode_acc_toNat, wholeBytes_bits, wordBits_append _ _ _ _ hk]

/-- Settles O29: `PACK_PUT`'s writes with the word's value. -/
theorem codeWordsUnderThePacker : Obligations.CodeWordsUnderThePacker := by
  rintro i w v s henc hp hlt rfl
  obtain ⟨out, happ, holen, hbits⟩ := putCode_bits (encode_codeWord_range henc).2
  exact ⟨putCode v s, out, exec_codeWord_pack henc (selectStep_packPut hp hlt) rfl, putCode_eq v s, happ, holen,
    hbits, advanced_schedule _ _⟩

/-! ### Code classes -/

theorem exec_code {i : Instr} {k : Code} (h : encode i = some (.code k)) (s : State) :
    exec i s = takeClass i k s := by
  cases i <;> cases h <;> rfl

/-- The class of the first code does what `DEC_FIRST` does with it. -/
theorem exec_classOf_first {i : Instr} {k : Code} (hc : classOf s.next k = i) (hp : s.phase = .decFirst)
    (hlen : 0 < s.clen) : exec i s = .next (decodeFirst k s) := by
  rw [exec_code (hc ▸ encode_classOf s.next k), takeClass, if_pos hc, if_pos ⟨selectStep_decFirst hp, hlen⟩]

/-- The class of a later code does what `DEC_NEXT` does with it. -/
theorem exec_classOf_next {i : Instr} {k : Code} (hc : classOf s.next k = i) (hp : s.phase = .decRun)
    (hlt : s.cpos < s.clen) : exec i s = decodeNext k s := by
  have hs := selectStep_decNext hp hlt
  rw [exec_code (hc ▸ encode_classOf s.next k), takeClass, if_pos hc, if_neg (by simp [hs]), if_pos hs]

theorem exec_decFirst {k : Code} (hp : s.phase = .decFirst) (hlen : 0 < s.clen) (hk : codeAt s 0 = some k) :
    exec .decFirst s = .next (decodeFirst k s) := by
  simp only [exec, execDecFirst, whenSelected_of_selected (selectStep_decFirst hp), takeFirstCode, if_neg hlen.ne', hk]

theorem exec_decNext {k : Code} (hp : s.phase = .decRun) (hlt : s.cpos < s.clen) (hk : codeAt s s.cpos = some k) :
    exec .decNext s = decodeNext k s := by
  simp only [exec, execDecNext, whenSelected_of_selected (selectStep_decNext hp hlt), takeNextCode, hk]

/-- Settles O15: the class and the step it stands for take the same code. -/
theorem stepRunsTheDecodedClass : Obligations.StepRunsTheDecodedClass := by
  intro s k i hhost hdec
  have hc : classOf s.next k = i := by cases hdec; rfl
  refine ⟨fun hp hlen hk => ?_, fun hp hlt hk => ?_⟩
  · rw [step_of_selected hhost (selectStep_decFirst hp), exec_decFirst hp hlen hk, exec_classOf_first hc hp hlen]
  · rw [step_of_selected hhost (selectStep_decNext hp hlt), exec_decNext hp hlt hk, exec_classOf_next hc hp hlt]

theorem decodeFirst_literal (c : Byte) (s : State) :
    decodeFirst (c.setWidth 16) s =
      { appendByte c s with pcode := some (c.setWidth 16), pv := true, cpos := 1, phase := .decRun } := by
  rw [decodeFirst, if_neg (Nat.not_le.2 (literal_toNat_lt c)), literal_setWidth]

theorem ne_reserved {k : Code} (h : k.toNat < 256 ∨ 258 ≤ k.toNat) : k ≠ 256 ∧ k ≠ 257 := by
  constructor <;> rintro rfl <;> simp at h

/-- Settles O36: the first literal, then each class through `DE.RESOLVE`. -/
theorem legalClassesAreDecoded : Obligations.LegalClassesAreDecoded := by
  refine ⟨fun s c hp hlen => ?_, fun s p hp hlt hpv hpc hnext => ?_⟩
  · have hx := exec_classOf_first (classOf_literal s.next c) hp hlen
    rw [decodeFirst_literal] at hx
    exact ⟨_, hx, rfl, appended_one _ _ _⟩
  have hpe : previousEntry s = some p := by simp only [previousEntry, hpv, hpc, if_true]
  refine ⟨fun c => ?_, fun k entry f hlo hhi hph hf => ?_, fun k entry f hk hph hf => ?_⟩
  · have hc := literal_toNat_lt c
    obtain ⟨h256, h257⟩ := ne_reserved (.inl hc)
    rw [exec_classOf_next (classOf_literal s.next c) hp hlt]
    have hph : phrase s (c.setWidth 16) = some [c] := by rw [phrase_lit s hc, literal_setWidth]
    exact decodeNext_found (resolve_found hpv hpc h256 h257 (.inl ⟨by omega, hph⟩) rfl) hpe
  · obtain ⟨h256, h257⟩ := ne_reserved (.inr hlo)
    rw [exec_classOf_next (classOf_phr hlo hhi) hp hlt]
    exact decodeNext_found (resolve_found hpv hpc h256 h257 (.inl ⟨hhi, hph⟩) hf) hpe
  · obtain ⟨h256, h257⟩ := ne_reserved (k := k) (.inr (by omega))
    rw [exec_classOf_next (classOf_kwk (by omega) hk) hp hlt]
    have hf' : (entry ++ [f])[0]? = some f := by
      rwa [List.getElem?_append_left (List.getElem?_eq_some_iff.1 hf).1]
    simpa only [List.length_append, List.length_singleton] using
      decodeNext_found (resolve_found hpv hpc h256 h257 (.inr ⟨hk, entry, hph, hf, rfl⟩) hf') hpe

theorem engineResolve_above {k : Code} (h : s.next.toNat < k.toNat) : engineResolve k s = .desync 1 := if_pos h

theorem engineResolve_reserved {k : Code} (h : k.toNat ≤ s.next.toNat) (hk : k.toNat = 256 ∨ k.toNat = 257) :
    engineResolve k s = .desync 2 := by
  rw [engineResolve, if_neg (Nat.not_lt.2 h), if_pos hk]

theorem decodeNext_desync {k : Code} {sub : BitVec 2} (h : engineResolve k s = .desync sub) :
    decodeNext k s = .next (raiseDesync sub k s.cpos s) := by
  rw [decodeNext, h]

theorem decodeFirst_desync {k : Code} (h : 256 ≤ k.toNat) : decodeFirst k s = raiseDesync 3 k 0 s := if_pos h

/-- Settles O37: what `DE.RESOLVE` answers for the two classes, and `DEC_FIRST` for anything but a literal. -/
theorem illegalClassesRaise : Obligations.IllegalClassesRaise := by
  refine ⟨fun s hp hlt hnext => ⟨fun r => ?_, fun k hk => ?_⟩, fun s i k hp hlen hk hdec => ?_⟩
  · have hr := reserved_toNat r
    rw [exec_classOf_next (classOf_reserved s.next r) hp hlt, decodeNext_desync (engineResolve_reserved (by omega) hr)]
    exact ⟨_, rfl, rfl⟩
  · rw [exec_classOf_next (classOf_bad (by omega) hk) hp hlt, decodeNext_desync (engineResolve_above hk)]
    exact ⟨_, rfl, rfl⟩
  · have hc : classOf s.next k = i := by cases hdec; rfl
    rw [exec_classOf_first hc hp hlen, decodeFirst_desync hk]
    exact ⟨_, rfl, rfl⟩

end Sys2Proof.Machine
end

section
/-! PROOFS. The invariant of the machine, step by step: the parts every write keeps, then one law for each core step of
44_codec_commands.md R198, for the host's moves and for the command start. -/

namespace Sys2Proof.Machine

variable {s t : State}

/-! ### The parts that every core step's writes keep -/

/-- The three counters move by `SCHED` alone (70_reset_and_hazards.md R249). -/
theorem StepWrites.countersOk {i : Instr} (h : StepWrites s i t) (hc : countersOk s) : countersOk t := by
  obtain ⟨hnext, hpack, hunpack⟩ := hc
  cases h with
  | encMiss w c => exact ⟨engineInsert_countOk hnext, by simpa using hpack, by simpa using hunpack⟩
  | decNextEntry k p entry f =>
    exact ⟨engineInsert_countOk (by simpa using hnext), by simpa using hpack, by simpa using hunpack⟩
  | packPut k => exact ⟨by simpa using hnext, schedule_ok hpack, by simpa using hunpack⟩
  | unpackGet k => exact ⟨hnext, hpack, schedule_ok hunpack⟩
  | encFirst | encHit | encEoi | flushNothing | flushCode | packEoc | packPadByte | packPadNothing | unpackStop
  | decFirstNoCode | decFirstDesync | decFirstLiteral | decNextDesync | decEnd => exact ⟨hnext, hpack, hunpack⟩

/-- `PACK_PUT` leaves fewer bits than a byte, and `ACC` holds no others (43_bit_packer.md R177). -/
theorem pendingOk_putCode (k : Nat) (s : State) : pendingOk (putCode k s) := by
  rw [pendingOk, putCode_accn_toNat, putCode_acc_toNat]
  exact Nat.mod_lt _ (Nat.two_pow_pos _)

theorem StepWrites.pendingOk {i : Instr} (h : StepWrites s i t) (hp : pendingOk s) : pendingOk t := by
  cases h with
  | packPut k => exact pendingOk_putCode k s
  | packPadByte b => exact Nat.one_pos
  | encMiss | decNextEntry => simpa [Machine.pendingOk] using hp
  | encFirst | encHit | encEoi | flushNothing | flushCode | packEoc | packPadNothing | unpackGet | unpackStop
  | decFirstNoCode | decFirstDesync | decFirstLiteral | decNextDesync | decEnd => exact hp

/-- `CBUF` and `OBUF` are written by `Append` alone, and an error makes no claim about `OBUF` (log entry 14). -/
theorem StepWrites.buffersOk {i : Instr} (h : StepWrites s i t) (hs : s.phase ≠ .err) (hb : buffersOk s) :
    buffersOk t := by
  obtain ⟨hcbuf, hobuf⟩ := hb
  replace hobuf := hobuf hs
  cases h with
  | encMiss w c => exact ⟨by simpa using holdsExactly_write hcbuf w, fun _ => by simpa using hobuf⟩
  | flushCode w | unpackGet k => exact ⟨holdsExactly_write hcbuf _, fun _ => hobuf⟩
  | packPut k => exact ⟨by simpa using hcbuf, fun _ => holdsExactly_appendBytes hobuf⟩
  | packPadByte b | decFirstLiteral k => exact ⟨hcbuf, fun _ => holdsExactly_write hobuf _⟩
  | decNextEntry k p entry f =>
    exact ⟨by simpa using hcbuf, fun _ => by simpa using holdsExactly_appendBytes hobuf⟩
  | decFirstDesync | decNextDesync => exact ⟨hcbuf, fun ht => absurd rfl ht⟩
  | encFirst | encHit | encEoi | flushNothing | packEoc | packPadNothing | unpackStop | decFirstNoCode | decEnd =>
    exact ⟨hcbuf, fun _ => hobuf⟩

/-- A core step that does not end in `ERR` leaves the error registers. -/
theorem StepWrites.errorsOk {i : Instr} (h : StepWrites s i t) (hs : s.phase ≠ .err) (ht : t.phase ≠ .err)
    (he : errorsOk s) : errorsOk t := by
  have hkept : t.errcode = s.errcode ∧ t.errval = s.errval ∧ t.erridx = s.erridx := by
    cases h with
    | decFirstDesync | decNextDesync => exact absurd rfl ht
    | encFirst | encHit | encMiss | encEoi | flushNothing | flushCode | packPut | packEoc | packPadByte
    | packPadNothing | unpackGet | unpackStop | decFirstNoCode | decFirstLiteral | decNextEntry | decEnd => simp
  obtain ⟨hcode, hval, hidx⟩ := hkept
  obtain ⟨hiff, hzero⟩ := he
  refine ⟨?_, fun _ => ?_⟩
  · rw [hcode, hiff]
    exact iff_of_false hs ht
  · rw [hval, hidx]
    exact hzero hs

/-- What is left to show of a core step that does not end in `ERR`: the table, the prefix registers and its phase. -/
theorem StepWrites.inv {i : Instr} (h : StepWrites s i t) (hi : Inv s) (hs : s.phase ≠ .err) (ht : t.phase ≠ .err)
    (hdict : dictOk t) (hprefixes : prefixesOk t) (hphase : phaseOk t) : Inv t where
  memories := h.memoriesCanonical hi.memories
  counters := h.countersOk hi.counters
  dict := hdict
  prefixes := hprefixes
  buffers := h.buffersOk hs hi.buffers
  pending := h.pendingOk hi.pending
  errors := h.errorsOk hs ht hi.errors
  phase := hphase

/-! ### Changes of `PHASE` alone, and the error entry -/

/-- Outside `ERR` the invariant speaks of `PHASE` only in its last part. -/
theorem Inv.withPhase {p : Phase} (hi : Inv s) (hs : s.phase ≠ .err) (hp : p ≠ .err)
    (hphase : phaseOk { s with phase := p }) : Inv { s with phase := p } where
  memories := hi.memories
  counters := hi.counters
  dict := hi.dict
  prefixes := hi.prefixes
  buffers := ⟨hi.buffers.1, fun _ => hi.buffers.2 hs⟩
  pending := hi.pending
  errors := ⟨hi.errors.1.trans (iff_of_false hs hp), fun _ => hi.errors.2 hs⟩
  phase := hphase

theorem Inv.done (hi : Inv s) (hs : s.phase ≠ .err) : Inv { s with phase := .done } :=
  hi.withPhase hs (by decide) trivial

/-- The error entry from any phase (60_exceptions.md R222). -/
theorem raiseDesync_inv {sub : BitVec 2} (hi : Inv s) (hsub : sub ≠ 0) (k : Code) (idx : Nat) :
    Inv (raiseDesync sub k idx s) where
  memories := hi.memories
  counters := hi.counters
  dict := hi.dict
  prefixes := hi.prefixes
  buffers := ⟨hi.buffers.1, fun h => absurd rfl h⟩
  pending := hi.pending
  errors := ⟨iff_of_true hsub rfl, fun h => absurd rfl h⟩
  phase := rfl

/-! ### The Dictionary Engine -/

theorem le_engineInsert_next (p : Code) (c : Byte) (h : s.next.toNat ≤ Config.cap) :
    s.next.toNat ≤ (engineInsert p c s).next.toNat := by
  rw [engineInsert_next h]
  exact le_min (Nat.le_succ _) h

theorem dictEntry_eq_some {k : Nat} {e : Entry} :
    dictEntry s k = some e ↔ (258 ≤ k ∧ k < s.next.toNat) ∧ Memory.read s.dict k = some e := by
  unfold dictEntry
  split
  case isTrue hrange => exact (and_iff_right hrange).symm
  case isFalse hrange => exact iff_of_false nofun fun h => hrange h.1

/-- A pair that a lookup does not find is different from every entry (10_state.md R51 (c)). -/
theorem entriesDistinct_engineInsert {p : Code} {c : Byte} (hd : dictOk s) (hx : entriesDistinct s)
    (hnone : engineLookup (some p) c s = none) : entriesDistinct (engineInsert p c s) := by
  obtain ⟨-, heq⟩ | ⟨-, heq⟩ := engineInsert_cases p c s
  · have hnew (k : Nat) : Memory.read s.dict k ≠ some ⟨p, c⟩ := fun hk =>
      engineLookup_none hnone k (dictEntry_eq_some.2 ⟨(hd.1 k).1 (by rw [hk]; rfl), hk⟩)
    intro k l e hk hl
    rw [heq, Memory.read_write] at hk hl
    split at hk <;> split at hl
    · omega
    · cases hk; exact absurd hl (hnew l)
    · cases hl; exact absurd hk (hnew k)
    · exact hx k l e hk hl
  · rw [heq]; exact hx

/-- A code that a lookup found names a phrase. -/
theorem present_of_lookup {p : Code} {c : Byte} {k : Code} (hi : Inv s) (h : engineLookup (some p) c s = some k) :
    present s k := by
  obtain ⟨-, -, -, hwf⟩ := hi.memories
  obtain ⟨⟨-, hcap, -⟩, -⟩ := hi.counters
  obtain ⟨hrange, -⟩ := dictEntry_eq_some.1 (engineLookup_some hwf hcap h)
  exact .inr hrange

theorem present_literal (s : State) (c : Byte) : present s (c.setWidth 16) := .inl (literal_toNat_lt c)

/-- A code that resolves names a phrase of the table after the insert: one that stood below `NEXT`, or the new one
(40_dictionary_engine.md R124, R125). -/
theorem present_of_resolved {k : Code} {entry : List Byte} {f : Byte} {u : State}
    (hr : engineResolve k s = .found entry f) (hnext : u.next.toNat = min (s.next.toNat + 1) Config.cap) :
    present u k := by
  have hk := k.isLt
  obtain ⟨h256, h257, hcases⟩ := engineResolve_found hr
  have hle : k.toNat ≤ s.next.toNat := by
    obtain ⟨hlt, -⟩ | ⟨-, -, heq, -⟩ := hcases <;> omega
  simp only [present, Config.nLit, Config.firstFree, Config.cap] at hnext ⊢
  omega

/-! ### The encoder -/

/-- `ENC_STEP` on a miss: one code is emitted and one entry inserted, so `NEXT` stays the count of the next code
(41_encoder.md R146 (a)). -/
theorem encodeMiss_inv {w : Code} {c : Byte} (hi : Inv s) (hp : s.phase = .encRun) (hlt : s.ipos < s.ilen)
    (hv : s.wv = true) (hwc : s.wcode = some w) (hnone : engineLookup (some w) c s = none) :
    Inv { engineInsert w c (appendCode w s) with wcode := some (c.setWidth 16), ipos := s.ipos + 1 } := by
  have hs : s.phase ≠ .err := by rw [hp]; decide
  have hphase := hi.phase
  simp only [phaseOk, hp] at hphase
  obtain ⟨-, -, hclen, hnext, hfresh, hfit, hdistinct⟩ := hphase
  obtain ⟨-, hpcode, hwpresent, hppresent⟩ := hi.prefixes
  obtain ⟨hcount, -⟩ := hi.counters
  obtain ⟨hlo, hcap, -⟩ := hi.counters.1
  have hpw : present s w := hwpresent w hwc
  have hn : (engineInsert w c (appendCode w s)).next.toNat = min (s.next.toNat + 1) Config.cap :=
    engineInsert_next hcap
  have hgrow : s.next.toNat ≤ (engineInsert w c (appendCode w s)).next.toNat :=
    le_engineInsert_next (s := appendCode w s) w c hcap
  have hfit' : codesFit (appendCode w s) := codesFit_append hfit (present_fit hpw hnext hlo)
  have hdistinct' : entriesDistinct (engineInsert w c (appendCode w s)) :=
    entriesDistinct_engineInsert (s := appendCode w s) hi.dict hdistinct hnone
  refine (StepWrites.encMiss w c).inv hi hs (by simpa using hs)
    (dictOk_insert (s := appendCode w s) hi.dict hcount hpw)
    ⟨by simp [hv], by simpa using hpcode, fun k hk => ?_, fun k hk => ?_⟩ ?_
  · cases hk; exact present_literal _ c
  · exact present_mono (s := s) hgrow (hppresent k (by simpa using hk))
  · simp only [phaseOk, engineInsert_phase, appendCode_phase, hp]
    refine ⟨by simpa using hlt, by simp [hv], ?_, ?_, by simpa [packerFresh] using hfresh,
      by simpa [codesFit] using hfit', hdistinct'⟩
    · simp only [engineInsert_wv, appendCode_wv, engineInsert_clen, appendCode_clen, hv, Bool.toNat_true] at hclen ⊢
      omega
    · rw [hn, hnext, engineInsert_clen, appendCode_clen, codeCount_succ (i := s.clen + 1)]

/-- `ENC_STEP`: each input byte starts the prefix, extends it, or ends it (41_encoder.md R141). -/
theorem encodeByte_inv (hi : Inv s) (hp : s.phase = .encRun) (hlt : s.ipos < s.ilen) (h : encodeByte s = .next t) :
    Inv t := by
  have hw := encodeByte_writes h
  have hs : s.phase ≠ .err := by rw [hp]; decide
  have hphase := hi.phase
  simp only [phaseOk, hp] at hphase
  obtain ⟨-, hwv, hclen, hrest⟩ := hphase
  obtain ⟨-, hpcode, -, hppresent⟩ := hi.prefixes
  obtain ⟨c, -, ⟨hv, rfl⟩ | ⟨w, hv, hwc, ⟨k, hk, rfl⟩ | ⟨hnone, rfl⟩⟩⟩ := encodeByte_next h
  · have hipos : s.ipos = 0 := by simpa [hv] using hwv
    refine hw.inv hi hs hs hi.dict ⟨rfl, hpcode, fun k hk => ?_, hppresent⟩ ?_
    · cases hk; exact present_literal s c
    · simp only [phaseOk, hp]
      simp only [hv, Bool.toNat_false, Bool.toNat_true] at hclen ⊢
      exact ⟨by omega, by simp, by omega, hrest⟩
  · refine hw.inv hi hs hs hi.dict ⟨hv, hpcode, fun l hl => ?_, hppresent⟩ ?_
    · cases hl; exact present_of_lookup (s := s) hi hk
    · simp only [phaseOk, hp]
      exact ⟨by omega, by simp [hv], by omega, hrest⟩
  · exact encodeMiss_inv hi hp hlt hv hwc hnone

/-- `ENC_FLUSH`: the last prefix is emitted, and the packer starts at code number 1 (41_encoder.md R142). -/
theorem flushPrefix_inv (hi : Inv s) (hp : s.phase = .encFlush) (h : flushPrefix s = .next t) : Inv t := by
  have hw := flushPrefix_writes h
  have hs : s.phase ≠ .err := by rw [hp]; decide
  have hphase := hi.phase
  simp only [phaseOk, hp] at hphase
  obtain ⟨hipos, hwv, hclen, hnext, ⟨hpcnt, hacc, haccn, holen⟩, hfit, hdistinct⟩ := hphase
  obtain ⟨hwcode, hpcode, hwpresent, hppresent⟩ := hi.prefixes
  obtain ⟨⟨hlo, -⟩, -⟩ := hi.counters
  obtain ⟨hv, rfl⟩ | ⟨w, hv, hwc, rfl⟩ := flushPrefix_next h
  · refine hw.inv hi hs (by simp) hi.dict hi.prefixes ?_
    exact ⟨Nat.zero_le _, by show s.clen ≤ s.ilen; omega, hpcnt, by simp [holen, haccn, bitTotal], hfit, hdistinct⟩
  · refine hw.inv hi hs (by simp) hi.dict ⟨rfl, hpcode, by simp, hppresent⟩ ?_
    simp only [hv, Bool.toNat_true] at hclen
    exact ⟨Nat.zero_le _, by show s.clen + 1 ≤ s.ilen; omega, hpcnt, by simp [holen, haccn, bitTotal],
      codesFit_append hfit (present_fit (hwpresent w hwc) hnext hlo), hdistinct⟩

/-! ### The packer -/

/-- `PACK_PUT`: one code more is packed, at the width of its number (43_bit_packer.md R177, R187). -/
theorem packCode_inv (hi : Inv s) (hp : s.phase = .packRun) (hlt : s.cpos < s.clen) (h : packCode s = .next t) :
    Inv t := by
  obtain ⟨k, -, -, rfl⟩ := packCode_next h
  have hs : s.phase ≠ .err := by rw [hp]; decide
  have hphase := hi.phase
  simp only [phaseOk, hp] at hphase
  obtain ⟨-, hclen, hpcnt, hbits, hfit, hdistinct⟩ := hphase
  obtain ⟨-, ⟨-, hcap, hpwidth⟩, -⟩ := hi.counters
  refine (StepWrites.packPut k.toNat).inv hi hs (by simpa using hs) (by simpa [dictOk] using hi.dict)
    (by simpa [prefixesOk, present] using hi.prefixes) ?_
  simp only [phaseOk, putCode_phase, hp]
  refine ⟨by simpa using hlt, by simpa using hclen, ?_, ?_, by simpa [codesFit] using hfit,
    by simpa [entriesDistinct] using hdistinct⟩
  · rw [putCode_pcnt, schedule_count hcap, hpcnt, putCode_cpos, codeCount_succ (i := s.cpos + 1)]
  · have hwidth : s.pwidth.toNat = codeWidth (s.cpos + 1) := by rw [hpwidth, hpcnt]; rfl
    rw [putCode_olen, putCode_accn_toNat, putCode_cpos, bitTotal]
    omega

theorem padLastByte_inv (hi : Inv s) (hp : s.phase = .packPad) : Inv (padLastByte s) := by
  have hs : s.phase ≠ .err := by rw [hp]; decide
  unfold padLastByte
  split
  · exact (StepWrites.packPadByte _).inv hi hs (by simp) hi.dict hi.prefixes trivial
  · exact hi.done hs

/-! ### The unpacker -/

/-- `UNPACK_GET`: one code more is taken, at the width of its number (43_bit_packer.md R180, R187). -/
theorem unpackCode_inv (hi : Inv s) (hp : s.phase = .unpackRun) (hle : s.upos + s.uwidth.toNat ≤ 8 * s.ilen)
    (h : unpackCode s = .next t) : Inv t := by
  obtain ⟨k, -, rfl⟩ := unpackCode_next h
  have hs : s.phase ≠ .err := by rw [hp]; decide
  have hphase := hi.phase
  simp only [phaseOk, hp] at hphase
  obtain ⟨hcpos, hpv, holen, hnext, hupos, -, hucnt⟩ := hphase
  obtain ⟨-, -, -, hcap, huwidth⟩ := hi.counters
  refine (StepWrites.unpackGet k).inv hi hs hs hi.dict hi.prefixes ?_
  simp only [phaseOk, takeCode_phase, hp]
  refine ⟨hcpos, hpv, holen, hnext, ?_, hle, ?_⟩
  · have hwidth : s.uwidth.toNat = codeWidth (s.clen + 1) := by rw [huwidth, hucnt]; rfl
    rw [takeCode_upos, takeCode_clen, bitTotal, hupos, hwidth]
  · rw [takeCode_ucnt, schedule_count hcap, hucnt, takeCode_clen, codeCount_succ (i := s.clen + 1)]

/-! ### The decoder -/

/-- `DEC_FIRST`: no code, a literal, or the error (42_decoder.md R156). -/
theorem takeFirstCode_inv (hi : Inv s) (hp : s.phase = .decFirst) (h : takeFirstCode s = .next t) : Inv t := by
  have hs : s.phase ≠ .err := by rw [hp]; decide
  obtain ⟨-, rfl⟩ | ⟨k, hlen, -, rfl⟩ := takeFirstCode_next h
  · exact hi.done hs
  unfold decodeFirst
  split
  case isTrue => exact raiseDesync_inv hi (by decide) k 0
  case isFalse hlit =>
    have hphase := hi.phase
    simp only [phaseOk, hp] at hphase
    obtain ⟨-, -, -, hnext, hbits⟩ := hphase
    obtain ⟨hwcode, -, hwpresent, -⟩ := hi.prefixes
    refine (StepWrites.decFirstLiteral k).inv hi hs (by simp) hi.dict ⟨hwcode, rfl, hwpresent, fun l hl => ?_⟩ ?_
    · cases hl; exact .inl (Nat.lt_of_not_le hlit)
    · exact ⟨le_rfl, Nat.one_le_iff_ne_zero.2 hlen, rfl, hnext, hbits⟩

/-- `DEC_NEXT`: the error, or one entry appended and one inserted (42_decoder.md R157, R159). -/
theorem decodeNext_inv {k : Code} (hi : Inv s) (hp : s.phase = .decRun) (hlt : s.cpos < s.clen)
    (h : decodeNext k s = .next t) : Inv t := by
  have hw := decodeNext_writes h
  have hs : s.phase ≠ .err := by rw [hp]; decide
  obtain ⟨sub, hr, rfl⟩ | ⟨entry, f, p, hr, hprev, rfl⟩ := decodeNext_next h
  · obtain ⟨-, rfl⟩ | ⟨-, -, rfl⟩ := engineResolve_desync hr <;> exact raiseDesync_inv hi (by decide) k s.cpos
  have hphase := hi.phase
  simp only [phaseOk, hp] at hphase
  obtain ⟨-, -, hpv, hnext, hbits⟩ := hphase
  obtain ⟨hwcode, -, hwpresent, hppresent⟩ := hi.prefixes
  obtain ⟨hcount, -⟩ := hi.counters
  obtain ⟨-, hcap, -⟩ := hi.counters.1
  rw [← appendBytes_next s entry] at hcap
  have hn : (engineInsert p f (appendBytes entry s)).next.toNat = min (s.next.toNat + 1) Config.cap := by
    rw [engineInsert_next hcap, appendBytes_next]
  have hgrow : s.next.toNat ≤ (engineInsert p f (appendBytes entry s)).next.toNat := by
    simpa using le_engineInsert_next p f hcap
  have hpresent : present s p := hppresent p (by simpa [previousEntry, hpv] using hprev)
  refine hw.inv hi hs (by simpa using hs)
    (dictOk_insert (s := appendBytes entry s) (by simpa [dictOk] using hi.dict) (by simpa using hcount)
      (by simpa [present] using hpresent))
    ⟨by simpa using hwcode, by simpa using hpv, fun l hl => ?_, fun l hl => ?_⟩ ?_
  · exact present_mono (s := s) hgrow (hwpresent l (by simpa using hl))
  · cases hl; exact present_of_resolved hr hn
  · simp only [phaseOk, engineInsert_phase, appendBytes_phase, hp]
    refine ⟨Nat.succ_pos _, by simpa using hlt, by simpa using hpv, ?_, by simpa using hbits⟩
    rw [hn, hnext, codeCount_succ]

/-! ### One core step -/

/-- Every selected core step keeps the invariant (44_codec_commands.md R198). -/
theorem exec_selected_inv {i : Instr} (hi : Inv s) (hs : selectStep s = some i) (h : exec i s = .next t) : Inv t := by
  have hphase := hi.phase
  obtain ⟨hp, hc, hx⟩ | ⟨hp, hc, rfl⟩ | ⟨hp, hx⟩ | ⟨hp, hc, hx⟩ | ⟨hp, hc, rfl⟩ | ⟨hp, rfl⟩ | ⟨hp, hc, hx⟩ |
    ⟨hp, hc, rfl⟩ | ⟨hp, hx⟩ | ⟨hp, hc, hx⟩ | ⟨hp, hc, rfl⟩ := exec_selected hs h
  all_goals simp only [phaseOk, hp] at hphase
  · exact encodeByte_inv hi hp hc hx
  · obtain ⟨hipos, hrest⟩ := hphase
    exact hi.withPhase (by simp [hp]) (by decide) ⟨hipos.antisymm hc, hrest⟩
  · exact flushPrefix_inv hi hp hx
  · exact packCode_inv hi hp hc hx
  · obtain ⟨hcpos, hclen, -, hrest⟩ := hphase
    exact hi.withPhase (by simp [hp]) (by decide) ⟨hcpos.antisymm hc, hclen, hrest⟩
  · exact padLastByte_inv hi hp
  · exact unpackCode_inv hi hp hc hx
  · obtain ⟨hcpos, hpv, holen, hnext, hupos, hle, -⟩ := hphase
    exact hi.withPhase (by simp [hp]) (by decide) ⟨hcpos, hpv, holen, hnext, hupos ▸ hle⟩
  · exact takeFirstCode_inv hi hp hx
  · obtain ⟨k, -, hk⟩ := takeNextCode_next hx
    exact decodeNext_inv hi hp hc hk
  · exact hi.done (by simp [hp])

/-! ### The host's moves and the command start -/

/-- The invariant speaks of none of the model's own fields (log entries 1, 2, 9, 12). -/
theorem Inv.withOwnFields (hi : Inv s) (h : List HostMove) (d : Option Nat) (r : SubResult) (n : Nat) :
    Inv { s with host := h, readData := d, ret := r, fresh := n } :=
  ⟨hi.memories, hi.counters, hi.dict, hi.prefixes, hi.buffers, hi.pending, hi.errors, hi.phase⟩

/-- While `BUSY = 0` the input is the host's to write (44_codec_commands.md R210). -/
theorem Inv.withInput {m : List Host.Cell} (hi : Inv s) (hb : busy s = false) (hm : Memory.wf m) (n : Nat) :
    Inv { s with ibuf := m, ilen := n } where
  memories := ⟨hm, hi.memories.2⟩
  counters := hi.counters
  dict := hi.dict
  prefixes := hi.prefixes
  buffers := hi.buffers
  pending := hi.pending
  errors := hi.errors
  phase := by
    have hphase := hi.phase
    unfold phaseOk at hphase ⊢
    cases hp : s.phase with
    | idle | err => simpa only [hp] using hphase
    | done => trivial
    | encRun | encFlush | packRun | packPad | unpackRun | decFirst | decRun => simp [busy, hp, phaseNumber] at hb

theorem hostWriteIbuf_inv (hi : Inv s) (i : Nat) (b : Byte) : Inv (hostWriteIbuf i b s) := by
  obtain heq | ⟨hb, heq⟩ := hostWriteIbuf_eq i b s <;> rw [heq]
  · exact hi
  · exact hi.withInput hb (Memory.wf_write i b hi.memories.1) s.ilen

theorem hostWriteReg_inv (hi : Inv s) (r : HostReg) (v : Nat) : Inv (hostWriteReg r v s) := by
  cases r with
  | ilen =>
    simp only [hostWriteReg]
    split
    · exact hi
    · exact hi.withInput (by simp_all) hi.memories.1 v
  | cmd | status | olen | errcode | errval | erridx | cfg => exact hi

theorem countOk_start : countOk 258 9 := by
  unfold countOk
  decide

theorem dictOk_start (p : Phase) (s : State) : dictOk (commandStart p s) :=
  ⟨fun k => iff_of_false (by simp) (by simp), by simp⟩

/-- A command start meets the invariant wherever `IBUF` is canonical (70_reset_and_hazards.md R246). -/
theorem commandStart_inv {p : Phase} (hm : memoriesCanonical s) (hp : p ≠ .err) (hphase : phaseOk (commandStart p s)) :
    Inv (commandStart p s) where
  memories := memoriesCanonical_commandStart p hm
  counters := ⟨countOk_start, countOk_start, countOk_start⟩
  dict := dictOk_start p s
  prefixes := ⟨rfl, rfl, by simp, by simp⟩
  buffers := ⟨fun i => by simp, fun _ i => by simp⟩
  pending := Nat.one_pos
  errors := ⟨iff_of_false (fun h => h rfl) hp, fun _ => ⟨rfl, rfl⟩⟩
  phase := hphase

theorem phaseOk_commandStart_encRun (s : State) : phaseOk (commandStart .encRun s) :=
  ⟨Nat.zero_le _, by simp, le_rfl, rfl, ⟨rfl, rfl, rfl, rfl⟩, by simp [codesFit], by simp [entriesDistinct]⟩

theorem phaseOk_commandStart_unpackRun (s : State) : phaseOk (commandStart .unpackRun s) :=
  ⟨rfl, rfl, rfl, rfl, rfl, Nat.zero_le _, rfl⟩

theorem exec_command_inv {w : BitVec 2} (hi : Inv s) (h : exec (commandOf w) s = .next t) : Inv t := by
  obtain rfl | ⟨-, rfl | rfl⟩ := exec_command h
  · exact hi
  · exact commandStart_inv hi.memories (by decide) (phaseOk_commandStart_encRun s)
  · exact commandStart_inv hi.memories (by decide) (phaseOk_commandStart_unpackRun s)

/-! ### The statement -/

/-- Settles O44: a turn is a core step, a command or a host move, and each keeps the invariant. -/
theorem stepKeepsTheInvariant : Obligations.StepKeepsTheInvariant := by
  intro s t hi h
  obtain ⟨rest, (⟨i, hs, hx⟩ | ⟨-, rfl⟩) | ⟨w, hx⟩ | ⟨a, b, rfl⟩ | ⟨r, v, rfl⟩ | ⟨r, rfl⟩ | ⟨a, rfl⟩⟩ := step_next h
  all_goals have hrest : Inv (s.withHost rest) := hi.withOwnFields rest s.readData s.ret s.fresh
  · exact exec_selected_inv hrest hs hx
  · exact hrest
  · exact exec_command_inv hrest hx
  · exact hostWriteIbuf_inv hrest a b
  · exact hostWriteReg_inv hrest r v
  · obtain ⟨d, n, heq⟩ := hostReadReg_eq r (s.withHost rest)
    rw [heq]
    exact hrest.withOwnFields rest d s.ret n
  · obtain ⟨d, n, heq⟩ := hostReadObuf_eq a (s.withHost rest)
    rw [heq]
    exact hrest.withOwnFields rest d s.ret n

end Sys2Proof.Machine
end

section
/-! PROOFS. The Dictionary Engine's sub-operations run on their own (40_dictionary_engine.md), and `NEXT` against `WIDTH`
(R127). -/

namespace Sys2Proof.Machine

variable {s : State}

/-! ### DE.LOOKUP -/

/-- An entry below `NEXT` is found where it stands, if no other entry equals it (10_state.md R51 (c)). -/
theorem engineLookup_of_entry {p k : Code} {c : Byte} (hwf : Memory.wf s.dict) (hcap : s.next.toNat ≤ 65536)
    (hx : entriesDistinct s) (hlo : 258 ≤ k.toNat) (hhi : k.toNat < s.next.toNat)
    (hk : Memory.read s.dict k.toNat = some ⟨p, c⟩) : engineLookup (some p) c s = some k := by
  have hentry : dictEntry s k.toNat = some ⟨p, c⟩ := dictEntry_eq_some.2 ⟨⟨hlo, hhi⟩, hk⟩
  cases hl : engineLookup (some p) c s with
  | none => exact absurd hentry (engineLookup_none hl k.toNat)
  | some l =>
    obtain ⟨-, hread⟩ := dictEntry_eq_some.1 (engineLookup_some hwf hcap hl)
    rw [BitVec.eq_of_toNat_eq (hx l.toNat k.toNat _ hread hk)]

theorem engineLookup_of_no_entry {p : Code} {c : Byte} (hwf : Memory.wf s.dict) (hcap : s.next.toNat ≤ 65536)
    (hno : ∀ k, 258 ≤ k → k < s.next.toNat → Memory.read s.dict k ≠ some ⟨p, c⟩) :
    engineLookup (some p) c s = none := by
  cases hl : engineLookup (some p) c s with
  | none => rfl
  | some l =>
    obtain ⟨⟨hlo, hhi⟩, hread⟩ := dictEntry_eq_some.1 (engineLookup_some hwf hcap hl)
    exact absurd hread (hno l.toNat hlo hhi)

theorem exec_deLookup (p : Option Code) (c : Byte) (s : State) :
    exec (.deLookup p c) s = .next { s with ret := .code (engineLookup p c s) } := rfl

/-- Settles O39: `DE.LOOKUP` answers what `engineLookup` finds. -/
theorem engineLooksUp : Obligations.EngineLooksUp := by
  refine fun s c => ⟨rfl, fun p hwf hcap => ⟨fun k hx hlo hhi hk => ?_, fun hno => ?_⟩⟩
  · rw [exec_deLookup, engineLookup_of_entry hwf hcap hx hlo hhi hk]
  · rw [exec_deLookup, engineLookup_of_no_entry hwf hcap hno]

/-! ### DE.RESOLVE -/

/-- A code below `NEXT` that has a phrase resolves to it, whatever the previous entry is (40_dictionary_engine.md R124). -/
theorem engineResolve_below {k : Code} {e : List Byte} {f : Byte} (hlt : k.toNat < s.next.toNat) (h256 : k ≠ 256)
    (h257 : k ≠ 257) (hph : phrase s k = some e) (hf : e[0]? = some f) : engineResolve k s = .found e f := by
  have hrsv : ¬(k.toNat = 256 ∨ k.toNat = 257) := by
    rintro (h | h)
    · exact h256 (BitVec.eq_of_toNat_eq h)
    · exact h257 (BitVec.eq_of_toNat_eq h)
  rw [engineResolve, if_neg (by omega), if_neg hrsv, if_neg (by omega)]
  simp [hph, firstByte, hf]

theorem exec_deResolve_found {k : Code} {e : List Byte} {f : Byte} (idx : Nat) (h : engineResolve k s = .found e f) :
    exec (.deResolve k idx) s = .next { s with ret := .entry e f } := by
  simp only [exec, execDeResolve, h]

theorem exec_deResolve_desync {k : Code} {sub : BitVec 2} (idx : Nat) (h : engineResolve k s = .desync sub) :
    exec (.deResolve k idx) s = .next (raiseDesync sub k idx s) := by
  simp only [exec, execDeResolve, h]

/-- Settles O41: the four cases of `engineResolve`. -/
theorem engineResolves : Obligations.EngineResolves := by
  intro s k idx hnext
  refine ⟨fun habove => ?_, fun hrsv => ?_, fun p e f hk hpv hpc hph hf => ?_, fun e f hlt h256 h257 hph hf => ?_⟩
  · exact ⟨_, exec_deResolve_desync idx (engineResolve_above habove), rfl⟩
  · have hk : k.toNat = 256 ∨ k.toNat = 257 := hrsv.imp (congrArg BitVec.toNat) (congrArg BitVec.toNat)
    exact ⟨_, exec_deResolve_desync idx (engineResolve_reserved (by omega) hk), rfl⟩
  · have h256 : k ≠ 256 := by rintro rfl; simp at hk; omega
    have h257 : k ≠ 257 := by rintro rfl; simp at hk; omega
    have hne : 0 < e.length := (List.getElem?_eq_some_iff.1 hf).1
    exact exec_deResolve_found idx (resolve_found hpv hpc h256 h257 (.inr ⟨hk, e, hph, hf, rfl⟩)
      (by rw [List.getElem?_append_left hne, hf]))
  · exact exec_deResolve_found idx (engineResolve_below hlt h256 h257 hph hf)

/-! ### `NEXT` and `WIDTH` -/

/-- Below the cap the width has room for the next code too (40_dictionary_engine.md R127 (c)). -/
theorem count_lt_two_pow_width {n : Nat} (h : n < Config.cap) : n < 2 ^ widthOfCount n := by
  obtain h512 | h512 := Nat.lt_or_ge n 512
  · rwa [widthOfCount, if_pos h512]
  · have hlog : 2 ^ Nat.log2 n ≤ n ∧ n < 2 ^ (Nat.log2 n + 1) := (Nat.log2_eq_iff (by omega)).1 rfl
    have h9 : 9 ≤ Nat.log2 n := (Nat.le_log2 (by omega)).2 h512
    have h16 : Nat.log2 n < 16 := (Nat.log2_lt (by omega)).2 h
    rw [widthOfCount_of_pow h9 hlog.1 hlog.2, min_eq_right h16]
    exact hlog.2

/-- Settles O50: the width is the function of the size, and the size bounds the codes in the table. -/
theorem nextAndWidthAgree : Obligations.NextAndWidthAgree := by
  intro s hi
  obtain ⟨⟨hlo, hcap, hwidth⟩, -⟩ := hi.counters
  obtain ⟨h9, h16⟩ := widthOfCount_range s.next.toNat
  rw [hwidth]
  refine ⟨hlo, hcap, h9, h16, ?_, rfl, fun k hk => ?_⟩
  · obtain hlt | heq := hcap.lt_or_eq
    · exact .inl (count_lt_two_pow_width hlt)
    · exact .inr ⟨heq, by rw [heq]; decide⟩
  · obtain ⟨-, hlt⟩ := (hi.dict.1 k).1 hk
    exact hlt.trans_le (count_le_two_pow_width hcap)

/-! ### DE.RESET and DE.INSERT -/

/-- Settles O38: after `DE.RESET` no entry is left, and only the literals have a phrase. -/
theorem engineResets : Obligations.EngineResets := fun s =>
  ⟨engineReset s, rfl, rfl, fun _ => rfl, rfl, phrase_lit _ (by decide), phrase_none _ (by simp [present, Config.nLit])⟩

/-- `DE.INSERT` writes the engine's registers and memory and nothing else. -/
theorem engineInsert_eq (p : Code) (c : Byte) (s : State) :
    engineInsert p c s = { s with
      dict := (engineInsert p c s).dict, next := (engineInsert p c s).next, width := (engineInsert p c s).width } := by
  obtain ⟨-, heq⟩ | ⟨-, heq⟩ := engineInsert_cases p c s <;> rw [heq]

/-- Settles O40: both sub-operations are `engineInsert`. -/
theorem engineInserts : Obligations.EngineInserts := fun s p c =>
  ⟨rfl, engineInsert p c s, rfl, engineInsert_eq p c s, inserted_engine p c s s ⟨rfl, rfl, rfl⟩⟩

end Sys2Proof.Machine
end

section
/-! PROOFS. The LZW Encoder's steps, one law per way each of them goes on (41_encoder.md R141 to R143). -/

namespace Sys2Proof.Machine

variable {s : State}

/-! ### ENC_STEP -/

theorem selectStep_encStep (hp : s.phase = .encRun) (h : s.ipos < s.ilen) : selectStep s = some .encStep := by
  simp only [selectStep, hp, if_pos h]

theorem exec_encStep_first {c : Byte} (hs : selectStep s = some .encStep) (hc : inputByte s = some c)
    (hv : s.wv = false) :
    exec .encStep s = .next { s with wv := true, wcode := some (c.setWidth 16), ipos := s.ipos + 1 } := by
  simp [exec, execEncStep, whenSelected_of_selected hs, encodeByte, hc, hv, engineLookup]

theorem exec_encStep_hit {c : Byte} {w k : Code} (hs : selectStep s = some .encStep) (hc : inputByte s = some c)
    (hv : s.wv = true) (hw : s.wcode = some w) (hk : engineLookup (some w) c s = some k) :
    exec .encStep s = .next { s with wcode := some k, ipos := s.ipos + 1 } := by
  simp [exec, execEncStep, whenSelected_of_selected hs, encodeByte, hc, hv, hw, hk]

theorem exec_encStep_miss {c : Byte} {w : Code} (hs : selectStep s = some .encStep) (hc : inputByte s = some c)
    (hv : s.wv = true) (hw : s.wcode = some w) (hnone : engineLookup (some w) c s = none) :
    exec .encStep s =
      .next { engineInsert w c (appendCode w s) with wcode := some (c.setWidth 16), ipos := s.ipos + 1 } := by
  simp [exec, execEncStep, whenSelected_of_selected hs, encodeByte, hc, hv, hw, hnone]

/-- Settles O22: the entries decide between a hit and a miss by what `DE.LOOKUP` answers for them. -/
theorem encodeStepTakesOneByte : Obligations.EncodeStepTakesOneByte := by
  intro s c hp hlt hc
  have hs := selectStep_encStep hp hlt
  refine ⟨exec_encStep_first hs hc, fun w hv hw hwf hcap => ⟨fun k hx hk => ?_, fun hno => ?_⟩⟩
  · obtain ⟨⟨hlo, hhi⟩, hread⟩ := dictEntry_eq_some.1 hk
    exact exec_encStep_hit hs hc hv hw (engineLookup_of_entry hwf hcap hx hlo hhi hread)
  · have hnone : engineLookup (some w) c s = none :=
      engineLookup_of_no_entry hwf hcap fun k hlo hhi hread => hno k (dictEntry_eq_some.2 ⟨⟨hlo, hhi⟩, hread⟩)
    refine ⟨_, exec_encStep_miss hs hc hv hw hnone, by simp, ?_, ?_⟩
    · simpa using appended_one s.cbuf s.clen w
    · exact inserted_engine w c (appendCode w s) s ⟨rfl, rfl, rfl⟩

/-! ### ENC_EOI and ENC_FLUSH -/

theorem selectStep_encEoi (hp : s.phase = .encRun) (h : s.ilen ≤ s.ipos) : selectStep s = some .encEoi := by
  simp only [selectStep, hp, if_neg (Nat.not_lt.2 h)]

theorem selectStep_encFlush (hp : s.phase = .encFlush) : selectStep s = some .encFlush := by
  simp only [selectStep, hp]

theorem exec_encEoi (hs : selectStep s = some .encEoi) : exec .encEoi s = .next { s with phase := .encFlush } := by
  simp only [exec, execEncEoi, whenSelected_of_selected hs]

theorem exec_encFlush_nothing (hs : selectStep s = some .encFlush) (hv : s.wv = false) :
    exec .encFlush s = .next { s with cpos := 0, phase := .packRun } := by
  simp [exec, execEncFlush, whenSelected_of_selected hs, flushPrefix, hv]

theorem exec_encFlush_code {w : Code} (hs : selectStep s = some .encFlush) (hv : s.wv = true) (hw : s.wcode = some w) :
    exec .encFlush s =
      .next { appendCode w s with wv := false, wcode := none, cpos := 0, phase := .packRun } := by
  simp [exec, execEncFlush, whenSelected_of_selected hs, flushPrefix, hv, hw]

/-- Settles O23: both steps are selected by `PHASE`, and a prefix that is left is appended as one code. -/
theorem encoderEndsAndFlushes : Obligations.EncoderEndsAndFlushes := by
  refine ⟨fun s hp heq => exec_encEoi (selectStep_encEoi hp heq.ge), fun s hp => ?_⟩
  have hs := selectStep_encFlush hp
  exact ⟨exec_encFlush_nothing hs, fun w hv hw => ⟨_, exec_encFlush_code hs hv hw, rfl, appended_one _ _ _⟩⟩

end Sys2Proof.Machine
end

section
/-! PROOFS. The LZW Decoder's steps without an error (42_decoder.md R156 to R158), and the code equal to `NEXT`, whose entry
is the phrase that the same step inserts (70_reset_and_hazards.md R250). -/

namespace Sys2Proof.Machine

variable {s t : State}

/-! ### DEC_NEXT -/

/-- Settles O31: `DE.RESOLVE` finds the entry, and `decodeNext_found` says what is done with it. -/
theorem decodeNextCode : Obligations.DecodeNextCode := by
  intro s k p entry f hp hlt hk hpv hpc h256 h257 hentry hf
  have hprev : previousEntry s = some p := by simp only [previousEntry, hpv, hpc, if_true]
  rw [exec_decNext hp hlt hk]
  exact decodeNext_found (resolve_found hpv hpc h256 h257 hentry hf) hprev

/-! ### The phrases of a dictionary that grew -/

theorem dictEntry_of_dictGrows {k : Nat} {e : Entry} (hg : dictGrows s t) (h : dictEntry s k = some e) :
    dictEntry t k = some e := by
  obtain ⟨hle, -, hread, -⟩ := hg
  obtain ⟨⟨hlo, hhi⟩, he⟩ := dictEntry_eq_some.1 h
  exact dictEntry_eq_some.2 ⟨⟨hlo, hhi.trans_le hle⟩, hread k e he⟩

theorem phraseWithin_of_dictGrows (hg : dictGrows s t) {fuel k : Nat} {ph : List Byte}
    (h : phraseWithin s fuel k = some ph) : phraseWithin t fuel k = some ph := by
  induction fuel generalizing k ph with
  | zero => cases h
  | succ fuel ih =>
    rw [phraseWithin] at h ⊢
    split at h
    case isTrue hlit => rw [if_pos hlit, h]
    case isFalse hlit =>
      rw [if_neg hlit]
      cases he : dictEntry s k with
      | none => simp [he] at h
      | some e =>
        simp only [he, Option.map_eq_some_iff] at h
        obtain ⟨ph', hph', rfl⟩ := h
        simp [dictEntry_of_dictGrows hg he, ih hph']

/-- A phrase never changes while the dictionary only grows (10_state.md R51 (b)). -/
theorem phrase_of_dictGrows {k : Code} {ph : List Byte} (hg : dictGrows s t) (h : phrase s k = some ph) :
    phrase t k = some ph :=
  phraseWithin_of_dictGrows hg h

/-- The code at `NEXT` becomes the phrase of the inserted prefix and the inserted byte (40_dictionary_engine.md R122). -/
theorem phrase_of_inserted {k p : Code} {f : Byte} {e : List Byte} (hd : dictOk t) (hg : dictGrows s t)
    (hins : inserted p f s t) (hlo : 258 ≤ k.toNat) (hk : k.toNat = s.next.toNat) (hph : phrase s p = some e) :
    t.next.toNat = s.next.toNat + 1 ∧ phrase t k = some (e ++ [f]) := by
  obtain ⟨hread, hbelow, -⟩ := hins
  have hlt : s.next.toNat < 65536 := hk ▸ k.isLt
  obtain ⟨hnext, -⟩ := hbelow hlt
  have hentry : Memory.read t.dict k.toNat = some ⟨p, f⟩ := by rw [hread, if_pos ⟨hk, hlt⟩]
  refine ⟨hnext, ?_⟩
  rw [phrase_step hd hlo (by omega) hentry, phrase_of_dictGrows hg hph]
  rfl

/-! ### The code equal to `NEXT` -/

/-- The previous entry is valid where `PCODE` holds a value, and its phrase has a first byte (10_state.md R24, R50). -/
theorem previous_phrase {p : Code} (hi : Inv s) (hpc : s.pcode = some p) :
    s.pv = true ∧ ∃ e f, phrase s p = some e ∧ e[0]? = some f := by
  obtain ⟨-, hpv, -, hpresent⟩ := hi.prefixes
  obtain ⟨e, he, hlen, -⟩ := phrase_present hi.dict _ p rfl (hpresent p hpc)
  exact ⟨by rw [hpv, hpc]; rfl, e, e[0], he, List.getElem?_eq_getElem hlen⟩

/-- `DEC_NEXT` keeps the table in order and only grows it (10_state.md R51). -/
theorem decNext_dict (hi : Inv s) (hp : s.phase = .decRun) (hlt : s.cpos < s.clen) (h : exec .decNext s = .next t) :
    dictOk t ∧ dictGrows s t := by
  have hs := selectStep_decNext hp hlt
  obtain ⟨⟨-, hcap, -⟩, -⟩ := hi.counters
  exact ⟨(exec_selected_inv hi hs h).dict, (exec_selected_writes hs h).dictGrows hi.dict hcap⟩

/-- Settles O32: `DEC_NEXT` by O31, and the phrase of the new code by `phrase_of_inserted`. -/
theorem equalToSizeIsTheNewPhrase : Obligations.EqualToSizeIsTheNewPhrase := by
  intro s k p hi hp hlt hk heq hpc
  obtain ⟨⟨hlo, -⟩, -⟩ := hi.counters
  have hlo : 258 ≤ k.toNat := heq ▸ hlo
  obtain ⟨h256, h257⟩ := ne_reserved (.inr hlo)
  obtain ⟨hpv, e, f, hph, hf⟩ := previous_phrase hi hpc
  have hf' : (e ++ [f])[0]? = some f := by
    rwa [List.getElem?_append_left (List.getElem?_eq_some_iff.1 hf).1]
  obtain ⟨t, ht, hwrites, happ, hins⟩ :=
    decodeNextCode s k p (e ++ [f]) f hp hlt hk hpv hpc h256 h257 (.inr ⟨heq, e, hph, hf, rfl⟩) hf'
  obtain ⟨hd, hg⟩ := decNext_dict hi hp hlt ht
  obtain ⟨hnext, hphrase⟩ := phrase_of_inserted hd hg hins hlo heq hph
  have holen : t.olen = s.olen + e.length + 1 := by
    rw [hwrites, List.length_append, List.length_singleton, Nat.add_assoc]
  have hpcode : t.pcode = some k := by rw [hwrites]
  exact ⟨t, e, f, ht, hph, hf, hnext, hpcode, hphrase, holen, happ⟩

/-! ### DEC_FIRST and DEC_END -/

theorem exec_decFirst_nothing (hp : s.phase = .decFirst) (hlen : s.clen = 0) :
    exec .decFirst s = .next { s with phase := .done } := by
  simp only [exec, execDecFirst, whenSelected_of_selected (selectStep_decFirst hp), takeFirstCode, if_pos hlen]

theorem selectStep_decEnd (hp : s.phase = .decRun) (h : s.clen ≤ s.cpos) : selectStep s = some .decEnd := by
  simp only [selectStep, hp, if_neg (Nat.not_lt.2 h)]

theorem exec_decEnd (hs : selectStep s = some .decEnd) : exec .decEnd s = .next { s with phase := .done } := by
  simp only [exec, execDecEnd, whenSelected_of_selected hs]

/-- Settles O30: no code, or a literal by `decodeFirst_literal`; and the end by the comparison of `DEC_RUN`. -/
theorem decodeFirstAndEnd : Obligations.DecodeFirstAndEnd := by
  refine ⟨fun s hp => ⟨exec_decFirst_nothing hp, fun k hlen hk hlit => ?_⟩,
    fun s hp heq => exec_decEnd (selectStep_decEnd hp heq.ge)⟩
  have hx := exec_decFirst hp hlen hk
  rw [← literal_eq hlit, decodeFirst_literal, literal_eq hlit] at hx
  exact ⟨_, hx, rfl, appended_one _ _ _⟩

end Sys2Proof.Machine
end

section
/-! PROOFS. Whole code sequences through the packer and the unpacker (43_bit_packer.md R186): the codes cut from a packed
buffer are the codes it was packed from. -/

namespace Sys2Proof

/-! ### The number of a bit string -/

theorem numberOf_append_singleton (bits : List Bool) (b : Bool) :
    Functional.numberOf (bits ++ [b]) = 2 * Functional.numberOf bits + b.toNat := List.foldl_append

/-- A code word ends with the lowest bit (30_encoding.md R93). -/
theorem wordBits_succ (w v : Nat) : wordBits (w + 1) v = wordBits w (v / 2) ++ [v.testBit 0] :=
  calc wordBits (w + 1) v
    _ = wordBits (w + 1) (v / 2 * 2 ^ 1 + v % 2 ^ 1) := by rw [pow_one, Nat.div_add_mod']
    _ = wordBits w (v / 2) ++ wordBits 1 (v % 2 ^ 1) :=
      (Machine.wordBits_append w 1 _ _ (Nat.mod_lt v (Nat.two_pow_pos 1))).symm
    _ = wordBits w (v / 2) ++ [v.testBit 0] := congrArg _ (Machine.wordBits_mod 1 v)

/-- The bits of a word, read as a number, are its low bits (20_memory.md R61). -/
theorem numberOf_wordBits (w v : Nat) : Functional.numberOf (wordBits w v) = v % 2 ^ w := by
  induction w generalizing v with
  | zero => rw [pow_zero, Nat.mod_one]; rfl
  | succ w ih =>
    rw [wordBits_succ, numberOf_append_singleton, ih, Nat.toNat_testBit, pow_zero, Nat.div_one, pow_succ', Nat.mod_mul,
      Nat.add_comm]

/-! ### Cutting what was put together -/

theorem bitsOf_length (bs : List Byte) : (Functional.bitsOf bs).length = 8 * bs.length := by
  induction bs with
  | nil => rfl
  | cons b bs ih =>
    rw [Functional.bitsOf, List.flatMap_cons, List.length_append, Machine.wordBits_length, ← Functional.bitsOf, ih,
      List.length_cons, Nat.mul_succ, Nat.add_comm]

/-- The bytes of a bit string hold the string and fewer than eight bits more (43_bit_packer.md R178). -/
theorem bitsOf_packBits (bits : List Bool) :
    ∃ pad : List Bool, pad.length < 8 ∧ Functional.bitsOf (packBits bits) = bits ++ pad := by
  have hlen : (Functional.bitsOf (packBits bits)).length = 8 * ((bits.length + 7) / 8) := by
    rw [bitsOf_length, packBits_length]
  have htake : (Functional.bitsOf (packBits bits)).take bits.length = bits := by
    refine List.ext_getElem? fun p => ?_
    obtain hp | hp := Nat.lt_or_ge p bits.length
    · rw [List.getElem?_take_of_lt hp, bitsOf_packBits_getElem? hp]
    · rw [List.getElem?_take_eq_none hp, List.getElem?_eq_none hp]
  have hsplit := List.take_append_drop bits.length (Functional.bitsOf (packBits bits))
  rw [htake] at hsplit
  exact ⟨_, by rw [List.length_drop]; omega, hsplit.symm⟩

/-- Codes that fit, put down from code number `i` on, are cut off again one by one at the same widths, and fewer than eight
bits behind the last make no further code (43_bit_packer.md R179, R181). -/
theorem cutFrom_codeBitsFrom {fuel i : Nat} {ks : List Code} {pad : List Bool} (hfit : Functional.fitsFrom i ks = true)
    (hpad : pad.length < 8) (hfuel : ks.length ≤ fuel) :
    Functional.cutFrom fuel i (Functional.codeBitsFrom i ks ++ pad) = ks := by
  induction ks generalizing fuel i with
  | nil =>
    cases fuel with
    | zero => rfl
    | succ fuel =>
      have h9 : 9 ≤ codeWidth i := (widthOfCount_range _).1
      exact if_pos (Nat.lt_trans hpad h9)
  | cons k ks ih =>
    obtain ⟨fuel, rfl⟩ := Nat.exists_eq_add_one_of_ne_zero (Nat.ne_zero_of_lt hfuel)
    rw [Functional.fitsFrom, Bool.and_eq_true, decide_eq_true_eq] at hfit
    obtain ⟨hk, hks⟩ := hfit
    have hw := Machine.wordBits_length (codeWidth i) k.toNat
    rw [Functional.codeBitsFrom, List.append_assoc, Functional.cutFrom,
      if_neg (by rw [List.length_append]; omega), List.take_left' hw, List.drop_left' hw,
      ih hks (Nat.le_of_succ_le_succ hfuel), numberOf_wordBits, Nat.mod_eq_of_lt hk, BitVec.ofNat_toNat,
      BitVec.setWidth_eq]

/-- Every code takes at least nine bits, so the bits of the buffer bound the number of codes (30_encoding.md R107). -/
theorem length_le_of_pack {ks : List Code} {out : List Byte} (h : Functional.pack ks = some out) :
    ks.length ≤ 8 * out.length := by
  have hlen := pack_length h
  obtain ⟨h9, -⟩ := bitTotal_bounds ks.length
  omega

theorem unpack_of_pack {ks : List Code} {out : List Byte} (h : Functional.pack ks = some out) :
    Functional.unpack out = ks := by
  have hfuel := length_le_of_pack h
  obtain ⟨hfit, rfl⟩ := pack_eq_some.1 h
  obtain ⟨pad, hpad, hbits⟩ := bitsOf_packBits (Functional.codeBitsFrom 1 ks)
  rw [Functional.unpack, hbits, cutFrom_codeBitsFrom hfit hpad hfuel]

/-- Settles O57, by `unpack_of_pack`; one byte is too short for a code, and packing no code gives no byte. -/
theorem unpackUndoesPack : Obligations.UnpackUndoesPack := by
  refine ⟨fun ks hfit => ?_, [0], [], by decide, by decide⟩
  have hpack : Functional.pack ks = some (packBits (Functional.codeBitsFrom 1 ks)) := pack_eq_some.2 ⟨hfit, rfl⟩
  exact ⟨_, hpack, unpack_of_pack hpack⟩

end Sys2Proof
end

section
/-! PROOFS. `SCHED` (43_bit_packer.md R176) and the steps of the Bit Packer and Unpacker, one law per way each of them goes
on (R177, R178, R180, R181, R184, R185). -/

namespace Sys2Proof.Machine

variable {s : State}

/-! ### SCHED -/

/-- From `(258, 9)` the counter is `cnt(i)` and stays in order with its width (30_encoding.md R97). -/
theorem schedule_iterate (n : Nat) :
    let p := (fun p : Count × Width => schedule p.1 p.2)^[n] (258, 9)
    countOk p.1 p.2 ∧ p.1.toNat = codeCount (n + 1) := by
  induction n with
  | zero => exact ⟨countOk_start, rfl⟩
  | succ n ih =>
    obtain ⟨hok, hcount⟩ := ih
    rw [Function.iterate_succ_apply']
    exact ⟨schedule_ok hok, by rw [schedule_count hok.2.1, hcount, codeCount_succ (i := n + 1)]⟩

/-- Settles O6: the answer by `advanced_schedule`, the pair before code number `i` by `schedule_iterate`. -/
theorem scheduleAdvances : Obligations.ScheduleAdvances := by
  refine ⟨fun s cnt width => ⟨_, _, rfl, advanced_schedule cnt width⟩, fun i hi => ?_⟩
  obtain ⟨⟨-, -, hwidth⟩, hcount⟩ := schedule_iterate (i - 1)
  rw [Nat.sub_add_cancel hi] at hcount
  rw [hcount] at hwidth
  exact ⟨hcount, hwidth⟩

/-! ### The packer -/

theorem wholeBytes_of_lt {n : Nat} (v : Nat) (h : n < 8) : wholeBytes v n = [] :=
  List.length_eq_zero_iff.1 (by rw [wholeBytes_length, Nat.div_eq_of_lt h])

theorem wholeBytes_of_ge {n : Nat} (v : Nat) (h : 8 ≤ n) :
    wholeBytes v n = BitVec.ofNat 8 (v / 2 ^ (n - 8)) :: wholeBytes v (n - 8) := by
  obtain ⟨m, rfl⟩ := Nat.exists_eq_add_of_le' h
  rfl

/-- `OBUF` after one code: the whole bytes of the pending bits and the code (43_bit_packer.md R177). -/
theorem appended_putCode (k : Nat) (s : State) :
    appended s.obuf (putCode k s).obuf s.olen
      (wholeBytes (s.acc.toNat * 2 ^ s.pwidth.toNat + k) (s.accn.toNat + s.pwidth.toNat)) :=
  appended_appendBytes _ s

/-- Settles O24: from 9 to 15 bits hold one whole byte, from 16 to 23 two. -/
theorem packPutWritesOneCode : Obligations.PackPutWritesOneCode := by
  intro s k hp hlt hk h9 h16 hfit v n
  have haccn := s.accn.isLt
  have hout : appended s.obuf (putCode k.toNat s).obuf s.olen (wholeBytes v n) := appended_putCode k.toNat s
  have holen : (putCode k.toNat s).olen = s.olen + n / 8 := putCode_olen k.toNat s
  have hrest : (putCode k.toNat s).accn.toNat = n % 8 := putCode_accn_toNat k.toNat s
  have hacc : (putCode k.toNat s).acc.toNat = v % 2 ^ (n % 8) := putCode_acc_toNat k.toNat s
  have h8 : 8 ≤ n := by omega
  rw [wholeBytes_of_ge v h8] at hout
  refine ⟨putCode k.toNat s, exec_packPut (selectStep_packPut hp hlt) hk hfit, putCode_eq _ s, fun hn => ?_, fun hn => ?_,
    advanced_schedule _ _⟩
  · have hmod : n % 8 = n - 8 := by omega
    rw [wholeBytes_of_lt v (by omega)] at hout
    exact ⟨by omega, hrest.trans hmod, hmod ▸ hacc, hout⟩
  · have hmod : n % 8 = n - 16 := by omega
    rw [wholeBytes_of_ge v (by omega), wholeBytes_of_lt v (by omega), Nat.sub_sub] at hout
    exact ⟨by omega, hrest.trans hmod, hmod ▸ hacc, hout⟩

theorem exec_packPut_refused {k : Code} (hs : selectStep s = some .packPut) (hk : codeAt s s.cpos = some k)
    (hwide : 2 ^ s.pwidth.toNat ≤ k.toNat) : exec .packPut s = .refused (.codeTooWide k s.pwidth) := by
  simp only [exec, execPackPut, whenSelected_of_selected hs, packCode, hk, if_pos hwide]

/-- Settles O25: under the invariant the code is below the count of its number, which `PWIDTH` has room for. -/
theorem packRefusesOnlyWideCodes : Obligations.PackRefusesOnlyWideCodes := by
  refine ⟨fun s k hp hlt hk => exec_packPut_refused (selectStep_packPut hp hlt) hk, fun s k hi hp hlt hk => ?_⟩
  have hphase := hi.phase
  simp only [phaseOk, hp] at hphase
  obtain ⟨-, -, hpcnt, -, hfit, -⟩ := hphase
  obtain ⟨-, ⟨-, -, hpwidth⟩, -⟩ := hi.counters
  obtain ⟨-, hcount⟩ := hfit s.cpos k hk
  rw [hpwidth, hpcnt]
  exact hcount.trans_le (codeCount_le_two_pow (s.cpos + 1))

theorem selectStep_packEoc (hp : s.phase = .packRun) (h : s.clen ≤ s.cpos) : selectStep s = some .packEoc := by
  simp only [selectStep, hp, if_neg (Nat.not_lt.2 h)]

theorem exec_packEoc (hs : selectStep s = some .packEoc) : exec .packEoc s = .next { s with phase := .packPad } := by
  simp only [exec, execPackEoc, whenSelected_of_selected hs]

theorem exec_packPad (hp : s.phase = .packPad) : exec .packPad s = .next (padLastByte s) := by
  have hs : selectStep s = some .packPad := by simp only [selectStep, hp]
  simp only [exec, execPackPad, whenSelected_of_selected hs]

theorem padLastByte_nothing (h : s.accn = 0) : padLastByte s = { s with phase := .done } := by
  rw [padLastByte, if_neg (by simp [h])]

theorem padLastByte_pending (h : s.accn ≠ 0) :
    padLastByte s =
      { appendByte (BitVec.ofNat 8 (s.acc.toNat * 2 ^ (8 - s.accn.toNat))) s with acc := 0, accn := 0, phase := .done } :=
  if_pos (Nat.pos_of_ne_zero fun h0 => h (BitVec.eq_of_toNat_eq h0))

/-- Settles O26: the two ways `padLastByte` goes. -/
theorem packEndsWithZeroPad : Obligations.PackEndsWithZeroPad := by
  refine ⟨fun s hp heq => exec_packEoc (selectStep_packEoc hp heq.ge), fun s hp => ?_⟩
  rw [exec_packPad hp]
  refine ⟨fun h => by rw [padLastByte_nothing h], fun h => ⟨_, rfl, ?_⟩⟩
  rw [padLastByte_pending h]
  exact ⟨rfl, appended_one _ _ _⟩

/-! ### The unpacker -/

/-- The bit at a position of `IBUF` whose byte was written (20_memory.md R60). -/
theorem inputBit_of_read {p : Nat} {b : Byte} (h : Memory.read s.ibuf (p / 8) = some b) :
    inputBit s p = some (b.getLsbD (7 - p % 8)) := by
  rw [inputBit, h, Option.map_some]

theorem selectStep_unpackStop (hp : s.phase = .unpackRun) (h : 8 * s.ilen < s.upos + s.uwidth.toNat) :
    selectStep s = some .unpackStop := by
  simp only [selectStep, hp, if_neg (Nat.not_le.2 h)]

theorem exec_unpackStop (hs : selectStep s = some .unpackStop) :
    exec .unpackStop s = .next { s with phase := .decFirst } := by
  simp only [exec, execUnpackStop, whenSelected_of_selected hs]

/-- Settles O27: the bits read are the weighted sum (`readBits_sum`), which a code of 16 bits holds. -/
theorem unpackReadsCodesAndStops : Obligations.UnpackReadsCodesAndStops := by
  refine ⟨fun s bit hp hle h16 hbits => ?_, fun s hp hlt => exec_unpackStop (selectStep_unpackStop hp hlt)⟩
  have hread : inputCode s = some (∑ j ∈ Finset.range s.uwidth.toNat, (bit j).toNat * 2 ^ (s.uwidth.toNat - 1 - j)) := by
    refine readBits_sum _ bit _ _ fun j hj => ?_
    obtain ⟨b, hb, hbit⟩ := hbits j hj
    rw [inputBit_of_read hb, hbit]
  have hfit := (sum_lt bit s.uwidth.toNat).trans_le (Nat.pow_le_pow_right (by decide) h16)
  exact ⟨_, exec_unpackGet (selectStep_unpackGet hp hle) hread, rfl, ⟨_, appended_one _ _ _, Nat.mod_eq_of_lt hfit⟩,
    advanced_schedule _ _⟩

end Sys2Proof.Machine
end

section
/-! PROOFS. The round-trip law (44_codec_commands.md R200): the decoder's dictionary is one phrase behind the encoder's, and
each code it takes is the phrase the encoder had. -/

namespace Sys2Proof.Functional

/-! ### The dictionary of phrases -/

theorem insertPhrase_of_lt {d : Phrases} (s : List Byte) (h : 258 + d.length < 65536) : insertPhrase d s = d ++ [s] :=
  if_pos h

theorem insertPhrase_of_ge {d : Phrases} (s : List Byte) (h : 65536 ≤ 258 + d.length) : insertPhrase d s = d :=
  if_neg (Nat.not_lt.2 h)

/-- The dictionary never passes the cap (40_dictionary_engine.md R122). -/
theorem insertPhrase_size {d : Phrases} (s : List Byte) (h : 258 + d.length ≤ 65536) :
    258 + (insertPhrase d s).length ≤ 65536 := by
  obtain hlt | heq := h.lt_or_eq
  · rw [insertPhrase_of_lt s hlt, List.length_append, List.length_singleton]
    omega
  · rw [insertPhrase_of_ge s heq.ge]
    exact h

theorem phraseOf_literal (d : Phrases) (b : Byte) : phraseOf d (b.setWidth 16) = some [b] := by
  rw [phraseOf, if_pos (literal_toNat_lt b), literal_setWidth]

theorem phraseOf_free {d : Phrases} {k : Code} (h : 258 ≤ k.toNat) : phraseOf d k = d[k.toNat - 258]? := by
  rw [phraseOf, if_neg (Nat.not_lt.2 (le_trans (by decide) h)), if_neg (Nat.not_lt.2 h)]

theorem phraseOf_reserved {d : Phrases} {k : Code} (h : k.toNat = 256 ∨ k.toNat = 257) : phraseOf d k = none := by
  have hge : ¬k.toNat < 256 := by omega
  have hlt : k.toNat < 258 := by omega
  rw [phraseOf, if_neg hge, if_pos hlt]

/-- A code that names a phrase is a literal, or stands below the size (10_state.md R50). -/
theorem phraseOf_range {d : Phrases} {k : Code} {w : List Byte} (h : phraseOf d k = some w) :
    k.toNat < 256 ∨ 258 ≤ k.toNat ∧ k.toNat < 258 + d.length := by
  obtain hlit | hrsv | hfree : k.toNat < 256 ∨ (k.toNat = 256 ∨ k.toNat = 257) ∨ 258 ≤ k.toNat := by omega
  · exact .inl hlit
  · rw [phraseOf_reserved hrsv] at h
    cases h
  · rw [phraseOf_free hfree] at h
    obtain ⟨hlt, -⟩ := List.getElem?_eq_some_iff.1 h
    exact .inr ⟨hfree, by omega⟩

/-- An insert concerns the code that was the size, and no other. -/
theorem phraseOf_insertPhrase_other {d : Phrases} {k : Code} (s : List Byte) (h : k.toNat ≠ 258 + d.length) :
    phraseOf (insertPhrase d s) k = phraseOf d k := by
  unfold insertPhrase
  split
  case isFalse => rfl
  case isTrue =>
    obtain hlit | hrsv | hfree : k.toNat < 256 ∨ (k.toNat = 256 ∨ k.toNat = 257) ∨ 258 ≤ k.toNat := by omega
    · rw [phraseOf, phraseOf, if_pos hlit, if_pos hlit]
    · rw [phraseOf_reserved hrsv, phraseOf_reserved hrsv]
    · rw [phraseOf_free hfree, phraseOf_free hfree]
      obtain hlt | hgt := Nat.lt_or_ge (k.toNat - 258) d.length
      · rw [List.getElem?_append_left hlt]
      · rw [List.getElem?_eq_none hgt, List.getElem?_eq_none (by rw [List.length_append, List.length_singleton]; omega)]

/-- The phrase inserted has the code that was the size (40_dictionary_engine.md R122). -/
theorem phraseOf_inserted {d : Phrases} {k : Code} (s : List Byte) (h : k.toNat = 258 + d.length) :
    phraseOf (insertPhrase d s) k = some s := by
  have hk := k.isLt
  rw [insertPhrase_of_lt s (by omega), phraseOf_free (by omega), h, Nat.add_sub_cancel_left,
    List.getElem?_append_right le_rfl, Nat.sub_self]
  rfl

/-- The code of a phrase names that phrase (10_state.md R52, R53). -/
theorem phraseOf_codeOf {d : Phrases} {w : List Byte} {k : Code} (hd : 258 + d.length ≤ 65536)
    (h : codeOf d w = some k) : phraseOf d k = some w := by
  unfold codeOf at h
  split at h
  · cases h
    exact phraseOf_literal d _
  · obtain ⟨j, hj, rfl⟩ := Option.map_eq_some_iff.1 h
    obtain ⟨hlt, heq, -⟩ := List.findIdx?_eq_some_iff_getElem.1 hj
    have hnat : (BitVec.ofNat 16 (258 + j)).toNat = 258 + j := Nat.mod_eq_of_lt (by omega)
    rw [phraseOf_free (by rw [hnat]; omega), hnat, Nat.add_sub_cancel_left, List.getElem?_eq_getElem hlt,
      eq_of_beq heq]

/-! ### One code through the decoder -/

/-- The entry of a code (40_dictionary_engine.md R124). -/
def entryOf (d : Phrases) (prev : List Byte) (k : Code) : List Byte :=
  if k.toNat = 258 + d.length then prev ++ prev.take 1 else (phraseOf d k).getD []

theorem entryOf_new {d : Phrases} {k : Code} (prev : List Byte) (h : k.toNat = 258 + d.length) :
    entryOf d prev k = prev ++ prev.take 1 := if_pos h

theorem entryOf_phrase {d : Phrases} {k : Code} {w : List Byte} (prev : List Byte) (h : phraseOf d k = some w) :
    entryOf d prev k = w := by
  have hrange := phraseOf_range h
  rw [entryOf, if_neg (by omega), h, Option.getD_some]

theorem decodeFrom_above {d : Phrases} {k : Code} (prev out : List Byte) (idx : Nat) (ks : List Code)
    (h : 258 + d.length < k.toNat) : decodeFrom d prev out idx (k :: ks) = .desync 1 k idx := by
  rw [decodeFrom, if_pos h]

theorem decodeFrom_reserved {d : Phrases} {k : Code} (prev out : List Byte) (idx : Nat) (ks : List Code)
    (h : k.toNat = 256 ∨ k.toNat = 257) : decodeFrom d prev out idx (k :: ks) = .desync 2 k idx := by
  have hle : ¬Config.firstFree + d.length < k.toNat := by simp only [Config.firstFree]; omega
  rw [decodeFrom, if_neg hle, if_pos h]

theorem decodeFrom_entry {d : Phrases} {k : Code} (prev out : List Byte) (idx : Nat) (ks : List Code)
    (hle : k.toNat ≤ 258 + d.length) (hrsv : ¬(k.toNat = 256 ∨ k.toNat = 257)) :
    decodeFrom d prev out idx (k :: ks) =
      decodeFrom (insertPhrase d (prev ++ (entryOf d prev k).take 1)) (entryOf d prev k) (out ++ entryOf d prev k)
        (idx + 1) ks := by
  rw [decodeFrom, if_neg (Nat.not_lt.2 hle), if_neg hrsv]
  rfl

theorem decode_literal {k : Code} (ks : List Code) (h : k.toNat < 256) :
    decode (k :: ks) = decodeFrom [] [k.setWidth 8] [k.setWidth 8] 1 ks := by
  rw [decode, if_neg (Nat.not_le.2 h)]

theorem decode_desync {k : Code} (ks : List Code) (h : 256 ≤ k.toNat) : decode (k :: ks) = .desync 3 k 0 := by
  rw [decode, if_pos h]

/-! ### The decoder behind the encoder -/

/-- A phrase of the encoder's dictionary, which is the decoder's and the phrase `prev ++ [c]`, resolves to itself if it
begins with `c`: where the decoder does not have it yet, it is that phrase, and `c` is the first byte of `prev`
(40_dictionary_engine.md R124). -/
theorem entryOf_behind {d : Phrases} {prev w : List Byte} {c : Byte} {k : Code} (hprev : prev ≠ [])
    (hw : w.take 1 = [c]) (h : phraseOf (insertPhrase d (prev ++ [c])) k = some w) :
    k.toNat ≤ 258 + d.length ∧ entryOf d prev k = w := by
  obtain hk | hne := eq_or_ne k.toNat (258 + d.length)
  · rw [phraseOf_inserted _ hk, Option.some.injEq] at h
    subst h
    have hc : prev.take 1 = [c] := by rwa [List.take_append_of_le_length (List.length_pos_iff.2 hprev)] at hw
    exact ⟨hk.le, by rw [entryOf_new prev hk, hc]⟩
  · rw [phraseOf_insertPhrase_other _ hne] at h
    have hrange := phraseOf_range h
    exact ⟨by omega, entryOf_phrase prev h⟩

/-- One code in lockstep: the decoder outputs the encoder's working prefix `w`, and inserts the phrase the encoder inserted
before it. -/
theorem decodeFrom_codeOf {d : Phrases} {prev w : List Byte} {c : Byte} {k : Code} (out : List Byte) (idx : Nat)
    (ks : List Code) (hd : 258 + d.length ≤ 65536) (hprev : prev ≠ []) (hw : w.take 1 = [c])
    (h : codeOf (insertPhrase d (prev ++ [c])) w = some k) :
    decodeFrom d prev out idx (k :: ks) =
      decodeFrom (insertPhrase d (prev ++ [c])) w (out ++ w) (idx + 1) ks := by
  have hphrase := phraseOf_codeOf (insertPhrase_size _ hd) h
  have hrange := phraseOf_range hphrase
  obtain ⟨hle, hentry⟩ := entryOf_behind hprev hw hphrase
  rw [decodeFrom_entry prev out idx ks hle (by omega), hentry, hw]

/-- From the encoder's working prefix `w` on: what is left of the input is what the decoder still appends. -/
theorem decodeFrom_encodeFrom {d : Phrases} {prev w : List Byte} {c : Byte} (out rest : List Byte) (idx : Nat)
    (hd : 258 + d.length ≤ 65536) (hprev : prev ≠ []) (hw : w.take 1 = [c])
    (hsome : (codeOf (insertPhrase d (prev ++ [c])) w).isSome = true) :
    decodeFrom d prev out idx (encodeFrom (insertPhrase d (prev ++ [c])) w rest) = .bytes (out ++ w ++ rest) := by
  have hne : w ≠ [] := by rintro rfl; cases hw
  obtain ⟨k, hk⟩ := Option.isSome_iff_exists.1 hsome
  induction rest generalizing d prev w c out idx k with
  | nil =>
    rw [encodeFrom, hk, Option.toList_some, decodeFrom_codeOf out idx [] hd hprev hw hk, decodeFrom, List.append_nil]
  | cons c' rest ih =>
    rw [encodeFrom]
    split
    case isTrue hit =>
      obtain ⟨k', hk'⟩ := Option.isSome_iff_exists.1 hit
      have htake : (w ++ [c']).take 1 = [c] := by rwa [List.take_append_of_le_length (List.length_pos_iff.2 hne)]
      rw [ih out idx hd hprev htake hit (by simp) k' hk']
      simp
    case isFalse =>
      rw [hk, Option.toList_some, List.singleton_append, decodeFrom_codeOf out idx _ hd hprev hw hk,
        ih (out ++ w) (idx + 1) (insertPhrase_size _ hd) hne rfl rfl (by simp) (c'.setWidth 16) rfl]
      simp

theorem decode_encode (bs : List Byte) : decode (encode bs) = .bytes bs := by
  match bs with
  | [] => rfl
  | [c] =>
    have hstart : encode [c] = [c.setWidth 16] := rfl
    rw [hstart, decode_literal [] (literal_toNat_lt c), literal_setWidth]
    rfl
  | c :: c' :: rest =>
    have hstart : encode (c :: c' :: rest) = c.setWidth 16 :: encodeFrom (insertPhrase [] ([c] ++ [c'])) [c'] rest := rfl
    rw [hstart, decode_literal _ (literal_toNat_lt c), literal_setWidth,
      decodeFrom_encodeFrom [c] rest 1 (by decide) (by simp) rfl rfl]
    rfl

end Sys2Proof.Functional

namespace Sys2Proof

/-- Settles O58: the lockstep of `decodeFrom_encodeFrom`, and between the two the packed codes (`unpack_of_pack`). -/
theorem roundTrip : Obligations.RoundTrip := by
  intro bs
  obtain ⟨hfits, -⟩ := encodedCodesFit
  obtain ⟨-, hsome, -⟩ := hfits bs
  obtain ⟨out, hout⟩ := Option.isSome_iff_exists.1 hsome
  refine ⟨Functional.decode_encode bs, out, hout, ?_⟩
  rw [Functional.decompress, unpack_of_pack hout, Functional.decode_encode]

end Sys2Proof
end

section
/-! PROOFS. Runs of the core, and that every command ends (44_codec_commands.md R207): a busy block in order with its input
loaded takes a step, and each step is closer to the end (70_reset_and_hazards.md R257). -/

namespace Sys2Proof.Machine

variable {s t u : State}

/-! ### Runs -/

/-- A run of `m + n` steps goes on where the first `m` end. -/
theorem run_add {m : Nat} (n : Nat) (h : Sys2Proof.core.run m s = .next t) :
    Sys2Proof.core.run (m + n) s = Sys2Proof.core.run n t := by
  have go (M : Host.Core) (b : M.State) : ∀ m a, M.run m a = .next b → M.run (m + n) a = M.run n b := by
    intro m
    induction m with
    | zero =>
      intro a ha
      cases ha
      rw [Nat.zero_add]
    | succ m ih =>
      intro a ha
      rw [Nat.succ_add]
      rw [Host.Core.run] at ha ⊢
      cases hstep : M.step a with
      | next a' =>
        rw [hstep] at ha
        exact ih a' ha
      | fault r | refused r =>
        rw [hstep] at ha
        cases ha
  exact go Sys2Proof.core t m s h

/-- `n` steps lead from `s` to `t`, and the block is busy before each of them. -/
def runsBusy (n : Nat) (s t : State) : Prop :=
  Sys2Proof.core.run n s = .next t ∧ ∀ m, m < n → ∃ u, Sys2Proof.core.run m s = .next u ∧ busy u = true

theorem runsBusy_zero (s : State) : runsBusy 0 s s := ⟨rfl, nofun⟩

theorem runsBusy_trans {m n : Nat} (h₁ : runsBusy m s t) (h₂ : runsBusy n t u) : runsBusy (m + n) s u := by
  obtain ⟨hrun, hbusy⟩ := h₁
  obtain ⟨hrun', hbusy'⟩ := h₂
  refine ⟨(run_add n hrun).trans hrun', fun j hj => ?_⟩
  obtain hlt | hge := Nat.lt_or_ge j m
  · exact hbusy j hlt
  · obtain ⟨v, hv, hb⟩ := hbusy' (j - m) (by omega)
    exact ⟨v, by rw [← hv, ← run_add (j - m) hrun, Nat.add_sub_cancel' hge], hb⟩

theorem runsBusy_one (hb : busy s = true) (h : step s = .next t) : runsBusy 1 s t := by
  refine ⟨run_succ h, fun m hm => ?_⟩
  obtain rfl : m = 0 := by omega
  exact ⟨s, rfl, hb⟩

/-- The core's step in a state that waits for nothing from the host. -/
theorem runsBusy_selected {i : Instr} (hhost : s.host = []) (hs : selectStep s = some i) (h : exec i s = .next t) :
    runsBusy 1 s t :=
  runsBusy_one (busy_of_selected hs) ((step_of_selected hhost hs).trans h)

/-- A loop of `n` busy steps: each leads from a state with `n + 1` rounds left to one with `n`. -/
theorem runsBusy_loop {P : Nat → State → Prop} (hstep : ∀ n s, P (n + 1) s → ∃ t, runsBusy 1 s t ∧ P n t) {n : Nat}
    (h : P n s) : ∃ t, runsBusy n s t ∧ P 0 t := by
  induction n generalizing s with
  | zero => exact ⟨s, runsBusy_zero s, h⟩
  | succ n ih =>
    obtain ⟨u, hu, hP⟩ := hstep n s h
    obtain ⟨t, ht, hP⟩ := ih hP
    exact ⟨t, Nat.add_comm n 1 ▸ runsBusy_trans hu ht, hP⟩

/-! ### A step is selected exactly while `BUSY = 1` -/

theorem busy_iff_selected (s : State) : busy s = true ↔ ∃ i, selectStep s = some i := by
  refine ⟨fun hb => ?_, fun ⟨_, hs⟩ => busy_of_selected hs⟩
  cases hp : s.phase <;> simp [busy, selectStep, phaseNumber, hp] at hb ⊢

/-! ### No core step stops -/

/-- Under the invariant the working prefix has a code while `WV = 1` (10_state.md R23). -/
theorem Inv.wcode_of_wv (hi : Inv s) (hv : s.wv = true) : ∃ w, s.wcode = some w := by
  obtain ⟨hw, -⟩ := hi.prefixes
  exact Option.isSome_iff_exists.1 (hw ▸ hv)

theorem encStep_total (hi : Inv s) (hl : inputLoaded s) (hp : s.phase = .encRun) (hlt : s.ipos < s.ilen) :
    ∃ t, exec .encStep s = .next t := by
  have hs := selectStep_encStep hp hlt
  obtain ⟨c, hc⟩ := Option.isSome_iff_exists.1 (hl s.ipos hlt)
  cases hv : s.wv with
  | false => exact ⟨_, exec_encStep_first hs hc hv⟩
  | true =>
    obtain ⟨w, hw⟩ := hi.wcode_of_wv hv
    cases hk : engineLookup (some w) c s with
    | none => exact ⟨_, exec_encStep_miss hs hc hv hw hk⟩
    | some k => exact ⟨_, exec_encStep_hit hs hc hv hw hk⟩

theorem encFlush_total (hi : Inv s) (hp : s.phase = .encFlush) : ∃ t, exec .encFlush s = .next t := by
  have hs := selectStep_encFlush hp
  cases hv : s.wv with
  | false => exact ⟨_, exec_encFlush_nothing hs hv⟩
  | true =>
    obtain ⟨w, hw⟩ := hi.wcode_of_wv hv
    exact ⟨_, exec_encFlush_code hs hv hw⟩

/-- The valid part of `CBUF` has a code at every index (20_memory.md R70). -/
theorem Inv.codeAt_of_lt {i : Nat} (hi : Inv s) (h : i < s.clen) : ∃ k, codeAt s i = some k := by
  obtain ⟨hcbuf, -⟩ := hi.buffers
  exact Option.isSome_iff_exists.1 ((hcbuf i).2 h)

theorem packPut_total (hi : Inv s) (hp : s.phase = .packRun) (hlt : s.cpos < s.clen) :
    ∃ t, exec .packPut s = .next t := by
  obtain ⟨k, hk⟩ := hi.codeAt_of_lt hlt
  exact ⟨_, exec_packPut (selectStep_packPut hp hlt) hk (packRefusesOnlyWideCodes.2 s k hi hp hlt hk)⟩

/-- The bits of the next code lie in the input, which is loaded (43_bit_packer.md R180). -/
theorem unpackGet_total (hl : inputLoaded s) (hp : s.phase = .unpackRun) (hle : s.upos + s.uwidth.toNat ≤ 8 * s.ilen) :
    ∃ t, exec .unpackGet s = .next t := by
  obtain ⟨v, hv⟩ := readBits_isSome (inputBit s) s.upos s.uwidth.toNat fun j hj => by
    rw [inputBit, Option.isSome_map]
    exact hl _ (by omega)
  exact ⟨_, exec_unpackGet (selectStep_unpackGet hp hle) hv⟩

theorem decFirst_total (hi : Inv s) (hp : s.phase = .decFirst) : ∃ t, exec .decFirst s = .next t := by
  obtain hz | hpos := Nat.eq_zero_or_pos s.clen
  · exact ⟨_, exec_decFirst_nothing hp hz⟩
  · obtain ⟨k, hk⟩ := hi.codeAt_of_lt hpos
    exact ⟨_, exec_decFirst hp hpos hk⟩

/-- `DE.RESOLVE` needs the previous entry only for the code equal to `NEXT`; every other code up to `NEXT` names a phrase or
raises (40_dictionary_engine.md R124). -/
theorem decodeNext_total {p : Code} (hi : Inv s) (hpc : s.pcode = some p) (k : Code) : ∃ t, decodeNext k s = .next t := by
  obtain ⟨hpv, e, f, hph, hf⟩ := previous_phrase hi hpc
  have hprev : previousEntry s = some p := by simp only [previousEntry, hpv, hpc, if_true]
  obtain habove | hle := Nat.lt_or_ge s.next.toNat k.toNat
  · exact ⟨_, decodeNext_desync (engineResolve_above habove)⟩
  obtain hrsv | hfree : (k.toNat = 256 ∨ k.toNat = 257) ∨ k.toNat < 256 ∨ 258 ≤ k.toNat := by omega
  · exact ⟨_, decodeNext_desync (engineResolve_reserved hle hrsv)⟩
  obtain ⟨h256, h257⟩ := ne_reserved hfree
  obtain ⟨⟨hlo, -⟩, -⟩ := hi.counters
  obtain heq | hlt := hle.eq_or_lt
  · have hf' : (e ++ [f])[0]? = some f := by
      rwa [List.getElem?_append_left (List.getElem?_eq_some_iff.1 hf).1]
    obtain ⟨t, ht, -⟩ := decodeNext_found (resolve_found hpv hpc h256 h257 (.inr ⟨heq, e, hph, hf, rfl⟩) hf') hprev
    exact ⟨t, ht⟩
  · have hk : present s k := hfree.imp id fun h => ⟨h, hlt⟩
    obtain ⟨ph, hph, hlen, -⟩ := phrase_present hi.dict _ k rfl hk
    obtain ⟨t, ht, -⟩ :=
      decodeNext_found (engineResolve_below hlt h256 h257 hph (List.getElem?_eq_getElem hlen)) hprev
    exact ⟨t, ht⟩

theorem decNext_total (hi : Inv s) (hp : s.phase = .decRun) (hlt : s.cpos < s.clen) : ∃ t, exec .decNext s = .next t := by
  have hphase := hi.phase
  simp only [phaseOk, hp] at hphase
  obtain ⟨-, -, hpv, -⟩ := hphase
  obtain ⟨-, hpcode, -⟩ := hi.prefixes
  obtain ⟨p, hpc⟩ := Option.isSome_iff_exists.1 (hpcode ▸ hpv)
  obtain ⟨k, hk⟩ := hi.codeAt_of_lt hlt
  rw [exec_decNext hp hlt hk]
  exact decodeNext_total hi hpc k

/-- In order and with its input loaded, the core's step neither faults nor is refused. -/
theorem exec_selected_total {i : Instr} (hi : Inv s) (hl : inputLoaded s) (hs : selectStep s = some i) :
    ∃ t, exec i s = .next t := by
  have key := hs
  unfold selectStep at key
  cases hp : s.phase <;> simp only [hp, Option.some.injEq, reduceCtorEq] at key
  case encRun =>
    split at key <;> subst key
    · exact encStep_total hi hl hp ‹_›
    · exact ⟨_, exec_encEoi hs⟩
  case encFlush => subst key; exact encFlush_total hi hp
  case packRun =>
    split at key <;> subst key
    · exact packPut_total hi hp ‹_›
    · exact ⟨_, exec_packEoc hs⟩
  case packPad => subst key; exact ⟨_, exec_packPad hp⟩
  case unpackRun =>
    split at key <;> subst key
    · exact unpackGet_total hl hp ‹_›
    · exact ⟨_, exec_unpackStop hs⟩
  case decFirst => subst key; exact decFirst_total hi hp
  case decRun =>
    split at key <;> subst key
    · exact decNext_total hi hp ‹_›
    · exact ⟨_, exec_decEnd hs⟩

/-! ### Every core step is closer to the end -/

theorem encodeByte_stepsLeft (hp : s.phase = .encRun) (hlt : s.ipos < s.ilen) (h : encodeByte s = .next t) :
    stepsLeft t < stepsLeft s := by
  obtain ⟨c, -, ⟨hv, rfl⟩ | ⟨w, hv, -, ⟨k, -, rfl⟩ | ⟨-, rfl⟩⟩⟩ := encodeByte_next h
  all_goals
    simp [stepsLeft, hp, hv]
    omega

theorem flushPrefix_stepsLeft (hp : s.phase = .encFlush) (h : flushPrefix s = .next t) : stepsLeft t < stepsLeft s := by
  obtain ⟨hv, rfl⟩ | ⟨w, hv, -, rfl⟩ := flushPrefix_next h <;> simp [stepsLeft, hp, hv]

theorem padLastByte_stepsLeft (hp : s.phase = .packPad) : stepsLeft (padLastByte s) < stepsLeft s := by
  unfold padLastByte
  split <;> simp [stepsLeft, hp]

theorem takeFirstCode_stepsLeft (hp : s.phase = .decFirst) (h : takeFirstCode s = .next t) :
    stepsLeft t < stepsLeft s := by
  obtain ⟨-, rfl⟩ | ⟨k, -, -, rfl⟩ := takeFirstCode_next h
  · simp [stepsLeft, hp]
  · unfold decodeFirst
    split <;> simp [stepsLeft, hp]

theorem decodeNext_stepsLeft {k : Code} (hp : s.phase = .decRun) (hlt : s.cpos < s.clen) (h : decodeNext k s = .next t) :
    stepsLeft t < stepsLeft s := by
  obtain ⟨sub, -, rfl⟩ | ⟨entry, f, p, -, -, rfl⟩ := decodeNext_next h
  · simp [stepsLeft, hp]
  · simp [stepsLeft, hp]
    omega

/-- The measure of 44_codec_commands.md R207 goes down with every core step: a cursor moves, or `PHASE` does. -/
theorem exec_selected_stepsLeft {i : Instr} (hi : Inv s) (hs : selectStep s = some i) (h : exec i s = .next t) :
    stepsLeft t < stepsLeft s := by
  obtain ⟨hp, hc, hx⟩ | ⟨hp, hc, rfl⟩ | ⟨hp, hx⟩ | ⟨hp, hc, hx⟩ | ⟨hp, hc, rfl⟩ | ⟨hp, rfl⟩ | ⟨hp, hc, hx⟩ |
    ⟨hp, hc, rfl⟩ | ⟨hp, hx⟩ | ⟨hp, hc, hx⟩ | ⟨hp, hc, rfl⟩ := exec_selected hs h
  · exact encodeByte_stepsLeft hp hc hx
  · simp only [stepsLeft, hp]; omega
  · exact flushPrefix_stepsLeft hp hx
  · obtain ⟨k, -, -, rfl⟩ := packCode_next hx
    simp [stepsLeft, hp]
    omega
  · simp only [stepsLeft, hp]; omega
  · exact padLastByte_stepsLeft hp
  · obtain ⟨k, -, rfl⟩ := unpackCode_next hx
    obtain ⟨-, -, -, -, hwidth⟩ := hi.counters
    obtain ⟨h9, -⟩ := widthOfCount_range s.ucnt.toNat
    simp [stepsLeft, hp]
    omega
  · simp only [stepsLeft, hp]; omega
  · exact takeFirstCode_stepsLeft hp hx
  · obtain ⟨k, -, hk⟩ := takeNextCode_next hx
    exact decodeNext_stepsLeft hp hc hk
  · simp only [stepsLeft, hp]; omega

/-! ### The end -/

/-- A busy block in order, its input loaded and nothing to wait for, takes a step towards the end, and it can be said again
of the state after it (70_reset_and_hazards.md R257). -/
theorem busy_step (hi : Inv s) (hl : inputLoaded s) (hb : busy s = true) (hhost : s.host = []) :
    ∃ t, step s = .next t ∧ stepsLeft t < stepsLeft s ∧ Inv t ∧ inputLoaded t ∧ t.host = [] := by
  obtain ⟨i, hs⟩ := (busy_iff_selected s).1 hb
  obtain ⟨t, ht⟩ := exec_selected_total hi hl hs
  obtain ⟨hibuf, hilen, hhost', -⟩ := noInstructionWritesTheInput i s t ht
  refine ⟨t, (step_of_selected hhost hs).trans ht, exec_selected_stepsLeft hi hs ht, exec_selected_inv hi hs ht, ?_,
    hhost'.trans hhost⟩
  rw [inputLoaded, hibuf, hilen]
  exact hl

/-- No core step leads back to `IDLE` (44_codec_commands.md R198). -/
theorem StepWrites.phase_ne_idle {i : Instr} (h : StepWrites s i t) (hs : s.phase ≠ .idle) : t.phase ≠ .idle := by
  cases h <;> simp [hs]

theorem busy_step_phase (hhost : s.host = []) (hb : busy s = true) (h : step s = .next t) : t.phase ≠ .idle := by
  obtain ⟨i, hs⟩ := (busy_iff_selected s).1 hb
  rw [step_of_selected hhost hs] at h
  refine (exec_selected_writes hs h).phase_ne_idle fun hp => ?_
  simp [busy, phaseNumber, hp] at hb

theorem phase_of_not_busy (hb : busy s = false) : s.phase = .idle ∨ s.phase = .done ∨ s.phase = .err := by
  cases hp : s.phase <;> simp [busy, phaseNumber, hp] at hb ⊢

/-- Settles O52, by induction on the measure: `busy_step`, and where it ends the block is no longer busy. -/
theorem everyCommandEnds : Obligations.EveryCommandEnds := by
  intro s
  induction hn : stepsLeft s using Nat.strongRecOn generalizing s with
  | _ n ih =>
    intro hi hl hb hhost
    obtain ⟨t, ht, hless, hi', hl', hhost'⟩ := busy_step hi hl hb hhost
    cases hb' : busy t with
    | true =>
      obtain ⟨m, u, hm, hu, hend⟩ := ih (stepsLeft t) (hn ▸ hless) t rfl hi' hl' hb' hhost'
      exact ⟨m + 1, u, by omega, (run_succ ht).trans hu, hend⟩
    | false =>
      obtain hidle | hend := phase_of_not_busy hb'
      · exact absurd hidle (busy_step_phase hhost hb ht)
      · exact ⟨1, t, by omega, run_succ ht, hend⟩

end Sys2Proof.Machine
end

section
/-! PROOFS. The two views of the dictionary and of a buffer (44_codec_commands.md R199): the machine's entries hold the
source's phrases (10_state.md R50, R52, R53), and a memory holds a sequence. -/

namespace Sys2Proof.Machine

variable {s t : State}

/-! ### A memory that holds a sequence -/

/-- A memory of length `n` holds the sequence `xs` and nothing else. -/
def bufferHolds {α : Type} (m : Memory α) (n : Nat) (xs : List α) : Prop :=
  n = xs.length ∧ ∀ i, Memory.read m i = xs[i]?

theorem bufferHolds_nil {α : Type} : bufferHolds ([] : Memory α) 0 [] := ⟨rfl, fun _ => rfl⟩

/-- `AppendAll` on the sequence (00_scope.md R14). -/
theorem bufferHolds.append {α : Type} {m m' : Memory α} {n : Nat} {xs ys : List α} (h : bufferHolds m n xs)
    (happ : appended m m' n ys) : bufferHolds m' (n + ys.length) (xs ++ ys) := by
  obtain ⟨rfl, hread⟩ := h
  refine ⟨List.length_append.symm, fun i => ?_⟩
  rw [happ i, hread i]
  split
  case isTrue hnew => rw [List.getElem?_append_right hnew.1]
  case isFalse hold =>
    obtain hlt | hge := Nat.lt_or_ge i xs.length
    · rw [List.getElem?_append_left hlt]
    · rw [List.getElem?_eq_none hge, List.getElem?_eq_none (by rw [List.length_append]; omega)]

theorem bufferHolds.write {α : Type} {m : Memory α} {n : Nat} {xs : List α} (h : bufferHolds m n xs) (x : α) :
    bufferHolds (Memory.write m n x) (n + 1) (xs ++ [x]) :=
  h.append (appended_one m n x)

theorem bufferHolds.result {out : List Byte} (h : bufferHolds s.obuf s.olen out) (hp : s.phase = .done) :
    resultIs s out := by
  obtain ⟨hlen, hread⟩ := h
  exact ⟨hp, hlen, fun i _ => hread i⟩

/-! ### The phrase of a code, and the code of a phrase -/

theorem present_of_phrase {k : Code} {w : List Byte} (h : phrase s k = some w) : present s k := by
  by_contra hk
  rw [phrase_none s hk] at h
  cases h

theorem phrase_ne_nil {k : Code} {w : List Byte} (hd : dictOk s) (h : phrase s k = some w) : w ≠ [] := by
  obtain ⟨w', hw', hlen, -⟩ := phrase_present hd _ k rfl (present_of_phrase h)
  cases h.symm.trans hw'
  exact List.length_pos_iff.1 hlen

/-- A phrase is the byte of a literal, or the phrase of its entry's prefix and the entry's byte (10_state.md R50). -/
theorem phrase_cases {k : Code} {w : List Byte} (hd : dictOk s) (h : phrase s k = some w) :
    (k.toNat < 256 ∧ w = [k.setWidth 8]) ∨
      ∃ e v, (258 ≤ k.toNat ∧ k.toNat < s.next.toNat) ∧ Memory.read s.dict k.toNat = some e ∧
        phrase s e.pfx = some v ∧ v ≠ [] ∧ w = v ++ [e.ch] := by
  obtain hlit | ⟨hlo, hhi⟩ := present_of_phrase h
  · rw [phrase_lit s hlit, Option.some.injEq] at h
    exact .inl ⟨hlit, h.symm⟩
  · obtain ⟨e, he, -⟩ := dictOk_entry hd hlo hhi
    rw [phrase_step hd hlo hhi he, Option.map_eq_some_iff] at h
    obtain ⟨v, hv, rfl⟩ := h
    exact .inr ⟨e, v, ⟨hlo, hhi⟩, he, hv, phrase_ne_nil hd hv, rfl⟩

/-- Where the entries are pairwise different, so are the phrases (10_state.md R51 (c)). -/
theorem phrase_injective {k l : Code} {w : List Byte} (hd : dictOk s) (hx : entriesDistinct s)
    (hk : phrase s k = some w) (hl : phrase s l = some w) : k = l := by
  induction w using List.reverseRecOn generalizing k l with
  | nil => exact absurd rfl (phrase_ne_nil hd hk)
  | append_singleton w c ih =>
    obtain ⟨hklit, hkw⟩ | ⟨e, v, -, he, hv, hne, hkw⟩ := phrase_cases hd hk <;>
      obtain ⟨hllit, hlw⟩ | ⟨e', v', -, he', hv', hne', hlw⟩ := phrase_cases hd hl
    · have hbyte : k.setWidth 8 = l.setWidth 8 := List.singleton_inj.1 (hkw.symm.trans hlw)
      rw [← literal_eq hklit, ← literal_eq hllit, hbyte]
    · exact absurd (List.append_eq_singleton_iff.1 (hlw.symm.trans hkw)) (by simp [hne'])
    · exact absurd (List.append_eq_singleton_iff.1 (hkw.symm.trans hlw)) (by simp [hne])
    · obtain ⟨rfl, hc⟩ := List.append_inj' hkw rfl
      obtain ⟨rfl, hc'⟩ := List.append_inj' hlw rfl
      have hentry : e = e' := by
        obtain ⟨p, b⟩ := e
        obtain ⟨p', b'⟩ := e'
        rw [Entry.mk.injEq]
        exact ⟨ih hv hv', List.singleton_inj.1 (hc.symm.trans hc')⟩
      exact BitVec.eq_of_toNat_eq (hx _ _ _ he (hentry ▸ he'))

/-- A phrase depends on the engine alone. -/
theorem phrase_of_engineKept (h : engineKept s t) (k : Code) : phrase t k = phrase s k := by
  obtain ⟨hn, hw, hd⟩ := h
  have hback : engineKept t s := ⟨hn.symm, hw.symm, hd.symm⟩
  have hforth : engineKept s t := ⟨hn, hw, hd⟩
  exact Option.ext fun _ => ⟨phrase_of_dictGrows hback.dictGrows, phrase_of_dictGrows hforth.dictGrows⟩

/-! ### The engine holds the source's dictionary -/

/-- The Dictionary Engine is in order, and its phrases are `d`, the first with code 258 (10_state.md R52, R53). -/
structure EngineHolds (s : State) (d : Functional.Phrases) : Prop where
  canonical : Memory.wf s.dict
  order : dictOk s
  count : countOk s.next s.width
  size : s.next.toNat = 258 + d.length
  phrases : ∀ k, phrase s k = Functional.phraseOf d k

namespace EngineHolds

variable {d : Functional.Phrases}

theorem size_le (h : EngineHolds s d) : 258 + d.length ≤ 65536 := by
  obtain ⟨-, hcap, -⟩ := h.count
  rw [← h.size]
  exact hcap

theorem start (p : Phase) (s : State) : EngineHolds (commandStart p s) [] where
  canonical := Memory.wf_nil
  order := dictOk_start p s
  count := countOk_start
  size := rfl
  phrases k := by
    obtain hlit | hge := Nat.lt_or_ge k.toNat 256
    · rw [phrase_lit _ hlit, Functional.phraseOf, if_pos hlit]
    · have hnone : Functional.phraseOf [] k = none := by
        rw [Functional.phraseOf, if_neg (Nat.not_lt.2 hge), List.getElem?_nil, ite_self]
      rw [hnone]
      refine phrase_none _ fun hp => ?_
      simp [present, Config.nLit, Config.firstFree] at hp
      omega

theorem congr (h : EngineHolds s d) (hk : engineKept s t) : EngineHolds t d := by
  have hphrase := phrase_of_engineKept hk
  obtain ⟨hn, hw, hd⟩ := hk
  exact
    { canonical := hd ▸ h.canonical
      order := by simpa only [dictOk, hn, hd] using h.order
      count := by simpa only [hn, hw] using h.count
      size := hn ▸ h.size
      phrases := fun k => (hphrase k).trans (h.phrases k) }

/-- `DE.INSERT` is the source's insert (40_dictionary_engine.md R122). -/
theorem insert {p : Code} {w : List Byte} (c : Byte) (h : EngineHolds s d) (hp : phrase s p = some w) :
    EngineHolds (engineInsert p c s) (Functional.insertPhrase d (w ++ [c])) := by
  obtain ⟨hlo, hcap, -⟩ := h.count
  have hnext := engineInsert_next (p := p) (c := c) hcap
  have horder := dictOk_insert (c := c) h.order h.count (present_of_phrase hp)
  have hgrows := dictGrows_engineInsert p c h.order hcap
  refine ⟨engineInsert_wf h.canonical, horder, engineInsert_countOk h.count, ?_, fun k => ?_⟩
  · rw [hnext, h.size]
    obtain hlt | heq := h.size_le.lt_or_eq
    · rw [Functional.insertPhrase_of_lt _ hlt, List.length_append, List.length_singleton]
      exact min_eq_left hlt
    · rw [Functional.insertPhrase_of_ge _ heq.ge, heq]
      rfl
  obtain hk | hk := eq_or_ne k.toNat (258 + d.length)
  · obtain ⟨-, hphrase⟩ := phrase_of_inserted (k := k) horder hgrows (inserted_engine p c s s ⟨rfl, rfl, rfl⟩) (by omega)
      (hk.trans h.size.symm) hp
    rw [hphrase, Functional.phraseOf_inserted _ hk]
  · rw [Functional.phraseOf_insertPhrase_other _ hk, ← h.phrases]
    by_cases hpresent : present s k
    · obtain ⟨v, hv, -⟩ := phrase_present h.order _ k rfl hpresent
      rw [hv, phrase_of_dictGrows hgrows hv]
    · have hsize := h.size
      rw [phrase_none s hpresent]
      refine phrase_none _ fun hp => hpresent ?_
      unfold present at hp ⊢
      omega

end EngineHolds

end Sys2Proof.Machine
end

section
/-! PROOFS. `COMPRESS` computes `pack(encode(b))` (44_codec_commands.md R199, R207): the encoder's steps follow the source's
loop byte by byte (41_encoder.md R140), the packer's write the bits of the codes (43_bit_packer.md R175). -/

namespace Sys2Proof

/-! ### The code of a phrase -/

theorem Functional.codeOf_isSome {d : Phrases} {k : Code} {w : List Byte} (h : phraseOf d k = some w) :
    (codeOf d w).isSome = true := by
  unfold codeOf
  split
  · rfl
  · rename_i hbyte
    obtain hlit | ⟨hfree, -⟩ := phraseOf_range h
    · rw [phraseOf, if_pos hlit, Option.some.injEq] at h
      exact absurd h.symm (hbyte _)
    · rw [phraseOf_free hfree] at h
      have hmem : w ∈ d := List.mem_of_getElem? h
      rw [Option.isSome_map, List.isSome_idxOf?]
      exact hmem

/-! ### One round of the source's loop -/

theorem Functional.encodeFrom_hit {d : Phrases} {w rest : List Byte} {c : Byte}
    (h : (codeOf d (w ++ [c])).isSome = true) : encodeFrom d w (c :: rest) = encodeFrom d (w ++ [c]) rest := by
  rw [encodeFrom, if_pos h]

theorem Functional.encodeFrom_miss {d : Phrases} {w rest : List Byte} {c : Byte} {k : Code} (hk : codeOf d w = some k)
    (h : codeOf d (w ++ [c]) = none) :
    encodeFrom d w (c :: rest) = k :: encodeFrom (insertPhrase d (w ++ [c])) [c] rest := by
  rw [encodeFrom, h, if_neg (by decide), hk]
  rfl

namespace Machine

variable {s t : State} {d : Functional.Phrases} {w : List Byte}

/-- In both dictionaries a code belongs to a phrase (10_state.md R52, R53). -/
theorem EngineHolds.codeOf_iff (h : EngineHolds s d) (hx : entriesDistinct s) {k : Code} :
    Functional.codeOf d w = some k ↔ phrase s k = some w := by
  have hforth {k : Code} (hk : Functional.codeOf d w = some k) : phrase s k = some w :=
    (h.phrases k).trans (Functional.phraseOf_codeOf h.size_le hk)
  refine ⟨hforth, fun hk => ?_⟩
  obtain ⟨l, hl⟩ := Option.isSome_iff_exists.1 (Functional.codeOf_isSome ((h.phrases k).symm.trans hk))
  rw [hl, phrase_injective h.order hx hk (hforth hl)]

/-- `DE.LOOKUP` of a prefix and a byte is the source's lookup of the phrase and that byte (40_dictionary_engine.md R121). -/
theorem EngineHolds.lookup (h : EngineHolds s d) (hx : entriesDistinct s) {p : Code} (hp : phrase s p = some w)
    (c : Byte) : engineLookup (some p) c s = Functional.codeOf d (w ++ [c]) := by
  obtain ⟨-, hcap, -⟩ := h.count
  refine Option.ext fun k => ?_
  rw [h.codeOf_iff hx]
  refine ⟨fun hk => ?_, fun hk => ?_⟩
  · obtain ⟨⟨hlo, hhi⟩, hread⟩ := dictEntry_eq_some.1 (engineLookup_some h.canonical hcap hk)
    rw [phrase_step h.order hlo hhi hread, hp]
    rfl
  · obtain ⟨-, hw⟩ | ⟨⟨q, b⟩, v, ⟨hlo, hhi⟩, hread, hv, -, hw⟩ := phrase_cases h.order hk
    · exact absurd (List.append_eq_singleton_iff.1 hw) (by simp [phrase_ne_nil h.order hp])
    · obtain ⟨rfl, hc⟩ := List.append_inj' hw rfl
      obtain rfl := phrase_injective h.order hx hp hv
      obtain rfl : c = b := List.singleton_inj.1 hc
      exact engineLookup_of_entry h.canonical hcap hx hlo hhi hread

/-! ### The encoder follows the source's loop -/

/-- The registers the packer starts from, its output and the error register, as a command start leaves them
(10_state.md R57). -/
def packerReady (s : State) : Prop :=
  s.pcnt = 258 ∧ s.pwidth = 9 ∧ s.accn = 0 ∧ s.olen = 0 ∧ s.obuf = [] ∧ s.errcode = 0

/-- `WV` and `WCODE` hold the source's working prefix `w`, empty before the first byte (41_encoder.md R141). -/
def workingPrefix (s : State) (w : List Byte) : Prop :=
  s.wv = false ∧ w = [] ∨ ∃ k, s.wv = true ∧ s.wcode = some k ∧ phrase s k = some w

/-- `COMPRESS` in `ENC_RUN` on the input `bs`, where the source's loop is at the dictionary `d` and the working prefix `w`:
the codes in `CBUF`, and those the loop still emits, are `encode(bs)`. -/
structure Encoding (bs : List Byte) (s : State) (d : Functional.Phrases) (w : List Byte) : Prop where
  phase : s.phase = .encRun
  host : s.host = []
  input : inputIs s bs
  engine : EngineHolds s d
  distinct : entriesDistinct s
  working : workingPrefix s w
  ready : packerReady s
  codes : ∃ ks, bufferHolds s.cbuf s.clen ks ∧
    ks ++ Functional.encodeFrom d w (bs.drop s.ipos) = Functional.encode bs

/-- A working prefix that is not empty has its code in `WCODE`. -/
theorem Encoding.codeOf_eq {bs : List Byte} (h : Encoding bs s d w) {k : Code} (hk : phrase s k = some w) :
    Functional.codeOf d w = some k :=
  (h.engine.codeOf_iff h.distinct).2 hk

/-- `ENC_STEP` without an emission: the code `k` of the longer prefix `v` becomes the working prefix, and the loop goes on
from the next byte with `v`. -/
theorem Encoding.withPrefix {bs v : List Byte} {k : Code} {b : Bool} (h : Encoding bs s d w) (hb : b = true)
    (hk : phrase s k = some v)
    (hloop : Functional.encodeFrom d w (bs.drop s.ipos) = Functional.encodeFrom d v (bs.drop (s.ipos + 1))) :
    Encoding bs { s with wcode := some k, wv := b, ipos := s.ipos + 1 } d v where
  phase := h.phase
  host := h.host
  input := h.input
  engine := h.engine.congr ⟨rfl, rfl, rfl⟩
  distinct := h.distinct
  working := .inr ⟨k, hb, rfl, phrase_of_dictGrows (s := s) (engineKept.dictGrows ⟨rfl, rfl, rfl⟩) hk⟩
  ready := h.ready
  codes := by
    obtain ⟨ks, hcbuf, hcodes⟩ := h.codes
    exact ⟨ks, hcbuf, hloop ▸ hcodes⟩

/-- `ENC_STEP` with an emission: the code of `w` is appended, the longer phrase inserted, and the byte `c` becomes the
working prefix (70_reset_and_hazards.md R251). -/
theorem Encoding.withEmission {bs : List Byte} {c : Byte} {p : Code} (h : Encoding bs s d w) (hv : s.wv = true)
    (hp : phrase s p = some w) (hnone : engineLookup (some p) c s = none)
    (hdrop : bs.drop s.ipos = c :: bs.drop (s.ipos + 1)) :
    Encoding bs { engineInsert p c (appendCode p s) with wcode := some (c.setWidth 16), ipos := s.ipos + 1 }
      (Functional.insertPhrase d (w ++ [c])) [c] where
  phase := by simpa using h.phase
  host := by simpa using h.host
  input := by simpa [inputIs] using h.input
  engine := by
    have hengine : EngineHolds (appendCode p s) d := h.engine.congr ⟨rfl, rfl, rfl⟩
    have hphrase : phrase (appendCode p s) p = some w :=
      phrase_of_dictGrows (s := s) (engineKept.dictGrows ⟨rfl, rfl, rfl⟩) hp
    exact (hengine.insert c hphrase).congr ⟨rfl, rfl, rfl⟩
  distinct := entriesDistinct_engineInsert (s := appendCode p s) h.engine.order h.distinct hnone
  working := .inr ⟨_, by simpa using hv, rfl, by rw [phrase_lit _ (literal_toNat_lt c), literal_setWidth]⟩
  ready := by simpa [packerReady] using h.ready
  codes := by
    obtain ⟨ks, hcbuf, hcodes⟩ := h.codes
    have hlookup := (h.engine.lookup h.distinct hp c).symm.trans hnone
    rw [hdrop, Functional.encodeFrom_miss (h.codeOf_eq hp) hlookup] at hcodes
    exact ⟨ks ++ [p], by simpa using hcbuf.write p, by rw [List.append_assoc]; exact hcodes⟩

/-- `ENC_STEP` on the byte `c` is one round of the loop (41_encoder.md R141). -/
theorem Encoding.step {bs : List Byte} {c : Byte} (h : Encoding bs s d w) (hc : bs[s.ipos]? = some c) :
    ∃ t d' w', exec .encStep s = .next t ∧ t.ipos = s.ipos + 1 ∧ Encoding bs t d' w' := by
  obtain ⟨hlt, hget⟩ := List.getElem?_eq_some_iff.1 hc
  obtain ⟨hilen, hread⟩ := h.input
  have hbyte : inputByte s = some c := (hread _ hlt).trans hc
  have hs := selectStep_encStep h.phase (hilen ▸ hlt)
  have hdrop : bs.drop s.ipos = c :: bs.drop (s.ipos + 1) := by rw [List.drop_eq_getElem_cons hlt, hget]
  obtain ⟨hv, rfl⟩ | ⟨p, hv, hwc, hp⟩ := h.working
  · refine ⟨_, d, [c], exec_encStep_first hs hbyte hv, rfl, h.withPrefix rfl ?_ ?_⟩
    · rw [phrase_lit s (literal_toNat_lt c), literal_setWidth]
    · rw [hdrop, Functional.encodeFrom_hit rfl]
      rfl
  have hlookup := h.engine.lookup h.distinct hp c
  cases hk : engineLookup (some p) c s with
  | some k =>
    rw [hk] at hlookup
    refine ⟨_, d, w ++ [c], exec_encStep_hit hs hbyte hv hwc hk, rfl, h.withPrefix hv ?_ ?_⟩
    · exact (h.engine.codeOf_iff h.distinct).1 hlookup.symm
    · rw [hdrop, Functional.encodeFrom_hit (by rw [← hlookup]; rfl)]
  | none => exact ⟨_, _, [c], exec_encStep_miss hs hbyte hv hwc hk, rfl, h.withEmission hv hp hk hdrop⟩

/-- `ENC_RUN` with `n` input bytes left. -/
def encodesRest (bs : List Byte) (n : Nat) (s : State) : Prop := s.ipos + n = bs.length ∧ ∃ d w, Encoding bs s d w

theorem encodesRest_step {bs : List Byte} (n : Nat) (s : State) (h : encodesRest bs (n + 1) s) :
    ∃ t, runsBusy 1 s t ∧ encodesRest bs n t := by
  obtain ⟨hpos, d, w, henc⟩ := h
  have hlt : s.ipos < bs.length := by omega
  obtain ⟨t, d', w', ht, hipos, henc'⟩ := henc.step (List.getElem?_eq_getElem hlt)
  exact ⟨t, runsBusy_selected henc.host (selectStep_encStep henc.phase (henc.input.1 ▸ hlt)) ht, by omega, d', w', henc'⟩

/-- A command start is before the first byte (44_codec_commands.md R195). -/
theorem encodesRest_start {bs : List Byte} (hinput : inputIs s bs) (hhost : s.host = []) :
    encodesRest bs bs.length (commandStart .encRun s) :=
  ⟨Nat.zero_add _, [], [],
    { phase := rfl
      host := hhost
      input := hinput
      engine := EngineHolds.start _ s
      distinct := by simp [entriesDistinct]
      working := .inl ⟨rfl, rfl⟩
      ready := ⟨rfl, rfl, rfl, rfl, rfl, rfl⟩
      codes := ⟨[], bufferHolds_nil, rfl⟩ }⟩

/-! ### The packer writes the bits of the codes -/

/-- `COMPRESS` in `PACK_RUN` on the codes `ks`: the bits in `OBUF`, the pending bits and those of the codes still to come
are the bits of `ks` (43_bit_packer.md R175, R187). -/
structure Packing (ks : List Code) (s : State) : Prop where
  phase : s.phase = .packRun
  host : s.host = []
  codes : bufferHolds s.cbuf s.clen ks
  count : countOk s.pcnt s.pwidth
  number : s.pcnt.toNat = codeCount (s.cpos + 1)
  output : ∃ out, bufferHolds s.obuf s.olen out ∧
    Functional.bitsOf out ++ wordBits s.accn.toNat s.acc.toNat ++
      Functional.codeBitsFrom (s.cpos + 1) (ks.drop s.cpos) = Functional.codeBitsFrom 1 ks
  noError : s.errcode = 0

theorem Packing.width {ks : List Code} (h : Packing ks s) : s.pwidth.toNat = codeWidth (s.cpos + 1) := by
  obtain ⟨-, -, hw⟩ := h.count
  rw [hw, h.number, codeWidth]

/-- `PACK_RUN` with `n` codes left. -/
def packsRest (ks : List Code) (n : Nat) (s : State) : Prop := s.cpos + n = ks.length ∧ Packing ks s

/-- `PACK_PUT` on a code that fits (43_bit_packer.md R177). -/
theorem packsRest_step {ks : List Code} (hfit : ∀ j k, ks[j]? = some k → k.toNat < 2 ^ codeWidth (j + 1)) (n : Nat)
    (s : State) (h : packsRest ks (n + 1) s) : ∃ t, runsBusy 1 s t ∧ packsRest ks n t := by
  obtain ⟨hpos, hpack⟩ := h
  have hlt : s.cpos < ks.length := by omega
  obtain ⟨hclen, hread⟩ := hpack.codes
  have hget : ks[s.cpos]? = some ks[s.cpos] := List.getElem?_eq_getElem hlt
  have hk : codeAt s s.cpos = some ks[s.cpos] := (hread _).trans hget
  have hlt2 : ks[s.cpos].toNat < 2 ^ s.pwidth.toNat := hpack.width ▸ hfit _ _ hget
  have hs := selectStep_packPut hpack.phase (hclen ▸ hlt)
  obtain ⟨out, hout, hbits⟩ := hpack.output
  obtain ⟨new, happ, holen, hnew⟩ := putCode_bits hlt2
  obtain ⟨-, hcap, -⟩ := hpack.count
  refine ⟨_, runsBusy_selected hpack.host hs (exec_packPut hs hk hlt2), by rw [putCode_cpos]; omega,
    { phase := by simpa using hpack.phase
      host := by simpa using hpack.host
      codes := by simpa using hpack.codes
      count := schedule_ok hpack.count
      number := ?_
      output := ⟨out ++ new, ?_, ?_⟩
      noError := by simpa using hpack.noError }⟩
  · rw [putCode_pcnt, schedule_count hcap, hpack.number, putCode_cpos, codeCount_succ (i := s.cpos + 1)]
  · rw [holen]
    exact hout.append happ
  · rw [List.drop_eq_getElem_cons hlt, Functional.codeBitsFrom, ← hpack.width] at hbits
    rw [← hbits, putCode_cpos, Functional.bitsOf, List.flatMap_append, ← Functional.bitsOf, ← Functional.bitsOf]
    simp only [List.append_assoc]
    rw [← List.append_assoc (Functional.bitsOf new), ← hnew, List.append_assoc]

end Machine

/-! ### The last byte -/

/-- Fewer than eight bits fill a byte from its high end, zero bits below (30_encoding.md R96, 43_bit_packer.md R178). -/
theorem byteOfBits_wordBits {n : Nat} (v : Nat) (h : n ≤ 8) :
    byteOfBits (wordBits n v) = BitVec.ofNat 8 (v * 2 ^ (8 - n)) := by
  have hpad : (List.range 8).map ((wordBits n v).getD · false) = wordBits 8 (v * 2 ^ (8 - n)) := by
    refine List.map_congr_left fun j hj => ?_
    have hj : j < 8 := List.mem_range.1 hj
    rw [Nat.testBit_mul_two_pow]
    by_cases hjn : j < n
    · have hshift : 7 - j - (8 - n) = n - 1 - j := by omega
      have hle : 8 ≤ 7 - j + n := by omega
      simp [wordBits, hjn, hshift, hle]
    · have hlt : ¬8 ≤ 7 - j + n := by omega
      simp [wordBits, hjn, hlt]
  apply BitVec.eq_of_toNat_eq
  rw [BitVec.toNat_ofNat, ← numberOf_wordBits, ← hpad, ← wordBits_byteOfBits, numberOf_wordBits,
    Nat.mod_eq_of_lt (byteOfBits (wordBits n v)).isLt]

/-- Whole bytes cut from their own bits (20_memory.md R60, 30_encoding.md R93). -/
theorem packBits_bitsOf_append (bs : List Byte) (bits : List Bool) :
    packBits (Functional.bitsOf bs ++ bits) = bs ++ packBits bits := by
  induction bs with
  | nil => rfl
  | cons b bs ih =>
    have hlen := Machine.wordBits_length 8 b.toNat
    have hbyte : byteOfBits (wordBits 8 b.toNat) = b := by
      rw [byteOfBits_wordBits _ le_rfl, Nat.sub_self, pow_zero, Nat.mul_one, BitVec.ofNat_toNat, BitVec.setWidth_eq]
    rw [Functional.bitsOf, List.flatMap_cons, List.append_assoc, packBits_eq_cons (by simp [wordBits]),
      List.take_left' hlen, List.drop_left' hlen, hbyte, ← Functional.bitsOf, ih, List.cons_append]

namespace Machine

variable {s t : State}

/-- `PACK_PAD` leaves the bytes of `OBUF`'s bits and the pending ones (43_bit_packer.md R178). -/
theorem padLastByte_output {out : List Byte} (h : bufferHolds s.obuf s.olen out) :
    bufferHolds (padLastByte s).obuf (padLastByte s).olen
      (packBits (Functional.bitsOf out ++ wordBits s.accn.toNat s.acc.toNat)) := by
  have hlen := wordBits_length s.accn.toNat s.acc.toNat
  have h8 := s.accn.isLt
  rw [packBits_bitsOf_append]
  obtain h0 | hpos := eq_or_ne s.accn 0
  · rw [padLastByte_nothing h0, h0, show packBits (wordBits (0 : BitVec 3).toNat s.acc.toNat) = [] from rfl,
      List.append_nil]
    exact h
  · have hne : s.accn.toNat ≠ 0 := fun hz => hpos (BitVec.eq_of_toNat_eq hz)
    rw [padLastByte_pending hpos, packBits_eq_cons (List.ne_nil_of_length_pos (by omega)),
      List.take_of_length_le (by omega), List.drop_eq_nil_of_le (by omega), byteOfBits_wordBits _ (by omega)]
    exact h.write _

theorem padLastByte_end (s : State) : (padLastByte s).phase = .done ∧ (padLastByte s).errcode = s.errcode := by
  unfold padLastByte
  split <;> exact ⟨rfl, rfl⟩

/-- `PACK_EOC` and `PACK_PAD` end with the bytes of all the bits (43_bit_packer.md R178, R185). -/
theorem packs_end {ks : List Code} (h : packsRest ks 0 s) :
    ∃ t, runsBusy 2 s t ∧ resultIs t (packBits (Functional.codeBitsFrom 1 ks)) ∧ t.errcode = 0 := by
  obtain ⟨hpos, hpack⟩ := h
  rw [Nat.add_zero] at hpos
  obtain ⟨hclen, -⟩ := hpack.codes
  obtain ⟨out, hout, hbits⟩ := hpack.output
  rw [List.drop_eq_nil_of_le hpos.ge, Functional.codeBitsFrom, List.append_nil] at hbits
  have hs := selectStep_packEoc hpack.phase (hclen ▸ hpos.ge)
  have hpad : exec .packPad { s with phase := .packPad } = .next (padLastByte { s with phase := .packPad }) :=
    exec_packPad rfl
  obtain ⟨hdone, herr⟩ := padLastByte_end { s with phase := .packPad }
  have hresult := padLastByte_output (s := { s with phase := .packPad }) hout
  rw [hbits] at hresult
  exact ⟨_, runsBusy_trans (runsBusy_selected hpack.host hs (exec_packEoc hs)) (runsBusy_selected hpack.host rfl hpad),
    hresult.result hdone, herr.trans hpack.noError⟩

/-! ### The statement -/

/-- The packer starts at code number 1 with no bits pending (43_bit_packer.md R175). -/
theorem packsRest_start {ks : List Code} (hp : s.phase = .packRun) (hhost : s.host = []) (hcpos : s.cpos = 0)
    (hready : packerReady s) (hcbuf : bufferHolds s.cbuf s.clen ks) : packsRest ks ks.length s := by
  obtain ⟨hpcnt, hpwidth, haccn, holen, hobuf, herr⟩ := hready
  exact ⟨by rw [hcpos, Nat.zero_add],
    { phase := hp
      host := hhost
      codes := hcbuf
      count := by rw [hpcnt, hpwidth]; exact countOk_start
      number := by rw [hpcnt, hcpos]; rfl
      output := ⟨[], by rw [hobuf, holen]; exact bufferHolds_nil, by rw [hcpos, haccn]; rfl⟩
      noError := herr }⟩

/-- The source's loop ends with the code of the working prefix, and `ENC_FLUSH` appends it (41_encoder.md R142). -/
theorem encodes_end {bs : List Byte} (h : encodesRest bs 0 s) :
    ∃ t, runsBusy 2 s t ∧ packsRest (Functional.encode bs) (Functional.encode bs).length t := by
  obtain ⟨hpos, d, w, henc⟩ := h
  rw [Nat.add_zero] at hpos
  obtain ⟨hilen, -⟩ := henc.input
  obtain ⟨ks, hcbuf, hcodes⟩ := henc.codes
  rw [List.drop_eq_nil_of_le hpos.ge, Functional.encodeFrom] at hcodes
  have hs := selectStep_encEoi henc.phase (hilen ▸ hpos.ge)
  have heoi := runsBusy_selected henc.host hs (exec_encEoi hs)
  have hflush : selectStep { s with phase := .encFlush } = some .encFlush := rfl
  obtain ⟨hv, rfl⟩ | ⟨p, hv, hwc, hp⟩ := henc.working
  · have hnone : Functional.codeOf d [] = none := by
      by_contra hsome
      obtain ⟨k, hk⟩ := Option.ne_none_iff_exists'.1 hsome
      exact phrase_ne_nil henc.engine.order ((henc.engine.codeOf_iff henc.distinct).1 hk) rfl
    rw [hnone, Option.toList_none, List.append_nil] at hcodes
    subst hcodes
    exact ⟨_, runsBusy_trans heoi (runsBusy_selected henc.host hflush (exec_encFlush_nothing hflush hv)),
      packsRest_start rfl henc.host rfl henc.ready hcbuf⟩
  · rw [henc.codeOf_eq hp, Option.toList_some] at hcodes
    rw [← hcodes]
    exact ⟨_, runsBusy_trans heoi (runsBusy_selected henc.host hflush (exec_encFlush_code hflush hv hwc)),
      packsRest_start rfl henc.host rfl henc.ready (hcbuf.write p)⟩

/-- Settles O54: one loop over the bytes, one over the codes, and the four steps that end the phases. -/
theorem compressComputesPackOfEncode : Obligations.CompressComputesPackOfEncode := by
  intro s u bs hb hinput hhost hu
  rw [exec_compress_idle hb] at hu
  cases hu
  obtain ⟨-, hfit⟩ := Functional.encode_fits bs
  have hfit (j : Nat) (k : Code) (hk : (Functional.encode bs)[j]? = some k) := (hfit j k hk).lt_two_pow
  obtain ⟨s₁, hrun₁, henc⟩ := runsBusy_loop (encodesRest_step (bs := bs)) (encodesRest_start hinput hhost)
  obtain ⟨s₂, hrun₂, hpack⟩ := encodes_end henc
  obtain ⟨s₃, hrun₃, hpack⟩ := runsBusy_loop (packsRest_step hfit) hpack
  obtain ⟨s₄, hrun₄, hresult, herr⟩ := packs_end hpack
  have hrun := runsBusy_trans (runsBusy_trans (runsBusy_trans hrun₁ hrun₂) hrun₃) hrun₄
  rw [show bs.length + 2 + (Functional.encode bs).length + 2 = bs.length + (Functional.encode bs).length + 4 by omega]
    at hrun
  obtain ⟨hrun, hbusy⟩ := hrun
  obtain ⟨hfits, -⟩ := encodedCodesFit
  exact ⟨⟨s₄, _, pack_eq_some.2 ⟨(hfits bs).1, rfl⟩, hrun, hresult, herr⟩, hbusy⟩

end Machine

end Sys2Proof
end

section
/-! PROOFS. `DECOMPRESS` computes `decode(unpack(b))`, or ends in the error that `decode` gives (44_codec_commands.md R199,
R207): the unpacker cuts the source's codes off the input (43_bit_packer.md R179), and each step of the decoder is a round of
the source's loop (42_decoder.md R155). -/

namespace Sys2Proof

/-! ### The source's cut and the source's entry -/

namespace Functional

theorem cutFrom_eq_cons {fuel i : Nat} {bits : List Bool} {k : Code} {ks : List Code}
    (h : cutFrom fuel i bits = k :: ks) :
    codeWidth i ≤ bits.length ∧ k = BitVec.ofNat 16 (numberOf (bits.take (codeWidth i))) ∧
      cutFrom (fuel - 1) (i + 1) (bits.drop (codeWidth i)) = ks := by
  cases fuel with
  | zero => cases h
  | succ fuel =>
    rw [cutFrom] at h
    split at h
    case isTrue => cases h
    case isFalse hlen =>
      obtain ⟨rfl, rfl⟩ := List.cons.inj h
      exact ⟨Nat.le_of_not_lt hlen, rfl, rfl⟩

theorem cutFrom_eq_nil {fuel i : Nat} {bits : List Bool} (h : cutFrom fuel i bits = []) :
    fuel = 0 ∨ bits.length < codeWidth i := by
  cases fuel with
  | zero => exact .inl rfl
  | succ fuel =>
    rw [cutFrom] at h
    split at h
    case isTrue hlen => exact .inr hlen
    case isFalse => cases h

/-- A code that is not reserved and stands below the size names a phrase (10_state.md R50). -/
theorem phraseOf_of_lt {d : Phrases} {k : Code} (hrsv : ¬(k.toNat = 256 ∨ k.toNat = 257))
    (hlt : k.toNat < 258 + d.length) : ∃ w, phraseOf d k = some w := by
  obtain hlit | hfree : k.toNat < 256 ∨ 258 ≤ k.toNat := by omega
  · exact ⟨_, by rw [phraseOf, if_pos hlit]⟩
  · exact ⟨_, (phraseOf_free hfree).trans (List.getElem?_eq_getElem (by omega))⟩

/-- After the decoder's insert its code is the entry's (40_dictionary_engine.md R124, R125). -/
theorem phraseOf_entryOf {d : Phrases} {prev : List Byte} {k : Code} {f : Byte} (hprev : prev ≠ [])
    (hle : k.toNat ≤ 258 + d.length) (hrsv : ¬(k.toNat = 256 ∨ k.toNat = 257)) (hf : (entryOf d prev k).take 1 = [f]) :
    phraseOf (insertPhrase d (prev ++ [f])) k = some (entryOf d prev k) := by
  obtain heq | hlt := hle.eq_or_lt
  · rw [entryOf_new prev heq] at hf ⊢
    rw [List.take_append_of_le_length (List.length_pos_iff.2 hprev)] at hf
    rw [phraseOf_inserted _ heq, hf]
  · obtain ⟨w, hw⟩ := phraseOf_of_lt hrsv hlt
    rw [phraseOf_insertPhrase_other _ hlt.ne, entryOf_phrase prev hw, hw]

end Functional

/-- Reading bits that have a value is reading their number (20_memory.md R61). -/
theorem readBits_eq_numberOf {bit : Nat → Option Bool} {bits : List Bool} {p w : Nat} (hlen : p + w ≤ bits.length)
    (h : ∀ j, j < bits.length → bit j = bits[j]?) :
    readBits bit p w = some (Functional.numberOf ((bits.drop p).take w)) := by
  induction w with
  | zero => rfl
  | succ w ih =>
    have hlt : p + w < bits.length := by omega
    have hget : (bits.drop p)[w]? = some bits[p + w] := by rw [List.getElem?_drop, List.getElem?_eq_getElem hlt]
    rw [readBits, ih (by omega), h _ hlt, List.getElem?_eq_getElem hlt, List.take_add_one, hget, Option.toList_some,
      numberOf_append_singleton]

namespace Machine

variable {s t : State}

theorem inputBit_of_inputIs {bs : List Byte} (h : inputIs s bs) (p : Nat) (hp : p < (Functional.bitsOf bs).length) :
    inputBit s p = (Functional.bitsOf bs)[p]? := by
  obtain ⟨-, hread⟩ := h
  rw [bitsOf_length] at hp
  rw [← bitOf_eq_bitsOf, inputBit, hread (p / 8) (by omega), bitOf]

/-! ### The unpacker cuts the codes off the input -/

/-- The output and the error register as a command start leaves them (10_state.md R57). -/
def outputFresh (s : State) : Prop := s.olen = 0 ∧ s.obuf = [] ∧ s.errcode = 0

/-- `DECOMPRESS` in `UNPACK_RUN` on the input `bs`: the codes in `CBUF`, and those cut from the bits left, are
`unpack(bs)` (43_bit_packer.md R179). -/
structure Unpacking (bs : List Byte) (s : State) : Prop where
  phase : s.phase = .unpackRun
  host : s.host = []
  cpos : s.cpos = 0
  input : inputIs s bs
  engine : EngineHolds s []
  fresh : outputFresh s
  count : countOk s.ucnt s.uwidth
  number : s.ucnt.toNat = codeCount (s.clen + 1)
  position : s.clen ≤ s.upos
  codes : ∃ ks, bufferHolds s.cbuf s.clen ks ∧
    ks ++ Functional.cutFrom (8 * bs.length - s.clen) (s.clen + 1) ((Functional.bitsOf bs).drop s.upos) =
      Functional.unpack bs

theorem Unpacking.width {bs : List Byte} (h : Unpacking bs s) : s.uwidth.toNat = codeWidth (s.clen + 1) := by
  obtain ⟨-, -, hw⟩ := h.count
  rw [hw, h.number, codeWidth]

/-- `UNPACK_RUN` with `n` codes left. -/
def unpacksRest (bs : List Byte) (n : Nat) (s : State) : Prop :=
  s.clen + n = (Functional.unpack bs).length ∧ Unpacking bs s

/-- The cut of the bits left has the `n` codes left. -/
theorem unpacksRest.codes {bs : List Byte} {n : Nat} (h : unpacksRest bs n s) :
    ∃ ks cut, bufferHolds s.cbuf s.clen ks ∧
      Functional.cutFrom (8 * bs.length - s.clen) (s.clen + 1) ((Functional.bitsOf bs).drop s.upos) = cut ∧
      cut.length = n ∧ ks ++ cut = Functional.unpack bs := by
  obtain ⟨hpos, hunpack⟩ := h
  obtain ⟨ks, hcbuf, hcodes⟩ := hunpack.codes
  have hlen := congrArg List.length hcodes
  rw [List.length_append, ← hcbuf.1] at hlen
  exact ⟨ks, _, hcbuf, rfl, by omega, hcodes⟩

theorem unpacksRest_start {bs : List Byte} (hinput : inputIs s bs) (hhost : s.host = []) :
    unpacksRest bs (Functional.unpack bs).length (commandStart .unpackRun s) :=
  ⟨Nat.zero_add _,
    { phase := rfl
      host := hhost
      cpos := rfl
      input := hinput
      engine := EngineHolds.start _ s
      fresh := ⟨rfl, rfl, rfl⟩
      count := countOk_start
      number := rfl
      position := le_rfl
      codes := ⟨[], bufferHolds_nil, rfl⟩ }⟩

/-- `UNPACK_GET` cuts the next code off (43_bit_packer.md R180). -/
theorem unpacksRest_step {bs : List Byte} (n : Nat) (s : State) (h : unpacksRest bs (n + 1) s) :
    ∃ t, runsBusy 1 s t ∧ unpacksRest bs n t := by
  have ⟨hpos, hunpack⟩ := h
  have hwidth := hunpack.width
  have h9 : 9 ≤ codeWidth (s.clen + 1) := (widthOfCount_range _).1
  obtain ⟨hilen, -⟩ := hunpack.input
  obtain ⟨ks, cut, hcbuf, hcut, hlen, hcodes⟩ := h.codes
  obtain ⟨k, rest, rfl⟩ := List.exists_cons_of_length_eq_add_one hlen
  obtain ⟨hbits, hk, hrest⟩ := Functional.cutFrom_eq_cons hcut
  have hbs := bitsOf_length bs
  rw [List.length_drop] at hbits
  have hs := selectStep_unpackGet hunpack.phase (by omega)
  have hcode : inputCode s = some (Functional.numberOf (((Functional.bitsOf bs).drop s.upos).take s.uwidth.toNat)) :=
    readBits_eq_numberOf (by omega) (inputBit_of_inputIs hunpack.input)
  obtain ⟨-, hcap, -⟩ := hunpack.count
  refine ⟨_, runsBusy_selected hunpack.host hs (exec_unpackGet hs hcode), by rw [takeCode_clen]; omega,
    { phase := hunpack.phase
      host := hunpack.host
      cpos := hunpack.cpos
      input := hunpack.input
      engine := hunpack.engine.congr ⟨rfl, rfl, rfl⟩
      fresh := hunpack.fresh
      count := schedule_ok hunpack.count
      number := ?_
      position := ?_
      codes := ⟨ks ++ [k], ?_, ?_⟩ }⟩
  · rw [takeCode_ucnt, schedule_count hcap, hunpack.number, takeCode_clen, codeCount_succ (i := s.clen + 1)]
  · have hposition := hunpack.position
    rw [takeCode_clen, takeCode_upos]
    omega
  · rw [hk, ← hwidth]
    exact hcbuf.write _
  · rw [takeCode_clen, takeCode_upos, ← List.drop_drop, hwidth, Nat.sub_add_eq, hrest, List.append_assoc]
    exact hcodes

/-! ### The decoder follows the source's loop -/

/-- `DECOMPRESS` in `DEC_RUN` on the codes `ks`, where the source's loop is at the dictionary `d`, the previous entry `prev`
and the output `out` (42_decoder.md R155). -/
structure DecoderAt (ks : List Code) (s : State) (d : Functional.Phrases) (prev out : List Byte) : Prop where
  phase : s.phase = .decRun
  host : s.host = []
  codes : bufferHolds s.cbuf s.clen ks
  engine : EngineHolds s d
  previous : ∃ p, s.pv = true ∧ s.pcode = some p ∧ phrase s p = some prev
  output : bufferHolds s.obuf s.olen out
  noError : s.errcode = 0

/-- From `s`, with `n` codes left, the command ends as `decode` says, in the steps 44_codec_commands.md R207 counts. -/
def decodesTo (s : State) (n : Nat) : Functional.Decoding → Prop
  | .bytes out => ∃ t, Sys2Proof.core.run (n + 1) s = .next t ∧ resultIs t out ∧ t.errcode = 0
  | .desync sub val idx => ∃ e t, idx = s.cpos + e ∧ Sys2Proof.core.run (e + 1) s = .next t ∧ t.phase = .err ∧
      t.olen = 0 ∧ t.errcode = sub ∧ t.errval = val ∧ t.erridx = idx

theorem decodesTo_step {n : Nat} {r : Functional.Decoding} (hstep : step s = .next t) (hcpos : t.cpos = s.cpos + 1)
    (h : decodesTo t n r) : decodesTo s (n + 1) r := by
  cases r with
  | bytes out =>
    obtain ⟨u, hu, hend⟩ := h
    exact ⟨u, (run_succ hstep).trans hu, hend⟩
  | desync sub val idx =>
    obtain ⟨e, u, hidx, hu, hend⟩ := h
    exact ⟨e + 1, u, by omega, (run_succ hstep).trans hu, hend⟩

/-- The error entry at the code the cursor is at (60_exceptions.md R216, R222). -/
theorem decodesTo_desync {sub : BitVec 2} {k : Code} (n : Nat) (h : step s = .next (raiseDesync sub k s.cpos s)) :
    decodesTo s n (.desync sub k s.cpos) :=
  ⟨0, _, rfl, run_succ h, rfl, rfl, rfl, rfl, rfl⟩

theorem decodeNext_of_found {k p : Code} {entry : List Byte} {f : Byte} (hr : engineResolve k s = .found entry f)
    (hp : previousEntry s = some p) :
    decodeNext k s =
      .next { engineInsert p f (appendBytes entry s) with pcode := some k, cpos := s.cpos + 1 } := by
  simp only [decodeNext, hr, hp]

section

variable {ks : List Code} {d : Functional.Phrases} {prev out : List Byte} {k : Code}

/-- A code up to the size that is not reserved resolves to the source's entry (40_dictionary_engine.md R124). -/
theorem DecoderAt.resolve (h : DecoderAt ks s d prev out) (hle : k.toNat ≤ 258 + d.length)
    (hrsv : ¬(k.toNat = 256 ∨ k.toNat = 257)) :
    ∃ f, (Functional.entryOf d prev k).take 1 = [f] ∧ engineResolve k s = .found (Functional.entryOf d prev k) f := by
  obtain ⟨h256, h257⟩ := ne_reserved (k := k) (by omega)
  obtain ⟨p, hpv, hpc, hp⟩ := h.previous
  obtain heq | hlt := hle.eq_or_lt
  · obtain ⟨f, tail, rfl⟩ := List.exists_cons_of_ne_nil (phrase_ne_nil h.engine.order hp)
    rw [Functional.entryOf_new _ heq]
    exact ⟨f, rfl, resolve_found hpv hpc h256 h257 (.inr ⟨heq.trans h.engine.size.symm, _, hp, rfl, rfl⟩) rfl⟩
  · obtain ⟨w, hw⟩ := Functional.phraseOf_of_lt hrsv hlt
    have hphrase := (h.engine.phrases k).trans hw
    rw [Functional.entryOf_phrase prev hw]
    obtain ⟨f, tail, rfl⟩ := List.exists_cons_of_ne_nil (phrase_ne_nil h.engine.order hphrase)
    exact ⟨f, rfl, engineResolve_below (h.engine.size ▸ hlt) h256 h257 hphrase rfl⟩

/-- `DEC_NEXT` with an entry is a round of the source's loop (42_decoder.md R157). -/
theorem DecoderAt.entry (h : DecoderAt ks s d prev out) (hle : k.toNat ≤ 258 + d.length)
    (hrsv : ¬(k.toNat = 256 ∨ k.toNat = 257)) :
    ∃ t, decodeNext k s = .next t ∧ t.cpos = s.cpos + 1 ∧
      DecoderAt ks t (Functional.insertPhrase d (prev ++ (Functional.entryOf d prev k).take 1))
        (Functional.entryOf d prev k) (out ++ Functional.entryOf d prev k) := by
  obtain ⟨f, hf, hr⟩ := h.resolve hle hrsv
  obtain ⟨p, hpv, hpc, hp⟩ := h.previous
  have hprev : previousEntry s = some p := by simp only [previousEntry, hpv, hpc, if_true]
  have hkept : engineKept s (appendBytes (Functional.entryOf d prev k) s) := by simp [engineKept]
  have hengine := (h.engine.congr hkept).insert f (phrase_of_dictGrows hkept.dictGrows hp)
  have hphrase := Functional.phraseOf_entryOf (phrase_ne_nil h.engine.order hp) hle hrsv hf
  have houtput := h.output.append (appended_appendBytes (Functional.entryOf d prev k) s)
  rw [hf]
  refine ⟨_, decodeNext_of_found hr hprev, rfl,
    { phase := by simpa using h.phase
      host := by simpa using h.host
      codes := by simpa using h.codes
      engine := hengine.congr ⟨rfl, rfl, rfl⟩
      previous := ⟨k, by simpa using hpv, rfl, ?_⟩
      output := by simpa [appendBytes_olen] using houtput
      noError := by simpa using h.noError }⟩
  exact phrase_of_dictGrows (s := engineInsert p f (appendBytes (Functional.entryOf d prev k) s))
    (engineKept.dictGrows ⟨rfl, rfl, rfl⟩) ((hengine.phrases k).trans hphrase)

/-- From any round of the source's loop the machine ends as the loop does. -/
theorem DecoderAt.run {rest : List Code} (h : DecoderAt ks s d prev out) (hrest : ks.drop s.cpos = rest) :
    decodesTo s rest.length (Functional.decodeFrom d prev out s.cpos rest) := by
  obtain ⟨hclen, hread⟩ := h.codes
  induction rest generalizing s d prev out with
  | nil =>
    have hs := selectStep_decEnd h.phase (hclen ▸ List.drop_eq_nil_iff.1 hrest)
    exact ⟨_, run_succ ((step_of_selected h.host hs).trans (exec_decEnd hs)),
      h.output.result (s := { s with phase := .done }) rfl, h.noError⟩
  | cons k rest ih =>
    have hk : ks[s.cpos]? = some k := by rw [← Nat.add_zero s.cpos, ← List.getElem?_drop, hrest]; rfl
    have hlt : s.cpos < s.clen := hclen ▸ (List.getElem?_eq_some_iff.1 hk).1
    have hstep : step s = decodeNext k s :=
      (step_of_selected h.host (selectStep_decNext h.phase hlt)).trans
        (exec_decNext h.phase hlt ((hread _).trans hk))
    have hsize := h.engine.size
    obtain habove | hle := Nat.lt_or_ge (258 + d.length) k.toNat
    · rw [Functional.decodeFrom_above _ _ _ _ habove]
      exact decodesTo_desync _ (hstep.trans (decodeNext_desync (engineResolve_above (hsize ▸ habove))))
    by_cases hrsv : k.toNat = 256 ∨ k.toNat = 257
    · rw [Functional.decodeFrom_reserved _ _ _ _ hrsv]
      exact decodesTo_desync _ (hstep.trans (decodeNext_desync (engineResolve_reserved (hsize ▸ hle) hrsv)))
    · obtain ⟨t, ht, hcpos, hat⟩ := h.entry hle hrsv
      have hrest' : ks.drop t.cpos = rest := by rw [hcpos, ← List.drop_drop, hrest]; rfl
      obtain ⟨hclen', hread'⟩ := hat.codes
      rw [Functional.decodeFrom_entry _ _ _ _ hle hrsv, ← hcpos]
      exact decodesTo_step (hstep.trans ht) hcpos (ih hat hrest' hclen' hread')

end

/-! ### The first code -/

/-- `DEC_FIRST` is the source's first round, which has no previous entry (42_decoder.md R156). -/
theorem decodesTo_first {ks : List Code} (hp : s.phase = .decFirst) (hhost : s.host = []) (hcpos : s.cpos = 0)
    (hcodes : bufferHolds s.cbuf s.clen ks) (hengine : EngineHolds s []) (hfresh : outputFresh s) :
    decodesTo s ks.length (Functional.decode ks) := by
  obtain ⟨hclen, hread⟩ := hcodes
  obtain ⟨holen, hobuf, herr⟩ := hfresh
  have houtput : bufferHolds s.obuf s.olen [] := by rw [holen, hobuf]; exact bufferHolds_nil
  have hstep : step s = exec .decFirst s := step_of_selected hhost (selectStep_decFirst hp)
  cases ks with
  | nil =>
    exact ⟨_, run_succ (hstep.trans (exec_decFirst_nothing hp hclen)),
      houtput.result (s := { s with phase := .done }) rfl, herr⟩
  | cons k rest =>
    have hx := hstep.trans (exec_decFirst hp (by rw [hclen]; exact Nat.succ_pos _) (hread 0))
    obtain hlit | hge := Nat.lt_or_ge k.toNat 256
    · rw [Functional.decode_literal rest hlit]
      rw [← literal_eq hlit, decodeFirst_literal, literal_eq hlit] at hx
      have hat : DecoderAt (k :: rest)
          { appendByte (k.setWidth 8) s with pcode := some k, pv := true, cpos := 1, phase := .decRun } []
          [k.setWidth 8] [k.setWidth 8] :=
        { phase := rfl
          host := hhost
          codes := ⟨hclen, hread⟩
          engine := hengine.congr ⟨rfl, rfl, rfl⟩
          previous := ⟨k, rfl, rfl, phrase_lit _ hlit⟩
          output := houtput.write _
          noError := herr }
      exact decodesTo_step hx (by rw [hcpos]) (hat.run rfl)
    · rw [Functional.decode_desync rest hge, ← hcpos]
      rw [decodeFirst_desync hge, ← hcpos] at hx
      exact decodesTo_desync _ hx

/-- The unpacker stops where the source's cut does: fewer bits are left than the width (43_bit_packer.md R181). -/
theorem unpacks_end {bs : List Byte} (h : unpacksRest bs 0 s) :
    ∃ t, runsBusy 1 s t ∧ t.cpos = 0 ∧ decodesTo t (Functional.unpack bs).length (Functional.decompress bs) := by
  have ⟨hpos, hunpack⟩ := h
  have hwidth := hunpack.width
  have h9 : 9 ≤ codeWidth (s.clen + 1) := (widthOfCount_range _).1
  have hposition := hunpack.position
  have hbs := bitsOf_length bs
  obtain ⟨hilen, -⟩ := hunpack.input
  obtain ⟨ks, cut, hcbuf, hcut, hlen, hcodes⟩ := h.codes
  obtain rfl := List.length_eq_zero_iff.1 hlen
  rw [List.append_nil] at hcodes
  subst hcodes
  have hs : selectStep s = some .unpackStop := selectStep_unpackStop hunpack.phase (by
    obtain hfuel | hbits := Functional.cutFrom_eq_nil hcut
    · omega
    · rw [List.length_drop] at hbits
      omega)
  exact ⟨_, runsBusy_selected hunpack.host hs (exec_unpackStop hs), hunpack.cpos,
    decodesTo_first rfl hunpack.host hunpack.cpos hcbuf (hunpack.engine.congr ⟨rfl, rfl, rfl⟩) hunpack.fresh⟩

/-- Settles O55: a loop over the codes of the input, then the source's loop over the codes. -/
theorem decompressComputesDecodeOfUnpack : Obligations.DecompressComputesDecodeOfUnpack := by
  intro s u bs hb hinput hhost hu
  rw [exec_decompress_idle hb] at hu
  cases hu
  obtain ⟨s₁, hrun₁, hunpack⟩ := runsBusy_loop (unpacksRest_step (bs := bs)) (unpacksRest_start hinput hhost)
  obtain ⟨s₂, hrun₂, hcpos, hend⟩ := unpacks_end hunpack
  obtain ⟨hrun, -⟩ := runsBusy_trans hrun₁ hrun₂
  refine ⟨fun out hout => ?_, fun sub val idx hout => ?_⟩ <;> rw [hout] at hend
  · obtain ⟨t, ht, hresult⟩ := hend
    have hsteps : 2 * (Functional.unpack bs).length + 2 =
        (Functional.unpack bs).length + 1 + ((Functional.unpack bs).length + 1) := by omega
    exact ⟨t, by rw [hsteps, run_add _ hrun, ht], hresult⟩
  · obtain ⟨e, t, hidx, ht, hresult⟩ := hend
    have hsteps : (Functional.unpack bs).length + 2 + idx = (Functional.unpack bs).length + 1 + (e + 1) := by omega
    exact ⟨t, by rw [hsteps, run_add _ hrun, ht], hresult⟩

end Machine

end Sys2Proof
end

section
/-! PROOFS. The sequencer and the host of 44_codec_commands.md: the table of R198, the code that is too large (R206), the
widths that never decrease (R201), and what the host's moves do (R197, R203, R209 to R211). -/

namespace Sys2Proof.Machine

variable {s t : State}

/-! ### The sequencer -/

/-- `PHASE` after a step whose row of 44_codec_commands.md R198 names one phase, from the phase before it; a decoder step
that takes a code has two. -/
def phaseAfter (p : Phase) : Instr → Option Phase
  | .encStep | .packPut | .unpackGet => some p
  | .encEoi => some .encFlush
  | .encFlush => some .packRun
  | .packEoc => some .packPad
  | .packPad | .decEnd => some .done
  | .unpackStop => some .decFirst
  | _ => none

theorem StepWrites.phase_eq {i : Instr} {q : Phase} (h : StepWrites s i t) (hq : phaseAfter s.phase i = some q) :
    t.phase = q := by
  cases h with
  | decFirstNoCode | decFirstDesync | decFirstLiteral | decNextDesync | decNextEntry => cases hq
  | _ => cases hq; simp

theorem exec_phase {i : Instr} {q : Phase} (hs : selectStep s = some i) (hq : phaseAfter s.phase i = some q) (t : State)
    (h : exec i s = .next t) : t.phase = q :=
  (exec_selected_writes hs h).phase_eq hq

theorem decodeFirst_phase (k : Code) (s : State) :
    (decodeFirst k s).phase = if k.toNat < 256 then .decRun else .err := by
  obtain hlit | hge := Nat.lt_or_ge k.toNat 256
  · rw [if_pos hlit, decodeFirst, if_neg (Nat.not_le.2 hlit)]
  · rw [if_neg (Nat.not_lt.2 hge), decodeFirst_desync hge, raiseDesync_phase]

/-- `DEC_NEXT` goes on, or raises, as `DE.RESOLVE` answers (42_decoder.md R157, 60_exceptions.md R222). -/
theorem decodeNext_phase {k : Code} (hp : s.phase = .decRun) (h : decodeNext k s = .next t) :
    t.phase = if k = 256 ∨ k = 257 ∨ s.next.toNat < k.toNat then .err else .decRun := by
  obtain ⟨sub, hr, rfl⟩ | ⟨entry, f, p, hr, -, rfl⟩ := decodeNext_next h
  · rw [if_pos]
    · rfl
    · obtain ⟨habove, -⟩ | ⟨-, hrsv, -⟩ := engineResolve_desync hr
      · exact .inr (.inr habove)
      · exact (hrsv.imp BitVec.eq_of_toNat_eq fun h => .inl (BitVec.eq_of_toNat_eq h))
  · obtain ⟨h256, h257, hcases⟩ := engineResolve_found hr
    rw [if_neg]
    · simpa using hp
    · rintro (rfl | rfl | habove)
      · exact h256 rfl
      · exact h257 rfl
      · obtain ⟨hlt, -⟩ | ⟨-, -, heq, -⟩ := hcases <;> omega

theorem not_selected_iff (s : State) : s.phase = .idle ∨ s.phase = .done ∨ s.phase = .err ↔ selectStep s = none := by
  cases hp : s.phase <;> simp [selectStep, hp]

/-- Settles O16: a row's phase is `phaseAfter`, or for a code that is taken the decoder's answer. -/
theorem sequencerTable : Obligations.SequencerTable := by
  refine ⟨busy_iff_selected, not_selected_iff, fun s => ⟨fun hp hlt => ?_, fun hp heq => ?_, fun hp => ?_,
    fun hp hlt => ?_, fun hp heq => ?_, fun hp => ?_, fun hp hle => ?_, fun hp hlt => ?_,
    fun hp => ⟨selectStep_decFirst hp, ?_, ?_⟩, fun hp hlt => ⟨selectStep_decNext hp hlt, ?_⟩, fun hp heq => ?_⟩⟩
  · have hs := selectStep_encStep hp hlt
    exact ⟨hs, exec_phase hs (by rw [hp]; rfl)⟩
  · have hs := selectStep_encEoi hp heq.ge
    exact ⟨hs, exec_phase hs rfl⟩
  · have hs := selectStep_encFlush hp
    exact ⟨hs, exec_phase hs rfl⟩
  · have hs := selectStep_packPut hp hlt
    exact ⟨hs, exec_phase hs (by rw [hp]; rfl)⟩
  · have hs := selectStep_packEoc hp heq.ge
    exact ⟨hs, exec_phase hs rfl⟩
  · have hs : selectStep s = some .packPad := by simp only [selectStep, hp]
    exact ⟨hs, exec_phase hs rfl⟩
  · have hs := selectStep_unpackGet hp hle
    exact ⟨hs, exec_phase hs (by rw [hp]; rfl)⟩
  · have hs := selectStep_unpackStop hp hlt
    exact ⟨hs, exec_phase hs rfl⟩
  · intro hz t ht
    rw [exec_decFirst_nothing hp hz] at ht
    cases ht
    rfl
  · intro k hpos hk t ht
    rw [exec_decFirst hp hpos hk] at ht
    cases ht
    exact decodeFirst_phase k s
  · intro k hk _ t ht
    rw [exec_decNext hp hlt hk] at ht
    exact decodeNext_phase hp ht
  · have hs := selectStep_decEnd hp heq.ge
    exact ⟨hs, exec_phase hs rfl⟩

/-! ### A code above the reachable size -/

/-- Settles O35: under the invariant `NEXT` is the count of code number `CPOS`, and `DE.RESOLVE` refuses a code above it. -/
theorem corruptStreamIsRejected : Obligations.CorruptStreamIsRejected := by
  intro s k hi
  refine ⟨fun hp hlt hk habove => ?_, fun hp hpos hk hge => ?_⟩
  · have hphase := hi.phase
    simp only [phaseOk, hp] at hphase
    obtain ⟨-, -, -, hnext, -⟩ := hphase
    have hcount : s.next.toNat < k.toNat := by
      rw [hnext, codeCount]
      simp only [Config.cap]
      omega
    rw [exec_decNext hp hlt hk, decodeNext_desync (engineResolve_above hcount)]
    exact ⟨_, rfl, rfl, rfl, rfl, rfl, rfl⟩
  · rw [exec_decFirst hp hpos hk, decodeFirst_desync hge]
    exact ⟨_, rfl, rfl, rfl, rfl, rfl, rfl⟩

/-! ### The widths -/

theorem schedule_width_le (c : Count) (w : Width) : w.toNat ≤ (schedule c w).2.toNat := by
  obtain ⟨hbelow, hfull⟩ := advanced_schedule c w
  obtain hlt | hge := Nat.lt_or_ge c.toNat 65536
  · obtain ⟨-, hw⟩ := hbelow hlt
    rw [hw]
    split <;> omega
  · obtain ⟨-, hw⟩ := hfull hge
    rw [hw]

theorem engineInsert_width_le (p : Code) (c : Byte) (s : State) : s.width.toNat ≤ (engineInsert p c s).width.toNat := by
  obtain ⟨-, heq⟩ | ⟨-, heq⟩ := engineInsert_cases p c s <;> rw [heq]
  exact schedule_width_le s.next s.width

/-- A core step moves a width by `SCHED` or not at all (70_reset_and_hazards.md R249). -/
theorem StepWrites.widths_le {i : Instr} (h : StepWrites s i t) :
    s.uwidth.toNat ≤ t.uwidth.toNat ∧ s.pwidth.toNat ≤ t.pwidth.toNat ∧ s.width.toNat ≤ t.width.toNat := by
  refine ⟨?_, ?_, ?_⟩
  · cases h with
    | unpackGet k => exact schedule_width_le s.ucnt s.uwidth
    | _ => simp
  · cases h with
    | packPut k => exact schedule_width_le s.pcnt s.pwidth
    | _ => simp
  · obtain ⟨-, hw, -⟩ | ⟨p, c, -, hw, -⟩ := h.engine
    · rw [hw]
    · rw [hw]
      exact engineInsert_width_le p c s

theorem countOk.width_le {cnt : Count} {w : Width} (h : countOk cnt w) : w.toNat ≤ 16 := by
  obtain ⟨-, -, hw⟩ := h
  rw [hw]
  exact (widthOfCount_range _).2

/-- Settles O48: while `BUSY = 1` only a core step writes a width, and the invariant bounds the widths after it. -/
theorem widthsNeverDecrease : Obligations.WidthsNeverDecrease := by
  intro s t hi hb h
  obtain ⟨hnext, hpack, hunpack⟩ := (stepKeepsTheInvariant s t hi h).counters
  have hle : s.uwidth.toNat ≤ t.uwidth.toNat ∧ s.pwidth.toNat ≤ t.pwidth.toNat ∧ s.width.toNat ≤ t.width.toNat := by
    obtain ⟨rest, ⟨i, -, hw⟩ | ⟨hidle, -⟩ | ⟨hidle, -⟩ | ⟨n, d, f, rfl⟩⟩ := step_writes h
    · exact hw.widths_le
    · simp [hb] at hidle
    · simp [hb] at hidle
    · exact ⟨le_rfl, le_rfl, le_rfl⟩
  obtain ⟨hu, hp, hw⟩ := hle
  exact ⟨hu, hunpack.width_le, hp, hpack.width_le, hw, hnext.width_le⟩

/-! ### The host's moves -/

/-- `CMD` takes the low two bits of the value (10_state.md R37). -/
theorem commandOf_ofNat (v : Nat) : commandOf (BitVec.ofNat 2 v) = commandOf (BitVec.ofNat 2 (v % 4)) := by
  have hbits : BitVec.ofNat 2 v = BitVec.ofNat 2 (v % 4) := BitVec.eq_of_toNat_eq (by simp)
  rw [hbits]

theorem commandOf_nop {v : Nat} (h : v % 4 = 0) : commandOf (BitVec.ofNat 2 v) = .nop := by
  rw [commandOf_ofNat, h]
  rfl

theorem commandOf_reserved {v : Nat} (h : v % 4 = 3) : commandOf (BitVec.ofNat 2 v) = .cmdReserved := by
  rw [commandOf_ofNat, h]
  rfl

/-- Settles O8: `NOP` is the command word of a value whose low two bits are zero. -/
theorem nopChangesNothing : Obligations.NopChangesNothing := by
  refine ⟨fun _ => rfl, fun s rest v hhost hv => ?_⟩
  rw [step_writeReg_cmd hhost, commandOf_nop hv]
  rfl

/-- No command has an effect while `BUSY = 1` (44_codec_commands.md R210). -/
theorem exec_command_busy (hb : busy s = true) (w : BitVec 2) : exec (commandOf w) s = .next s := by
  unfold commandOf
  split
  · rfl
  · simp only [exec, execCompress, writeCommand, hb, if_true]
  · simp only [exec, execDecompress, writeCommand, hb, if_true]
  · rfl

theorem step_writeReg {rest : List HostMove} {r : HostReg} {v : Nat} (h : s.host = .writeReg r v :: rest)
    (hr : r ≠ .cmd) : step s = .next (hostWriteReg r v (s.withHost rest)) := by
  cases r with
  | cmd => exact absurd rfl hr
  | ilen | status | olen | errcode | errval | erridx | cfg => simp only [step, fetch, h]

theorem step_writeIbuf {rest : List HostMove} {i : Nat} {b : Byte} (h : s.host = .writeIbuf i b :: rest) :
    step s = .next (hostWriteIbuf i b (s.withHost rest)) := by
  simp only [step, fetch, h]

theorem step_readObuf {rest : List HostMove} {i : Nat} (h : s.host = .readObuf i :: rest) :
    step s = .next (hostReadObuf i (s.withHost rest)) := by
  simp only [step, fetch, h]

theorem step_poll_idle {rest : List HostMove} (h : s.host = .poll :: rest) (hb : busy s = false) :
    step s = .next (hostReadReg .status (s.withHost rest)) := by
  simp [step, fetch, h, hb]

theorem hostWriteReg_ilen (v : Nat) (s : State) :
    hostWriteReg .ilen v s = if busy s then s else { s with ilen := v } := rfl

/-- Settles O10: each of the writes asks for `BUSY = 0`. -/
theorem hostWritesWhileBusyIgnored : Obligations.HostWritesWhileBusyIgnored := by
  intro s hb
  refine ⟨exec_command_busy hb 0, exec_command_busy hb 1, exec_command_busy hb 2, exec_command_busy hb 3,
    fun rest v h => ?_, fun rest v h => ?_, fun rest i b h => ?_⟩ <;>
    have hb' : busy (s.withHost rest) = true := hb
  · rw [step_writeReg_cmd h, exec_command_busy hb']
  · rw [step_writeReg h (by decide), hostWriteReg_ilen, if_pos hb']
  · rw [step_writeIbuf h, hostWriteIbuf, if_pos hb']

/-- Settles O18: a byte is one write of `IBUF`, and a read-only register ignores its write. -/
theorem hostWritesWhileIdle : Obligations.HostWritesWhileIdle := by
  refine ⟨fun s rest hb => ⟨fun i b h => ?_, fun v h => ?_⟩, fun s rest r v h => step_writeReg_readOnly h⟩ <;>
    have hb' : busy (s.withHost rest) ≠ true := by simpa [busy] using hb
  · rw [step_writeIbuf h, hostWriteIbuf, if_neg hb']
    exact ⟨_, rfl, rfl, fun a => Memory.read_write s.ibuf i a b⟩
  · rw [step_writeReg h (by decide), hostWriteReg_ilen, if_neg hb']

/-! ### The host's reads -/

/-- The four results read their value while `BUSY = 0` (44_codec_commands.md R209). -/
theorem hostReadReg_idle (hb : busy s = false) :
    hostReadReg .olen s = readReturns s.olen s ∧ hostReadReg .errcode s = readReturns s.errcode.toNat s ∧
      hostReadReg .errval s = readReturns s.errval.toNat s ∧ hostReadReg .erridx s = readReturns s.erridx s := by
  simp [hostReadReg, hb]

/-- While `BUSY = 1` a result reads as some value (93_implementation_defined.md U4; log entry 12). -/
theorem hostReadReg_busy {r : HostReg} (hb : busy s = true) (hr : r = .olen ∨ r = .errcode ∨ r = .errval ∨ r = .erridx) :
    ∃ v, hostReadReg r s = { s with readData := some v, fresh := s.fresh + 1 } := by
  obtain rfl | rfl | rfl | rfl := hr
  all_goals
    simp only [hostReadReg, hb, if_true]
    exact ⟨_, rfl⟩

theorem doneFlag_iff (s : State) : doneFlag s = true ↔ s.phase = .done := by
  cases hp : s.phase <;> simp [doneFlag, phaseNumber, hp]

theorem hostReadObuf_valid {i : Nat} {b : Byte} (hp : s.phase = .done) (hlt : i < s.olen)
    (hb : Memory.read s.obuf i = some b) : hostReadObuf i s = readReturns b.toNat s := by
  rw [hostReadObuf, if_pos ⟨(doneFlag_iff s).2 hp, hlt⟩, hb]

/-- Outside the result a byte of `OBUF` reads as some byte (93_implementation_defined.md U3, U9; log entry 12). -/
theorem hostReadObuf_open {i : Nat} (h : s.phase ≠ .done ∨ s.olen ≤ i) :
    hostReadObuf i s = readReturnsAnyBits 8 s := by
  rw [hostReadObuf, if_neg]
  rw [doneFlag_iff, not_and_or, Nat.not_lt]
  exact h

/-- Settles O20, read by read. -/
theorem hostReads : Obligations.HostReads := by
  refine ⟨fun s rest => ⟨step_readReg, step_readReg, fun hb => ?_, fun i b h hp hlt hbyte => ?_⟩,
    fun s rest => ⟨fun hb r h hr => ?_, fun i h hopen => ?_⟩⟩
  · have hb' : busy (s.withHost rest) = false := hb
    obtain ⟨holen, hcode, hval, hidx⟩ := hostReadReg_idle hb'
    exact ⟨fun h => by rw [step_readReg h, holen]; rfl, fun h => by rw [step_readReg h, hcode]; rfl,
      fun h => by rw [step_readReg h, hval]; rfl, fun h => by rw [step_readReg h, hidx]; rfl,
      fun h => step_poll_idle h hb⟩
  · rw [step_readObuf h, hostReadObuf_valid (s := s.withHost rest) hp hlt hbyte]
    rfl
  · obtain ⟨v, hv⟩ := hostReadReg_busy (s := s.withHost rest) hb hr
    exact ⟨v, by rw [step_readReg h, hv]⟩
  · rw [step_readObuf h, hostReadObuf_open (s := s.withHost rest) hopen]
    exact ⟨_, rfl⟩

/-! ### The end of a run -/

/-- Where no step is selected and the host does not start a command, a step leaves all but the input, which is the host's
to write, and the model's own fields (44_codec_commands.md R211). -/
theorem step_not_selected (hs : selectStep s = none) (h : step s = .next t) :
    (∃ v rest, s.host = .writeReg .cmd v :: rest ∧ (v % 4 = 1 ∨ v % 4 = 2)) ∨
      ∃ moves m n d f, t = { s with host := moves, ibuf := m, ilen := n, readData := d, fresh := f } := by
  have hb : busy s = false := by
    cases hb : busy s with
    | false => rfl
    | true =>
      obtain ⟨i, hi⟩ := (busy_iff_selected s).1 hb
      cases hs.symm.trans hi
  match hhost : s.host with
  | [] =>
    simp only [step, fetch, hhost, coreTurn, hs] at h
    cases h
    exact .inr ⟨_, _, _, _, _, rfl⟩
  | .pass :: rest =>
    have hs' : selectStep (s.withHost rest) = none := hs
    simp only [step, fetch, hhost, coreTurn, hs'] at h
    cases h
    exact .inr ⟨_, _, _, _, _, rfl⟩
  | .poll :: rest =>
    rw [step_poll_idle hhost hb] at h
    cases h
    exact .inr ⟨_, _, _, _, _, rfl⟩
  | .writeIbuf i b :: rest =>
    rw [step_writeIbuf hhost] at h
    cases h
    obtain heq | ⟨-, heq⟩ := hostWriteIbuf_eq i b (s.withHost rest) <;> rw [heq] <;>
      exact .inr ⟨_, _, _, _, _, rfl⟩
  | .readReg r :: rest =>
    rw [step_readReg hhost] at h
    cases h
    obtain ⟨d, f, heq⟩ := hostReadReg_eq r (s.withHost rest)
    exact .inr ⟨_, _, _, d, f, heq⟩
  | .readObuf i :: rest =>
    rw [step_readObuf hhost] at h
    cases h
    obtain ⟨d, f, heq⟩ := hostReadObuf_eq i (s.withHost rest)
    exact .inr ⟨_, _, _, d, f, heq⟩
  | .writeReg r v :: rest =>
    by_cases hr : r = .cmd
    · subst hr
      rw [step_writeReg_cmd hhost] at h
      obtain h0 | hstart | h3 : v % 4 = 0 ∨ (v % 4 = 1 ∨ v % 4 = 2) ∨ v % 4 = 3 := by omega
      · rw [commandOf_nop h0] at h
        cases h
        exact .inr ⟨_, _, _, _, _, rfl⟩
      · exact .inl ⟨v, rest, rfl, hstart⟩
      · rw [commandOf_reserved h3] at h
        cases h
        exact .inr ⟨_, _, _, _, _, rfl⟩
    · rw [step_writeReg hhost hr] at h
      cases h
      obtain ⟨n, heq⟩ := hostWriteReg_eq r v (s.withHost rest)
      exact .inr ⟨_, _, n, _, _, heq⟩

/-- Settles O17: in `DONE` and `ERR` no step is selected, so the result is left to the host's next command. -/
theorem endOfRunPersists : Obligations.EndOfRunPersists := by
  refine ⟨fun s hb hhost => ?_, fun s t hp h => ?_⟩
  · have hs := (not_selected_iff s).1 (phase_of_not_busy hb)
    simp only [step, fetch, hhost, coreTurn, hs]
  · have hs := (not_selected_iff s).1 (.inr hp)
    obtain hstart | ⟨moves, m, n, d, f, rfl⟩ := step_not_selected hs h
    · exact .inl hstart
    · exact .inr ⟨rfl, rfl, fun _ => rfl, rfl, rfl, rfl⟩

/-! ### The empty input -/

/-- Settles O59, by running the functional view on the empty input. -/
theorem emptyInputGivesEmptyResult : Obligations.EmptyInputGivesEmptyResult :=
  ⟨rfl, rfl, rfl, rfl, rfl, rfl, rfl⟩

end Sys2Proof.Machine
end

section
/-! PROOFS. The one exception of 60_exceptions.md: what raises it and what its entry writes (R216, R222), and that only a
decoder step raises it (R215, R226). -/

namespace Sys2Proof.Machine

/-! ### The entry -/

/-- Settles O33: `DE.RESOLVE` refuses a code above `NEXT` and the reserved ones, `DEC_FIRST` all but a literal. -/
theorem desyncEntry : Obligations.DesyncEntry := by
  refine ⟨fun s k hp hlt hk hnext => ⟨fun habove => ?_, fun hrsv => ?_⟩, fun s k hp hpos hk hge => ?_⟩
  · rw [exec_decNext hp hlt hk, decodeNext_desync (engineResolve_above habove)]
    exact ⟨_, rfl, rfl⟩
  · have hk' : k.toNat = 256 ∨ k.toNat = 257 := hrsv.imp (congrArg BitVec.toNat) (congrArg BitVec.toNat)
    rw [exec_decNext hp hlt hk, decodeNext_desync (engineResolve_reserved (by omega) hk')]
    exact ⟨_, rfl, rfl⟩
  · rw [exec_decFirst hp hpos hk, decodeFirst_desync hge]
    exact ⟨_, rfl, rfl⟩

variable {s t : State}

/-! ### The phases of a command -/

/-- The phases that a core step can lead to from a phase, by the rows of 44_codec_commands.md R198 and the error entry of
60_exceptions.md R222; none where no step is selected. -/
def phasesAfter : Phase → List Phase
  | .encRun => [.encRun, .encFlush]
  | .encFlush => [.packRun]
  | .packRun => [.packRun, .packPad]
  | .packPad => [.done]
  | .unpackRun => [.unpackRun, .decFirst]
  | .decFirst | .decRun => [.decRun, .done, .err]
  | .idle | .done | .err => []

theorem takeFirstCode_phase (h : takeFirstCode s = .next t) : t.phase ∈ [Phase.decRun, .done, .err] := by
  obtain ⟨-, rfl⟩ | ⟨k, -, -, rfl⟩ := takeFirstCode_next h
  · simp
  · rw [decodeFirst_phase]
    split <;> simp

theorem takeNextCode_phase (hp : s.phase = .decRun) (h : takeNextCode s = .next t) :
    t.phase ∈ [Phase.decRun, .done, .err] := by
  obtain ⟨k, -, hk⟩ := takeNextCode_next h
  rw [decodeNext_phase hp hk]
  split <;> simp

theorem exec_selected_phase {i : Instr} (hs : selectStep s = some i) (h : exec i s = .next t) :
    t.phase ∈ phasesAfter s.phase := by
  obtain ⟨hp, -, hx⟩ | ⟨hp, -, rfl⟩ | ⟨hp, hx⟩ | ⟨hp, -, hx⟩ | ⟨hp, -, rfl⟩ | ⟨hp, rfl⟩ | ⟨hp, -, hx⟩ |
    ⟨hp, -, rfl⟩ | ⟨hp, hx⟩ | ⟨hp, -, hx⟩ | ⟨hp, -, rfl⟩ := exec_selected hs h
  all_goals rw [hp, phasesAfter]
  · simp [(encodeByte_writes hx).phase_eq rfl, hp]
  · simp
  · simp [(flushPrefix_writes hx).phase_eq rfl]
  · obtain ⟨k, -, -, rfl⟩ := packCode_next hx
    simp [hp]
  · simp
  · simp [(padLastByte_writes s).phase_eq rfl]
  · obtain ⟨k, -, rfl⟩ := unpackCode_next hx
    simp [hp]
  · simp
  · exact takeFirstCode_phase hx
  · exact takeNextCode_phase hp hx
  · simp

/-- `PHASE` after a turn: a core step's, that of a command started while `BUSY = 0`, or the one before it. -/
theorem step_phase (h : step s = .next t) :
    t.phase ∈ phasesAfter s.phase ∨ (busy s = false ∧ (t.phase = .encRun ∨ t.phase = .unpackRun)) ∨
      t.phase = s.phase := by
  obtain ⟨rest, (⟨i, hs, hx⟩ | ⟨-, rfl⟩) | ⟨w, hx⟩ | ⟨a, b, rfl⟩ | ⟨r, v, rfl⟩ | ⟨r, rfl⟩ | ⟨a, rfl⟩⟩ := step_next h
  · exact .inl (exec_selected_phase (s := s.withHost rest) hs hx)
  · exact .inr (.inr rfl)
  · obtain rfl | ⟨hb, rfl | rfl⟩ := exec_command hx
    · exact .inr (.inr rfl)
    · exact .inr (.inl ⟨hb, .inl rfl⟩)
    · exact .inr (.inl ⟨hb, .inr rfl⟩)
  · obtain heq | ⟨-, heq⟩ := hostWriteIbuf_eq a b (s.withHost rest) <;> exact .inr (.inr (by rw [heq]))
  · obtain ⟨n, heq⟩ := hostWriteReg_eq r v (s.withHost rest)
    exact .inr (.inr (by rw [heq]))
  · obtain ⟨d, n, heq⟩ := hostReadReg_eq r (s.withHost rest)
    exact .inr (.inr (by rw [heq]))
  · obtain ⟨d, n, heq⟩ := hostReadObuf_eq a (s.withHost rest)
    exact .inr (.inr (by rw [heq]))

/-! ### Only a decoder step raises the error -/

theorem err_mem_phasesAfter {p : Phase} (h : .err ∈ phasesAfter p) : p = .decFirst ∨ p = .decRun := by
  cases p with
  | decFirst => exact .inl rfl
  | decRun => exact .inr rfl
  | idle | encRun | encFlush | packRun | packPad | unpackRun | done | err => simp [phasesAfter] at h

theorem phasesAfter_compressing {p : Phase} (hp : compressing p = true) :
    ∀ q ∈ phasesAfter p, compressing q = true ∨ q = .done := by
  cases p with
  | encRun | encFlush | packRun | packPad => decide
  | idle | unpackRun | decFirst | decRun | done | err => cases hp

theorem phasesAfter_decompressing {p : Phase} (hp : decompressing p = true) :
    ∀ q ∈ phasesAfter p, decompressing q = true ∨ q = .done ∨ q = .err := by
  cases p with
  | unpackRun | decFirst | decRun => decide
  | idle | encRun | encFlush | packRun | packPad | done | err => cases hp

theorem busy_of_command (h : compressing s.phase = true ∨ decompressing s.phase = true) : busy s = true := by
  cases hp : s.phase <;> simp [hp, compressing, decompressing, busy, phaseNumber] at h ⊢

/-- Settles O34: only the decoder's phases lead to `ERR`, and in the phases of a command `BUSY = 1`, so no other starts. -/
theorem onlyDecompressRaises : Obligations.OnlyDecompressRaises := by
  intro s t h
  obtain hmem | ⟨hidle, hstart⟩ | hsame := step_phase h
  · exact ⟨fun ht _ => err_mem_phasesAfter (ht ▸ hmem), fun hc => phasesAfter_compressing hc _ hmem,
      fun hd => phasesAfter_decompressing hd _ hmem⟩
  · have hb : busy s ≠ true := by simp [hidle]
    refine ⟨fun ht _ => ?_, fun hc => absurd (busy_of_command (.inl hc)) hb,
      fun hd => absurd (busy_of_command (.inr hd)) hb⟩
    simp [ht] at hstart
  · rw [hsame]
    exact ⟨fun ht hs => absurd ht hs, .inl, .inl⟩

end Sys2Proof.Machine
end

section
/-! PROOFS. Reset, the host's sequence for one command, and progress (70_reset_and_hazards.md R245, R248, R257). -/

namespace Sys2Proof.Machine

variable {s : State}

/-! ### Reset -/

/-- A command start in phase `IDLE` changes nothing after reset: both create the same registers and memories fresh (R245,
R246). -/
theorem commandStart_idle_reset : commandStart .idle State.reset = State.reset := rfl

/-- Settles O43: reset is a fresh start, and a fresh start meets the invariant (`commandStart_inv`). -/
theorem resetMeetsTheInvariant : Obligations.ResetMeetsTheInvariant := by
  have hm : memoriesCanonical State.reset := ⟨.nil, .nil, .nil, .nil⟩
  have hi : Inv (commandStart .idle State.reset) := commandStart_inv hm (by decide) rfl
  rwa [commandStart_idle_reset] at hi

/-! ### Progress -/

/-- Settles O51 by `busy_step`: the selected step answers a next state, and the measure goes down. -/
theorem busyBlockMakesProgress : Obligations.BusyBlockMakesProgress := by
  intro s hi hl hb hhost
  obtain ⟨t, ht, hless, -⟩ := busy_step hi hl hb hhost
  exact ⟨t, ht, hless⟩

/-! ### The host's sequence for one command -/

/-- A host that writes `bs` from index `n` on, one move a byte, leaves these bytes there and all below `n` as it was. -/
theorem run_writeBytes {rest : List HostMove} (bs : List Byte) (n : Nat) (hb : busy s = false)
    (hhost : s.host = (bs.zipIdx n).map (fun x => HostMove.writeIbuf x.2 x.1) ++ rest) :
    ∃ m, Sys2Proof.core.run bs.length s = .next { s with ibuf := m, host := rest } ∧
      (∀ i, i < bs.length → Memory.read m (n + i) = bs[i]?) ∧ ∀ i, i < n → Memory.read m i = Memory.read s.ibuf i := by
  induction bs generalizing s n with
  | nil =>
    obtain rfl : s.host = rest := hhost
    exact ⟨s.ibuf, rfl, nofun, fun _ _ => rfl⟩
  | cons b bs ih =>
    rw [List.zipIdx_cons, List.map_cons, List.cons_append] at hhost
    have hstep := step_writeIbuf hhost
    rw [hostWriteIbuf, if_neg (by simpa [busy] using hb)] at hstep
    obtain ⟨m, hrun, hnew, hold⟩ := ih (s := { s with ibuf := Memory.write s.ibuf n b, host := _ }) (n + 1) hb rfl
    refine ⟨m, (run_succ hstep).trans hrun, fun i hi => ?_, fun i hi => ?_⟩
    · cases i with
      | zero => simp [hold n n.lt_succ_self]
      | succ i =>
        rw [List.getElem?_cons_succ, ← hnew i (Nat.lt_of_succ_lt_succ hi), Nat.add_right_comm, Nat.add_assoc]
    · rw [hold i (by omega)]
      exact Memory.read_write_other _ _ (by omega)

/-- The value 1 or 2 written to `CMD` is `COMPRESS` or `DECOMPRESS` (30_encoding.md R104). -/
theorem commandOf_start {cmd : Nat} (hcmd : cmd = 1 ∨ cmd = 2) :
    commandOf (BitVec.ofNat 2 cmd) = if cmd = 1 then .compress else .decompress := by
  obtain rfl | rfl := hcmd <;> rfl

/-- A command that is taken makes the block busy (44_codec_commands.md R195, R196). -/
theorem exec_start_busy {cmd : Nat} (hcmd : cmd = 1 ∨ cmd = 2) (hb : busy s = false) :
    ∃ t, exec (if cmd = 1 then .compress else .decompress) s = .next t ∧ busy t = true ∧ t.ibuf = s.ibuf ∧
      t.ilen = s.ilen ∧ t.host = s.host := by
  obtain rfl | rfl := hcmd
  · exact ⟨_, exec_compress_idle hb, rfl, rfl, rfl, rfl⟩
  · exact ⟨_, exec_decompress_idle hb, rfl, rfl, rfl, rfl⟩

/-- The last two writes of the sequence: `ILEN`, then `CMD`, which starts the command. -/
theorem run_writeLengthAndCommand {rest : List HostMove} {n cmd : Nat} (hcmd : cmd = 1 ∨ cmd = 2) (hb : busy s = false)
    (hhost : s.host = .writeReg .ilen n :: .writeReg .cmd cmd :: rest) :
    ∃ t, Sys2Proof.core.run 2 s = .next t ∧
      exec (if cmd = 1 then .compress else .decompress) { s with ilen := n, host := rest } = .next t ∧
      busy t = true ∧ t.ibuf = s.ibuf ∧ t.ilen = n ∧ t.host = rest := by
  obtain ⟨hwrites, -⟩ := hostWritesWhileIdle
  obtain ⟨-, hilen⟩ := hwrites s _ hb
  obtain ⟨t, hexec, hstarted⟩ := exec_start_busy (s := { s with ilen := n, host := rest }) hcmd hb
  refine ⟨t, (run_succ (hilen n hhost)).trans (run_succ ?_), hexec, hstarted⟩
  rw [step_writeReg_cmd rfl, commandOf_start hcmd, ← hexec]

/-- Settles O21: `run_writeBytes` loads the input, and `run_writeLengthAndCommand` starts the command. -/
theorem scriptLoadsInputAndStarts : Obligations.ScriptLoadsInputAndStarts := by
  intro s bs rest cmd hb hcmd hhost
  rw [commandScript, List.append_assoc] at hhost
  obtain ⟨m, hload, hread, -⟩ := run_writeBytes bs 0 hb hhost
  obtain ⟨t, hstart, hexec, hbusy, hibuf, hilen, hpoll⟩ :=
    run_writeLengthAndCommand (s := { s with ibuf := m, host := _ }) hcmd hb rfl
  refine ⟨t, _, (run_add 2 hload).trans hstart, ⟨hilen, fun i hi => ?_⟩, hpoll, ?_, hexec, hbusy⟩
  · rw [hibuf, ← hread i hi, Nat.zero_add]
  · rw [hibuf]
    rfl

end Sys2Proof.Machine
end
